-- ==== Sys2Proof/Word.lean ====
section
/-! DEFINITION. The bit-vector types of the block: the 32-bit command word (spec 30_encoding.md R100) and the 8-bit byte
(spec 00_scope.md R10). -/

namespace Sys2Proof

/-- A command word `cmd` (spec 30_encoding.md R100). -/
abbrev Word := BitVec 32

/-- A byte: 8 bits (spec 00_scope.md R10). -/
abbrev Byte := BitVec 8

end Sys2Proof
end

