-- ==== Sys2Proof/Config.lean ====
section
/-! DEFINITION. What is fixed for the life of the block and what the spec leaves free: the wire constants and the bounds
the source fixes (spec 00_scope.md R7), the parameters it leaves to the platform (R8), the free answers of the oracle
(R14) and the calibration coefficients (44_regsensor.md R290). -/

namespace Sys2Proof

/-- The parameters of spec 00_scope.md R8, one field each; `none` for a poll limit is `unbounded` (R17). -/
structure Params where
  /-- `OW_T_A` (µs) -/
  owTA : Nat
  /-- `OW_T_B` (µs) -/
  owTB : Nat
  /-- `OW_T_C` (µs) -/
  owTC : Nat
  /-- `OW_T_D` (µs) -/
  owTD : Nat
  /-- `OW_T_E` (µs) -/
  owTE : Nat
  /-- `OW_T_F` (µs) -/
  owTF : Nat
  /-- `OW_T_H` (µs) -/
  owTH : Nat
  /-- `OW_T_I` (µs) -/
  owTI : Nat
  /-- `OW_ALARM0` -/
  owAlarm0 : Byte
  /-- `OW_ALARM1` -/
  owAlarm1 : Byte
  /-- `OW_INVALID_TEMPERATURE`, as its 16 bits -/
  owInvalidTemperature : BitVec 16
  /-- `OW_CONV_POLL_LIMIT` -/
  owConvPollLimit : Option Nat
  /-- `I2C_HZ_RESET` (Hz) -/
  i2cHzReset : Nat
  /-- `RS_T_POWERUP_MS` (ms) -/
  rsTPowerupMs : Nat
  /-- `RS_SPIN_LIMIT` -/
  rsSpinLimit : Option Nat
  /-- `PW_T_REL1_US` (µs) -/
  pwTRel1Us : Nat
  /-- `PW_T_REL2_US` (µs) -/
  pwTRel2Us : Nat
  /-- `PW_T_DECODE_US` (µs) -/
  pwTDecodeUs : Nat
  /-- `PW_POLL_US` (µs) -/
  pwPollUs : Nat
  /-- `PW_POLL_LIMIT` -/
  pwPollLimit : Option Nat
deriving DecidableEq, Repr

/-- R8: "the constraints `OW_T_A < OW_T_B` and `OW_T_A < OW_T_C` hold for every legal setting". -/
def Params.legal (p : Params) : Bool := decide (p.owTA < p.owTB) && decide (p.owTA < p.owTC)

/-! ### Wire constants and bounds the source fixes (R7, R120 to R124) -/

/-- `READ_ROM` (R120) -/
def Config.owReadRom : Byte := 0x33
/-- `CONVERT` (R120) -/
def Config.owConvert : Byte := 0x44
/-- `READ_SCRATCHPAD` (R120) -/
def Config.owReadScratchpad : Byte := 0xBE
/-- `WRITE_SCRATCHPAD` (R120) -/
def Config.owWriteScratchpad : Byte := 0x4E
/-- `SKIP_ROM` (R120) -/
def Config.owSkipRom : Byte := 0xCC
/-- `read_temperature` (R122) -/
def Config.rsReadTemperature : Byte := 0x03
/-- `read_humidity` (R122) -/
def Config.rsReadHumidity : Byte := 0x05
/-- `read_register` (R122) -/
def Config.rsReadRegister : Byte := 0x07
/-- `write_register` (R122) -/
def Config.rsWriteRegister : Byte := 0x06
/-- `reset_device` (R122) -/
def Config.rsResetDevice : Byte := 0x1E
/-- `I2C_WAIT_LIMIT` (R7): polls of `I2C.WAIT` before it gives up -/
def Config.i2cWaitLimit : Nat := 500
/-- `I2C_WAIT_TICK_MS` (R7) -/
def Config.i2cWaitTickMs : Nat := 1
/-- `I2C_RESET_PULSES` (R7) -/
def Config.i2cResetPulses : Nat := 9
/-- `PW_T_START_MS` (R7) -/
def Config.pwTStartMs : Nat := 18
/-- `PW_NBITS` (R7) -/
def Config.pwNbits : Nat := 40

/-! ### Parameters the spec gives no value (`OPEN` in R8): opaque, so that no proof can see one (log 4) -/

/-- `OW_ALARM0`, OPEN (R192, D9) -/
opaque Config.owAlarm0 : Byte
/-- `OW_ALARM1`, OPEN (R192, D9) -/
opaque Config.owAlarm1 : Byte
/-- `RS_T_POWERUP_MS`, OPEN (D23) -/
opaque Config.rsTPowerupMs : Nat
/-- `PW_T_REL1_US`, OPEN (D27) -/
opaque Config.pwTRel1Us : Nat
/-- `PW_T_REL2_US`, OPEN (D27) -/
opaque Config.pwTRel2Us : Nat
/-- `PW_T_DECODE_US`, OPEN (D28) -/
opaque Config.pwTDecodeUs : Nat

/-- The parameters the reset state carries: the defaults of R8 where it has one (the eight 1-Wire durations are marked
there "from general knowledge, not in source"), the opaque constants above where it says `OPEN` (log 4). Statements
about commands hold for every value of the field `par` of State, not for these alone. -/
def Config.params : Params where
  owTA := 6
  owTB := 64
  owTC := 60
  owTD := 10
  owTE := 9
  owTF := 55
  owTH := 480
  owTI := 70
  owAlarm0 := Config.owAlarm0
  owAlarm1 := Config.owAlarm1
  owInvalidTemperature := 0x8000
  owConvPollLimit := none
  i2cHzReset := 100000
  rsTPowerupMs := Config.rsTPowerupMs
  rsSpinLimit := none
  pwTRel1Us := Config.pwTRel1Us
  pwTRel2Us := Config.pwTRel2Us
  pwTDecodeUs := Config.pwTDecodeUs
  pwPollUs := 1
  pwPollLimit := none

/-! ### The oracle past its script (R14, U1) -/

/-- The environment's answer to the `n`-th `Sample` past the end of the script: a FREE VALUE (R14: "a free input: one bit
per `Sample`, under no law"; log 2). -/
opaque Config.freeSample : Nat → Bool

/-! ### The calibration table (44_regsensor.md R290) -/

/-- The coefficients of R290, over any type of numbers `K` (the spec says real; every floating-point coefficient is
rational; log 10). The indices are `scale` (false Celsius, true Fahrenheit) and `res` (`RS_STATUS[0]`). DEDUCED: R290 and
U15 count fourteen parameters, but the dimensions R290 gives (two tables of 2 x 2, five of 2) hold eighteen; the model
follows the dimensions (safe; log 25). -/
structure Calibration (K : Type) where
  /-- `RS_D1[scale][res]` -/
  d1 : Bool → Bool → K
  /-- `RS_D2[scale][res]` -/
  d2 : Bool → Bool → K
  /-- `RS_C1[res]` -/
  c1 : Bool → K
  /-- `RS_C2[res]` -/
  c2 : Bool → K
  /-- `RS_C3[res]` -/
  c3 : Bool → K
  /-- `RS_T1[res]` -/
  t1 : Bool → K
  /-- `RS_T2[res]` -/
  t2 : Bool → K
deriving Inhabited

/-- The platform's calibration table: OPEN (R290, D25; log 10). -/
opaque Config.calibration : Calibration Rat

end Sys2Proof
end

