-- ==== Sys2Proof/Syntax.lean ====
section
/-! DEFINITION. The syntax: one constructor of `Instr` per row of spec/opcode_table.json, 29 commands of format CMD32
(spec 30_encoding.md R103) and 18 wire constants of format WIRE8 (R120 to R123). -/

namespace Sys2Proof

/-- The rows of the opcode table. The first 29 are the host's commands (R103), with the operands of R101; the last 18
are the wire constants of 30_encoding.md section 5, which no host can issue (log 8). -/
inductive Instr where
  | owReset
  | owWbit (b : Bool)
  | owRbit
  | owWbyte (v : Byte)
  | owRbyte
  | owSetres (res : BitVec 2)
  | owConvert
  | owRawtemp
  | owGettemp
  | owReadrom
  | i2cStart
  | i2cStop
  | i2cWrite (v : Byte)
  | i2cRead (a : Bool)
  | i2cWait
  | i2cReset
  | i2cSetfreq (hz : BitVec 24)
  | rsGettemp
  | rsGethum
  | rsChkbat
  | rsSetheater (b : Bool)
  | rsSetres (b : Bool)
  | rsSetotp (b : Bool)
  | rsSetscale (b : Bool)
  | rsUpdate
  | rsReset
  | rsConnreset
  | pwSample
  | pwGet
  | owdevReadRom
  | owdevConvert
  | owdevReadScratchpad
  | owdevWriteScratchpad
  | owdevSkipRom
  | owcfg9bit
  | owcfg10bit
  | owcfg11bit
  | owcfg12bit
  | rsdevReadTemperature
  | rsdevReadHumidity
  | rsdevReadRegister
  | rsdevWriteRegister
  | rsdevResetDevice
  | rsflagResolution
  | rsflagOtpReload
  | rsflagHeater
  | rsflagBattery
deriving DecidableEq, Repr

/-- The bits of a row in its format: a 32-bit command word (CMD32, R100) or a byte on a line (WIRE8, section 5). -/
inductive Code where
  | cmd32 (w : Word)
  | wire8 (b : Byte)
deriving DecidableEq, Repr

/-- The four units of the block (spec 00_scope.md R2). -/
inductive Unit4 where
  | ow
  | i2c
  | rs
  | pw
deriving DecidableEq, Repr

/-- The unit a row belongs to (R2, R100): a command's `UNIT` field; for a wire constant, the unit that sends it
(R120 to R123). -/
def Instr.unit : Instr → Unit4
  | .owReset => .ow
  | .owWbit _ => .ow
  | .owRbit => .ow
  | .owWbyte _ => .ow
  | .owRbyte => .ow
  | .owSetres _ => .ow
  | .owConvert => .ow
  | .owRawtemp => .ow
  | .owGettemp => .ow
  | .owReadrom => .ow
  | .i2cStart => .i2c
  | .i2cStop => .i2c
  | .i2cWrite _ => .i2c
  | .i2cRead _ => .i2c
  | .i2cWait => .i2c
  | .i2cReset => .i2c
  | .i2cSetfreq _ => .i2c
  | .rsGettemp => .rs
  | .rsGethum => .rs
  | .rsChkbat => .rs
  | .rsSetheater _ => .rs
  | .rsSetres _ => .rs
  | .rsSetotp _ => .rs
  | .rsSetscale _ => .rs
  | .rsUpdate => .rs
  | .rsReset => .rs
  | .rsConnreset => .rs
  | .pwSample => .pw
  | .pwGet => .pw
  | .owdevReadRom => .ow
  | .owdevConvert => .ow
  | .owdevReadScratchpad => .ow
  | .owdevWriteScratchpad => .ow
  | .owdevSkipRom => .ow
  | .owcfg9bit => .ow
  | .owcfg10bit => .ow
  | .owcfg11bit => .ow
  | .owcfg12bit => .ow
  | .rsdevReadTemperature => .rs
  | .rsdevReadHumidity => .rs
  | .rsdevReadRegister => .rs
  | .rsdevWriteRegister => .rs
  | .rsdevResetDevice => .rs
  | .rsflagResolution => .rs
  | .rsflagOtpReload => .rs
  | .rsflagHeater => .rs
  | .rsflagBattery => .rs

/-- Whether a row is one of the 29 commands a host can issue (R103), or one of the 18 wire constants (section 5: "They
are not commands the host can issue"). -/
def Instr.isCommand : Instr → Bool
  | .owReset => true
  | .owWbit _ => true
  | .owRbit => true
  | .owWbyte _ => true
  | .owRbyte => true
  | .owSetres _ => true
  | .owConvert => true
  | .owRawtemp => true
  | .owGettemp => true
  | .owReadrom => true
  | .i2cStart => true
  | .i2cStop => true
  | .i2cWrite _ => true
  | .i2cRead _ => true
  | .i2cWait => true
  | .i2cReset => true
  | .i2cSetfreq _ => true
  | .rsGettemp => true
  | .rsGethum => true
  | .rsChkbat => true
  | .rsSetheater _ => true
  | .rsSetres _ => true
  | .rsSetotp _ => true
  | .rsSetscale _ => true
  | .rsUpdate => true
  | .rsReset => true
  | .rsConnreset => true
  | .pwSample => true
  | .pwGet => true
  | .owdevReadRom => false
  | .owdevConvert => false
  | .owdevReadScratchpad => false
  | .owdevWriteScratchpad => false
  | .owdevSkipRom => false
  | .owcfg9bit => false
  | .owcfg10bit => false
  | .owcfg11bit => false
  | .owcfg12bit => false
  | .rsdevReadTemperature => false
  | .rsdevReadHumidity => false
  | .rsdevReadRegister => false
  | .rsdevWriteRegister => false
  | .rsdevResetDevice => false
  | .rsflagResolution => false
  | .rsflagOtpReload => false
  | .rsflagHeater => false
  | .rsflagBattery => false

end Sys2Proof
end

