-- ==== Sys2Proof/WellFormed.lean ====
section
/-! DEFINITION. Well-formed instructions. Every operand has the exact width of its field (spec 30_encoding.md R101), so a
value that does not fit cannot be written; the one check left is the range R101 gives `hz`, 1 to 16777215. An ill-formed
instruction still has a meaning: R240 ends it with `ILLEGAL` (log 20). -/

namespace Sys2Proof

/-- R101: "`hz` ... requested bus frequency in hertz, 1 to 16777215"; every other operand takes every value of its
field. -/
def Instr.wf : Instr → Bool
  | .owReset => true
  | .owWbit _ => true
  | .owRbit => true
  | .owWbyte _ => true
  | .owRbyte => true
  | .owSetres _ => true
  | .owConvert => true
  | .owRawtemp => true
  | .owGettemp => true
  | .owReadrom => true
  | .i2cStart => true
  | .i2cStop => true
  | .i2cWrite _ => true
  | .i2cRead _ => true
  | .i2cWait => true
  | .i2cReset => true
  | .i2cSetfreq hz => hz != 0
  | .rsGettemp => true
  | .rsGethum => true
  | .rsChkbat => true
  | .rsSetheater _ => true
  | .rsSetres _ => true
  | .rsSetotp _ => true
  | .rsSetscale _ => true
  | .rsUpdate => true
  | .rsReset => true
  | .rsConnreset => true
  | .pwSample => true
  | .pwGet => true
  | .owdevReadRom => true
  | .owdevConvert => true
  | .owdevReadScratchpad => true
  | .owdevWriteScratchpad => true
  | .owdevSkipRom => true
  | .owcfg9bit => true
  | .owcfg10bit => true
  | .owcfg11bit => true
  | .owcfg12bit => true
  | .rsdevReadTemperature => true
  | .rsdevReadHumidity => true
  | .rsdevReadRegister => true
  | .rsdevWriteRegister => true
  | .rsdevResetDevice => true
  | .rsflagResolution => true
  | .rsflagOtpReload => true
  | .rsflagHeater => true
  | .rsflagBattery => true

end Sys2Proof
end

