-- ==== Sys2Proof/Decode.lean ====
section
/-! DEFINITION. Decoding (spec 30_encoding.md R100 to R106 for the command word, R120 to R123 for a wire byte), total and
rejecting by name, and after it the encoder and the opcode table as data (spec/opcode_table.json). -/

namespace Sys2Proof

/-- Why a code decodes to nothing: the three classes of illegal word of R105, and a byte that is no wire constant. -/
inductive DecodeError where
  /-- R105 (a): `UNIT` is 4 to 15 -/
  | reservedUnit
  /-- R105 (b): `UNIT` and `OP` select no row -/
  | unusedOp
  /-- R105 (c): a bit of `ARG` outside the row's operand field is 1 -/
  | argNotZero
  /-- a byte that is none of the 18 WIRE8 rows (log 16) -/
  | unknownWireByte
deriving DecidableEq, Repr

/-! ### The fields of a command word (R100) -/

/-- `UNIT`, bits 31:28 -/
def unitOf (w : Word) : BitVec 4 := w.extractLsb' 28 4

/-- `OP`, bits 27:24 -/
def opOf (w : Word) : BitVec 4 := w.extractLsb' 24 4

/-- `ARG`, bits 23:0 -/
def argOf (w : Word) : BitVec 24 := w.extractLsb' 0 24

/-! ### Operands (R101): unsigned fields at the low end of `ARG`; the bits above must be 0 (R102) -/

/-- A row without operand: all of `ARG` must be 0. -/
def noOperand (arg : BitVec 24) (i : Instr) : Except DecodeError Instr :=
  if arg = 0 then .ok i else .error .argNotZero

/-- `b` or `a`: `ARG[0]`. -/
def bitOperand (arg : BitVec 24) (f : Bool → Instr) : Except DecodeError Instr :=
  if arg.extractLsb' 1 23 = 0 then .ok (f (arg.getLsbD 0)) else .error .argNotZero

/-- `res`: `ARG[1:0]`. -/
def resOperand (arg : BitVec 24) (f : BitVec 2 → Instr) : Except DecodeError Instr :=
  if arg.extractLsb' 2 22 = 0 then .ok (f (arg.extractLsb' 0 2)) else .error .argNotZero

/-- `v`: `ARG[7:0]`. -/
def byteOperand (arg : BitVec 24) (f : Byte → Instr) : Except DecodeError Instr :=
  if arg.extractLsb' 8 16 = 0 then .ok (f (arg.extractLsb' 0 8)) else .error .argNotZero

/-! ### The opcode map (R103), unit by unit -/

/-- The ten rows with `UNIT` = 0. -/
def decodeOw (op : BitVec 4) (arg : BitVec 24) : Except DecodeError Instr :=
  match op.toNat with
  | 0 => noOperand arg .owReset
  | 1 => bitOperand arg .owWbit
  | 2 => noOperand arg .owRbit
  | 3 => byteOperand arg .owWbyte
  | 4 => noOperand arg .owRbyte
  | 5 => resOperand arg .owSetres
  | 6 => noOperand arg .owConvert
  | 7 => noOperand arg .owRawtemp
  | 8 => noOperand arg .owGettemp
  | 9 => noOperand arg .owReadrom
  | _ => .error .unusedOp

/-- The seven rows with `UNIT` = 1. -/
def decodeI2c (op : BitVec 4) (arg : BitVec 24) : Except DecodeError Instr :=
  match op.toNat with
  | 0 => noOperand arg .i2cStart
  | 1 => noOperand arg .i2cStop
  | 2 => byteOperand arg .i2cWrite
  | 3 => bitOperand arg .i2cRead
  | 4 => noOperand arg .i2cWait
  | 5 => noOperand arg .i2cReset
  | 6 => .ok (.i2cSetfreq arg)
  | _ => .error .unusedOp

/-- The ten rows with `UNIT` = 2. -/
def decodeRs (op : BitVec 4) (arg : BitVec 24) : Except DecodeError Instr :=
  match op.toNat with
  | 0 => noOperand arg .rsGettemp
  | 1 => noOperand arg .rsGethum
  | 2 => noOperand arg .rsChkbat
  | 3 => bitOperand arg .rsSetheater
  | 4 => bitOperand arg .rsSetres
  | 5 => bitOperand arg .rsSetotp
  | 6 => bitOperand arg .rsSetscale
  | 7 => noOperand arg .rsUpdate
  | 8 => noOperand arg .rsReset
  | 9 => noOperand arg .rsConnreset
  | _ => .error .unusedOp

/-- The two rows with `UNIT` = 3. -/
def decodePw (op : BitVec 4) (arg : BitVec 24) : Except DecodeError Instr :=
  match op.toNat with
  | 0 => noOperand arg .pwSample
  | 1 => noOperand arg .pwGet
  | _ => .error .unusedOp

/-- R102: read `UNIT` and `OP`, find the row, check the must-be-zero bits of `ARG`, read the operand. -/
def decodeWord (w : Word) : Except DecodeError Instr :=
  match (unitOf w).toNat with
  | 0 => decodeOw (opOf w) (argOf w)
  | 1 => decodeI2c (opOf w) (argOf w)
  | 2 => decodeRs (opOf w) (argOf w)
  | 3 => decodePw (opOf w) (argOf w)
  | _ => .error .reservedUnit

/-- A byte of format WIRE8 (R120 to R123): the eighteen values are distinct; every other byte is no row of the table
(log 16). A status flag is read from the byte in which it alone is set. -/
def decodeWire (b : Byte) : Except DecodeError Instr :=
  match b.toNat with
  | 0x33 => .ok .owdevReadRom
  | 0x44 => .ok .owdevConvert
  | 0xBE => .ok .owdevReadScratchpad
  | 0x4E => .ok .owdevWriteScratchpad
  | 0xCC => .ok .owdevSkipRom
  | 0x1F => .ok .owcfg9bit
  | 0x3F => .ok .owcfg10bit
  | 0x5F => .ok .owcfg11bit
  | 0x7F => .ok .owcfg12bit
  | 0x03 => .ok .rsdevReadTemperature
  | 0x05 => .ok .rsdevReadHumidity
  | 0x07 => .ok .rsdevReadRegister
  | 0x06 => .ok .rsdevWriteRegister
  | 0x1E => .ok .rsdevResetDevice
  | 0x01 => .ok .rsflagResolution
  | 0x02 => .ok .rsflagOtpReload
  | 0x04 => .ok .rsflagHeater
  | 0x40 => .ok .rsflagBattery
  | _ => .error .unknownWireByte

/-- The decoder: total on every command word and every wire byte. -/
def decode : Code → Except DecodeError Instr
  | .cmd32 w => decodeWord w
  | .wire8 b => decodeWire b

/-- The bits `w` of a table row of `nbits` bits, as a code: the rows of 8 bits are WIRE8, all others CMD32; the bits
above `nbits` are 0. -/
def tableCode (nbits w : Nat) : Code :=
  if nbits ≤ 8 then .wire8 (BitVec.ofNat 8 w) else .cmd32 (BitVec.ofNat 32 w)

/-- The instruction the decoder reads from the bits `w` of a table row of `nbits` bits (none where it refuses). -/
def decodeTableWord (nbits w : Nat) : Option Instr :=
  match decode (tableCode nbits w) with
  | .ok i => some i
  | .error _ => none

/-! ### The encoder -/

/-- A command word from its three fields (R100). -/
def commandWord (unit op : BitVec 4) (arg : BitVec 24) : Word := unit ++ op ++ arg

/-- One-bit operand placed in `ARG[0]`, all other bits 0. -/
def bitArg (b : Bool) : BitVec 24 := (BitVec.ofBool b).setWidth 24

/-- The encoding of an instruction (R102: "fields placed, all other `ARG` bits 0"; section 5 for the wire constants). -/
def encode : Instr → Code
  | .owReset => .cmd32 (commandWord 0 0 0)
  | .owWbit b => .cmd32 (commandWord 0 1 (bitArg b))
  | .owRbit => .cmd32 (commandWord 0 2 0)
  | .owWbyte v => .cmd32 (commandWord 0 3 (v.setWidth 24))
  | .owRbyte => .cmd32 (commandWord 0 4 0)
  | .owSetres res => .cmd32 (commandWord 0 5 (res.setWidth 24))
  | .owConvert => .cmd32 (commandWord 0 6 0)
  | .owRawtemp => .cmd32 (commandWord 0 7 0)
  | .owGettemp => .cmd32 (commandWord 0 8 0)
  | .owReadrom => .cmd32 (commandWord 0 9 0)
  | .i2cStart => .cmd32 (commandWord 1 0 0)
  | .i2cStop => .cmd32 (commandWord 1 1 0)
  | .i2cWrite v => .cmd32 (commandWord 1 2 (v.setWidth 24))
  | .i2cRead a => .cmd32 (commandWord 1 3 (bitArg a))
  | .i2cWait => .cmd32 (commandWord 1 4 0)
  | .i2cReset => .cmd32 (commandWord 1 5 0)
  | .i2cSetfreq hz => .cmd32 (commandWord 1 6 hz)
  | .rsGettemp => .cmd32 (commandWord 2 0 0)
  | .rsGethum => .cmd32 (commandWord 2 1 0)
  | .rsChkbat => .cmd32 (commandWord 2 2 0)
  | .rsSetheater b => .cmd32 (commandWord 2 3 (bitArg b))
  | .rsSetres b => .cmd32 (commandWord 2 4 (bitArg b))
  | .rsSetotp b => .cmd32 (commandWord 2 5 (bitArg b))
  | .rsSetscale b => .cmd32 (commandWord 2 6 (bitArg b))
  | .rsUpdate => .cmd32 (commandWord 2 7 0)
  | .rsReset => .cmd32 (commandWord 2 8 0)
  | .rsConnreset => .cmd32 (commandWord 2 9 0)
  | .pwSample => .cmd32 (commandWord 3 0 0)
  | .pwGet => .cmd32 (commandWord 3 1 0)
  | .owdevReadRom => .wire8 Config.owReadRom
  | .owdevConvert => .wire8 Config.owConvert
  | .owdevReadScratchpad => .wire8 Config.owReadScratchpad
  | .owdevWriteScratchpad => .wire8 Config.owWriteScratchpad
  | .owdevSkipRom => .wire8 Config.owSkipRom
  | .owcfg9bit => .wire8 0x1F
  | .owcfg10bit => .wire8 0x3F
  | .owcfg11bit => .wire8 0x5F
  | .owcfg12bit => .wire8 0x7F
  | .rsdevReadTemperature => .wire8 Config.rsReadTemperature
  | .rsdevReadHumidity => .wire8 Config.rsReadHumidity
  | .rsdevReadRegister => .wire8 Config.rsReadRegister
  | .rsdevWriteRegister => .wire8 Config.rsWriteRegister
  | .rsdevResetDevice => .wire8 Config.rsResetDevice
  | .rsflagResolution => .wire8 0x01
  | .rsflagOtpReload => .wire8 0x02
  | .rsflagHeater => .wire8 0x04
  | .rsflagBattery => .wire8 0x40

/-! ### The opcode table as data (R103, R120 to R123; spec/opcode_table.json) -/

/-- A row's `match` and `mask` in its format: a code selects the row when `bits & mask = match` (R103). -/
inductive Row where
  | cmd32 (pattern mask : Word)
  | wire8 (pattern mask : Byte)
deriving DecidableEq, Repr

/-- A code selects a row when it has the row's format and `bits & mask = match` (R103). -/
def Row.selects : Row → Code → Bool
  | .cmd32 pattern mask, .cmd32 w => w &&& mask == pattern
  | .wire8 pattern mask, .wire8 b => b &&& mask == pattern
  | .cmd32 _ _, .wire8 _ => false
  | .wire8 _ _, .cmd32 _ => false

/-- The row of spec/opcode_table.json an instruction stands for. -/
def Instr.row : Instr → Row
  | .owReset => .cmd32 0x00000000 0xFFFFFFFF
  | .owWbit _ => .cmd32 0x01000000 0xFFFFFFFE
  | .owRbit => .cmd32 0x02000000 0xFFFFFFFF
  | .owWbyte _ => .cmd32 0x03000000 0xFFFFFF00
  | .owRbyte => .cmd32 0x04000000 0xFFFFFFFF
  | .owSetres _ => .cmd32 0x05000000 0xFFFFFFFC
  | .owConvert => .cmd32 0x06000000 0xFFFFFFFF
  | .owRawtemp => .cmd32 0x07000000 0xFFFFFFFF
  | .owGettemp => .cmd32 0x08000000 0xFFFFFFFF
  | .owReadrom => .cmd32 0x09000000 0xFFFFFFFF
  | .i2cStart => .cmd32 0x10000000 0xFFFFFFFF
  | .i2cStop => .cmd32 0x11000000 0xFFFFFFFF
  | .i2cWrite _ => .cmd32 0x12000000 0xFFFFFF00
  | .i2cRead _ => .cmd32 0x13000000 0xFFFFFFFE
  | .i2cWait => .cmd32 0x14000000 0xFFFFFFFF
  | .i2cReset => .cmd32 0x15000000 0xFFFFFFFF
  | .i2cSetfreq _ => .cmd32 0x16000000 0xFF000000
  | .rsGettemp => .cmd32 0x20000000 0xFFFFFFFF
  | .rsGethum => .cmd32 0x21000000 0xFFFFFFFF
  | .rsChkbat => .cmd32 0x22000000 0xFFFFFFFF
  | .rsSetheater _ => .cmd32 0x23000000 0xFFFFFFFE
  | .rsSetres _ => .cmd32 0x24000000 0xFFFFFFFE
  | .rsSetotp _ => .cmd32 0x25000000 0xFFFFFFFE
  | .rsSetscale _ => .cmd32 0x26000000 0xFFFFFFFE
  | .rsUpdate => .cmd32 0x27000000 0xFFFFFFFF
  | .rsReset => .cmd32 0x28000000 0xFFFFFFFF
  | .rsConnreset => .cmd32 0x29000000 0xFFFFFFFF
  | .pwSample => .cmd32 0x30000000 0xFFFFFFFF
  | .pwGet => .cmd32 0x31000000 0xFFFFFFFF
  | .owdevReadRom => .wire8 0x33 0xFF
  | .owdevConvert => .wire8 0x44 0xFF
  | .owdevReadScratchpad => .wire8 0xBE 0xFF
  | .owdevWriteScratchpad => .wire8 0x4E 0xFF
  | .owdevSkipRom => .wire8 0xCC 0xFF
  | .owcfg9bit => .wire8 0x1F 0xFF
  | .owcfg10bit => .wire8 0x3F 0xFF
  | .owcfg11bit => .wire8 0x5F 0xFF
  | .owcfg12bit => .wire8 0x7F 0xFF
  | .rsdevReadTemperature => .wire8 0x03 0xFF
  | .rsdevReadHumidity => .wire8 0x05 0xFF
  | .rsdevReadRegister => .wire8 0x07 0xFF
  | .rsdevWriteRegister => .wire8 0x06 0xFF
  | .rsdevResetDevice => .wire8 0x1E 0xFF
  | .rsflagResolution => .wire8 0x01 0x01
  | .rsflagOtpReload => .wire8 0x02 0x02
  | .rsflagHeater => .wire8 0x04 0x04
  | .rsflagBattery => .wire8 0x40 0x40

end Sys2Proof
end

