-- ==== Sys2Proof/Machine/State.lean ====
section
/-! DEFINITION. The state of the block: every element of the table of spec 10_state.md R20, and the model's own fields
(INVENTORY.md, State); the fault and refusal reasons; the state right after reset (70_reset_and_hazards.md R390). -/

namespace Sys2Proof.Machine

/-- The four lines (10_state.md R24). -/
inductive Line where
  /-- line 0, unit OW: the 1-Wire data line -/
  | owdq
  /-- line 1, unit I2C: Soft-I2C data -/
  | sda
  /-- line 2, unit I2C: Soft-I2C clock -/
  | scl
  /-- line 3, unit PW: the pulse-width sensor line -/
  | pwd
deriving DecidableEq, Repr

/-- The five micro-operations (00_scope.md R12); a `Sample` is recorded with its answer (R13). -/
inductive MicroOp where
  | drive (l : Line) (v : Bool)
  | release (l : Line)
  | sample (l : Line) (answer : Bool)
  | delayUs (n : Nat)
  | delayMs (n : Nat)
deriving DecidableEq, Repr

/-- The two latches of a line (10_state.md R25). -/
structure Latch where
  /-- `OE[L]`: the block drives the line -/
  oe : Bool
  /-- `OUT[L]`: the level it drives -/
  out : Bool
deriving DecidableEq, Repr

/-- The latches of the four lines (10_state.md R20, R24). -/
structure Pins where
  owdq : Latch
  sda : Latch
  scl : Latch
  pwd : Latch
deriving DecidableEq, Repr

/-- The status codes (30_encoding.md R110); 60_exceptions.md R357: "A model's status type has seven constructors"
(log 13). -/
inductive Status where
  | ok
  | noPresence
  | noAck
  | waitTimeout
  | checksum
  | pollTimeout
  | illegal
deriving DecidableEq, Repr

/-- The four bits of `RSP_STATUS` (30_encoding.md R110). -/
def Status.code : Status → BitVec 4
  | .ok => 0
  | .noPresence => 1
  | .noAck => 2
  | .waitTimeout => 3
  | .checksum => 4
  | .pollTimeout => 5
  | .illegal => 15

/-- The three commands that contain `ow_convert` (42_ow_transactions.md R193, R194, R197, R200). -/
inductive ConvUser where
  | convert
  | rawtemp
  | gettemp
deriving DecidableEq, Repr

/-- The seven guarded commands of unit RS (44_regsensor.md R271), with their operands. -/
inductive Guarded where
  | update
  | reset
  | chkbat
  | setheater (b : Bool)
  | setres (b : Bool)
  | setotp (b : Bool)
  | connreset
deriving DecidableEq, Repr

/-- The MODEL's own: where in its pseudocode a command that has not ended stands (10_state.md R22 leaves the form of the
position to the model). A command stops only inside one of the four unbounded loops (70_reset_and_hazards.md R401), when
no awaited answer has come yet (log 3). -/
inductive Seq where
  /-- no command is in execution -/
  | idle
  /-- in the conversion poll of `ow_convert` (R193) -/
  | convPoll (u : ConvUser)
  /-- in the first loop of `pw_bit`, "waiting while the line is low" (R322), at bit `PW_BITCNT` -/
  | pwLow
  /-- in the second loop of `pw_bit`, "waiting while the line is high" (R322), at bit `PW_BITCNT` -/
  | pwHigh
  /-- in the spin of `rs_acquire` (R272) -/
  | rsSpin (g : Guarded)
deriving DecidableEq, Repr

/-- Why the model stops with a fault of its own (93_implementation_defined.md, Part 1: "`fault` (the model reports an
error of its own; the state is not a state of the hardware)"). -/
inductive Fault where
  /-- Raised by `step` in a state with `BUSY` = 1 and no command in execution (`seq` idle), which no run reaches
  (10_state.md R23; log 12). Safe: the hardware has no such state. -/
  | busyWithoutPosition
deriving DecidableEq, Repr

/-- Why the model gives no meaning. -/
inductive Refusal where
  /-- Raised by an arm of `exec` whose instruction has no meaning yet (no arm uses it). Safe. -/
  | notModelled (mnemonic : String)
  /-- Raised by `step` when the model's own `wirePort` holds a byte that is none of the 18 WIRE8 rows; no host, command
  or step puts one there (log 16). Safe: the hardware has no such input. -/
  | unknownWireByte
deriving DecidableEq, Repr

/-- The state: the elements of 10_state.md R20 in the table's order, then the MODEL's own fields. -/
structure State where
  /-- `BUSY` (R23) -/
  busy : Bool
  /-- `RSP_VALID` (R23) -/
  rspValid : Bool
  /-- `RSP_STATUS` (R23; 30_encoding.md R110) -/
  rspStatus : Status
  /-- `RSP_DATA` (R23; 30_encoding.md R108) -/
  rspData : BitVec 64
  /-- `TIME`, µs elapsed in delays since reset, ghost (R28) -/
  time : Nat
  /-- `OE[L]`, `OUT[L]` (R25) -/
  pins : Pins
  /-- `OW_RES` (R30) -/
  owRes : Option (BitVec 2)
  /-- `OW_SHIFT`, transient (R31; log 7) -/
  owShift : Byte
  /-- `OW_BITCNT`, transient (R31; log 7) -/
  owBitcnt : BitVec 4
  /-- `I2C_HALF_US` (R32) -/
  i2cHalfUs : BitVec 20
  /-- `I2C_SHIFT`, transient (R33; log 7) -/
  i2cShift : Byte
  /-- `I2C_BITCNT`, transient (R33; log 7) -/
  i2cBitcnt : BitVec 4
  /-- `I2C_WAITCNT`, transient (R33; 60_exceptions.md R367; log 7) -/
  i2cWaitcnt : BitVec 9
  /-- `RS_READY` (R34) -/
  rsReady : Bool
  /-- `RS_STATUS`, all eight bits plain storage (R35) -/
  rsStatus : Byte
  /-- `RS_RAW_TEMP` (R36) -/
  rsRawTemp : BitVec 16
  /-- `RS_RAW_HUM` (R36) -/
  rsRawHum : BitVec 16
  /-- `RS_SCALE`: false Celsius, true Fahrenheit (R37) -/
  rsScale : Bool
  /-- `PW_HUM` (R38) -/
  pwHum : BitVec 16
  /-- `PW_TEMP` (R38) -/
  pwTemp : BitVec 16
  /-- `PW_FRAME`, transient (R39) -/
  pwFrame : BitVec 40
  /-- `PW_BITCNT`, transient (R39) -/
  pwBitcnt : BitVec 6
  /-- MODEL: the position of a command in execution (log 3) -/
  seq : Seq
  /-- MODEL: the trace of the command in execution, or of the last one (00_scope.md R13; log 15) -/
  trace : List MicroOp
  /-- MODEL: the oracle's scripted answers not yet given, next first (00_scope.md R14; log 2) -/
  script : List Bool
  /-- MODEL: how many answers have been taken past the script's end (log 2) -/
  freeCount : Nat
  /-- MODEL: the command words the host will present, next first (10_state.md R22, R23; log 5) -/
  host : List Word
  /-- MODEL: a wire constant handed to the sequencer on its own (log 8) -/
  wirePort : Option Byte
  /-- MODEL: the host has asserted `rst` (10_state.md R29; log 6) -/
  rst : Bool
  /-- MODEL: the parameters, constant for the life of the block (10_state.md R42; log 4) -/
  par : Params
deriving DecidableEq, Repr

/-- A line the block does not drive, with its level latch at 0 (R390). -/
def releasedLow : Latch := ⟨false, false⟩

/-- The reset state under the parameters `p`: the reset column of 10_state.md R20 (70_reset_and_hazards.md R390), the
transient registers at 0 (log 7), the model's own fields empty. -/
def State.resetWith (p : Params) : State where
  busy := false
  rspValid := false
  rspStatus := .ok
  rspData := 0
  time := 0
  pins := ⟨releasedLow, releasedLow, releasedLow, releasedLow⟩
  owRes := none
  owShift := 0
  owBitcnt := 0
  i2cHalfUs := BitVec.ofNat 20 (500000 / p.i2cHzReset)
  i2cShift := 0
  i2cBitcnt := 0
  i2cWaitcnt := 0
  rsReady := true
  rsStatus := 0
  rsRawTemp := 0
  rsRawHum := 0
  rsScale := false
  pwHum := 0
  pwTemp := 0
  pwFrame := 0
  pwBitcnt := 0
  seq := .idle
  trace := []
  script := []
  freeCount := 0
  host := []
  wirePort := none
  rst := false
  par := p

/-- The machine right after reset (70_reset_and_hazards.md R390) with the parameters `Config.params` (log 4). -/
def State.reset : State := State.resetWith Config.params

end Sys2Proof.Machine
end

