-- ==== Sys2Proof/Machine/Operands.lean ====
section
/-! DEFINITION. Operand and data forms: bits and bytes of a value (00_scope.md R10), the bit orders of 20_memory.md R72 to
R74, the byte orders of R76 to R78 and the packing into `RSP_DATA` (R79; 30_encoding.md R109). -/

namespace Sys2Proof.Machine

/-- The bit indices of a byte in 1-Wire order: least significant first (20_memory.md R72). -/
def lsbFirst : List Nat := [0, 1, 2, 3, 4, 5, 6, 7]

/-- The bit indices of a byte in Soft-I2C order: most significant first (20_memory.md R73). -/
def msbFirst : List Nat := [7, 6, 5, 4, 3, 2, 1, 0]

/-- `v[i] <- b` (00_scope.md R10). -/
def putBit {n : Nat} (v : BitVec n) (i : Nat) (b : Bool) : BitVec n :=
  if b then v ||| (1#n <<< i) else v &&& ~~~(1#n <<< i)

/-- One bit of response data, zero-extended to 64 bits (00_scope.md R16). -/
def bit64 (b : Bool) : BitVec 64 := (BitVec.ofBool b).setWidth 64

/-- `zext_64` of response data (00_scope.md R16). -/
def zext64 {n : Nat} (v : BitVec n) : BitVec 64 := v.setWidth 64

/-- `hi ++ lo`, 16 bits (20_memory.md R76, R77, R78; 70_reset_and_hazards.md R415 (b), (f)). -/
def word16 (hi lo : Byte) : BitVec 16 := hi ++ lo

/-- `hi ++ lo` of two 16-bit values, 32 bits (`RS.UPDATE` R278, `PW.SAMPLE` R323, `PW.GET` R327). -/
def word32 (hi lo : BitVec 16) : BitVec 32 := hi ++ lo

/-- Byte `k` of a multi-byte result, placed at bits `8k+7 : 8k` of `d` (20_memory.md R79). -/
def packByte (d : BitVec 64) (k : Nat) (v : Byte) : BitVec 64 := d ||| (zext64 v <<< (8 * k))

/-- The 1-Wire configuration byte of a resolution code: `(RES << 5) | 0x1F` (30_encoding.md R121). -/
def owConfigByte (res : BitVec 2) : Byte := (res.setWidth 8 <<< 5) ||| 0x1F

/-- The resolution in bits a code stands for: `9 + RES` (30_encoding.md R101, R112). -/
def owResolutionBits (res : BitVec 2) : Nat := 9 + res.toNat

/-- The half-cycle delay of a requested frequency: `floor(500000 / hz)` (43_i2c_seq.md R240; R415 (d)). -/
def halfCycle (hz : BitVec 24) : BitVec 20 := BitVec.ofNat 20 (500000 / hz.toNat)

/-! ### The pulse-width frame (30_encoding.md R124) -/

/-- Byte `k` of `PW_FRAME`, byte 0 in bits 39:32 (R124). -/
def frameByte (f : BitVec 40) (k : Nat) : Byte := f.extractLsb' (32 - 8 * k) 8

/-- `(PW_FRAME << 1)[39:0] | b` (45_pulsewidth.md R323; R415 (h)). -/
def shiftIn (f : BitVec 40) (b : Bool) : BitVec 40 := (f <<< 1) ||| (BitVec.ofBool b).setWidth 40

end Sys2Proof.Machine
end

