-- ==== Sys2Proof/Machine/Flags.lean ====
section
/-! DEFINITION. The flags: the fields of the cached status register `RS_STATUS` (10_state.md R35; 30_encoding.md R123), the
byte of it that is sent (44_regsensor.md R276), the pulse-width checksum (45_pulsewidth.md R323, R325). The block has no
condition codes (10_state.md R40). -/

namespace Sys2Proof.Machine

/-- Bit index of `RES`, mask 0x01 (R35, R123). -/
def flagRes : Nat := 0
/-- Bit index of `OTP`, mask 0x02 (R35, R123). -/
def flagOtp : Nat := 1
/-- Bit index of `HEATER`, mask 0x04 (R35, R123). -/
def flagHeater : Nat := 2
/-- Bit index of `BATTERY`, mask 0x40 (R35, R123). -/
def flagBattery : Nat := 6

/-- The mask of a flag (30_encoding.md R123). -/
def flagMask (k : Nat) : Byte := 1#8 <<< k

/-- What of a status byte is sent to the device: `RS_STATUS & 0x07` (44_regsensor.md R276). -/
def sentFlags (status : Byte) : Byte := status &&& 0x07

/-- `(b0 + b1 + b2 + b3) mod 256 = b4` over the bytes of a frame (45_pulsewidth.md R323, R325; R415 (e)). -/
def checksumOk (f : BitVec 40) : Bool :=
  ((frameByte f 0).toNat + (frameByte f 1).toNat + (frameByte f 2).toNat + (frameByte f 3).toNat) % 256
    == (frameByte f 4).toNat

end Sys2Proof.Machine
end

