-- ==== Sys2Proof/Machine/Ops.lean ====
section
/-! DEFINITION. The shared operations: micro-operations and their trace (00_scope.md R12, R13), the oracle (R14), polling
loops (R17), accepting a command (10_state.md R23), and ending one, with success or failure (00_scope.md R16): the block's
whole "exception" mechanism, which transfers no control (60_exceptions.md R360) and has no return (R364). -/

namespace Sys2Proof.Machine

/-! ### Pins and micro-operations -/

/-- The latches of a line. -/
def Pins.get (p : Pins) : Line → Latch
  | .owdq => p.owdq
  | .sda => p.sda
  | .scl => p.scl
  | .pwd => p.pwd

/-- Write both latches of a line. -/
def Pins.set (p : Pins) (l : Line) (x : Latch) : Pins :=
  match l with
  | .owdq => { p with owdq := x }
  | .sda => { p with sda := x }
  | .scl => { p with scl := x }
  | .pwd => { p with pwd := x }

/-- What a micro-operation does to the latches (R12): `Drive` writes both in one step, `Release` clears `OE` and leaves
`OUT`, the others nothing. -/
def MicroOp.onPins (op : MicroOp) (p : Pins) : Pins :=
  match op with
  | .drive l v => p.set l ⟨true, v⟩
  | .release l => p.set l { p.get l with oe := false }
  | .sample _ _ => p
  | .delayUs _ => p
  | .delayMs _ => p

/-- The µs a micro-operation adds to `TIME` (R12). -/
def MicroOp.us : MicroOp → Nat
  | .drive _ _ => 0
  | .release _ => 0
  | .sample _ _ => 0
  | .delayUs n => n
  | .delayMs n => 1000 * n

/-- Perform one micro-operation and record it (R12, R13). -/
def perform (op : MicroOp) (s : State) : State :=
  { s with pins := op.onPins s.pins, time := s.time + op.us, trace := s.trace ++ [op] }

/-- Perform a sequence of micro-operations in order (20_memory.md R86). -/
def performAll : List MicroOp → State → State
  | [], s => s
  | op :: ops, s => performAll ops (perform op s)

/-! ### The oracle -/

/-- The answer the next `Sample` gets: the script's next one, past its end a free value (R14; log 2). -/
def nextAnswer (s : State) : Bool :=
  match s.script with
  | a :: _ => a
  | [] => Config.freeSample s.freeCount

/-- The oracle after giving one answer. -/
def takeAnswer (s : State) : State :=
  match s.script with
  | _ :: rest => { s with script := rest }
  | [] => { s with freeCount := s.freeCount + 1 }

/-- `Sample(L)` (R12): yields one bit and changes no latch. Every caller has released `L` before (10_state.md R27;
log 11). -/
def sample (l : Line) (s : State) : Bool × State :=
  (nextAnswer s, perform (.sample l (nextAnswer s)) (takeAnswer s))

/-! ### Polling loops (R17) -/

/-- How a `loop[LIMIT]` stands. -/
inductive Poll where
  /-- it left by its `break` -/
  | done
  /-- a finite limit is reached: the `on limit:` clause -/
  | limit
  /-- unbounded, and no answer given so far has met its exit condition (log 3) -/
  | waiting
deriving DecidableEq, Repr

/-- Run a loop body at most `n` times, until it says it breaks. -/
def pollTimes (body : State → Bool × State) : Nat → State → Bool × State
  | 0, s => (false, s)
  | n + 1, s =>
    let r := body s
    if r.1 then r else pollTimes body n r.2

/-- `loop[LIMIT]` (R17): with a finite limit the body runs at most that often; unbounded, it runs as long as the script
has answers, and at least once, and then waits (log 3). -/
def poll (body : State → Bool × State) (limit : Option Nat) (s : State) : Poll × State :=
  match limit with
  | some n =>
    let r := pollTimes body n s
    (if r.1 then .done else .limit, r.2)
  | none =>
    let r := pollTimes body (max 1 s.script.length) s
    (if r.1 then .done else .waiting, r.2)

/-! ### The handshake (10_state.md R23) and the end of a command (00_scope.md R16) -/

/-- Accepting a command: `BUSY <- 1`, `RSP_VALID <- 0`; its trace starts empty (R23, R13). -/
def accept (s : State) : State := { s with busy := true, rspValid := false, trace := [] }

/-- Ending a command: the response is written, then `RSP_VALID <- 1`, `BUSY <- 0` (R16, R23; 60_exceptions.md R360, R363).
Nothing else changes: no handler, no saved state. -/
def respond (st : Status) (data : BitVec 64) (s : State) : State :=
  { s with rspStatus := st, rspData := data, rspValid := true, busy := false, seq := .idle }

/-- `return (data)` (R16). -/
def ret (data : BitVec 64) (s : State) : State := respond .ok data s

/-- `raise <Status>(data)` (R16): the block's one failure report. -/
def raise (st : Status) (data : BitVec 64) (s : State) : State := respond st data s

/-- The end of an illegal word: `raise ILLEGAL(0)`, nothing else (30_encoding.md R105; 60_exceptions.md R356). -/
def illegalWord (s : State) : State := raise .illegal 0 (accept s)

/-- A wire constant run on its own is no command: no handshake, only its trace starts (log 8). -/
def beginWire (s : State) : State := { s with trace := [] }

/-! ### Reset of the block -/

/-- `rst` (70_reset_and_hazards.md R390): every element of 10_state.md R20 takes its reset value; the command in execution
is abandoned without a response and "the trace up to that point stands" (93_implementation_defined.md U9). What is outside
the block stays: the oracle, the host's words, the parameters (log 6). -/
def resetBlock (s : State) : State :=
  { State.resetWith s.par with
    trace := s.trace, script := s.script, freeCount := s.freeCount, host := s.host, wirePort := s.wirePort }

end Sys2Proof.Machine
end

