-- ==== Sys2Proof/Machine/OneWire.lean ====
section
/-! DEFINITION. Unit OW: the procedures and the ten commands of spec 40_ow_reset.md, 41_ow_bit_byte.md and
42_ow_transactions.md, all on line `OWDQ`. -/

namespace Sys2Proof.Machine

/-! ### Reset and presence (40_ow_reset.md) -/

/-- The four micro-operations of `ow_reset` before its sample (R142). -/
def owResetPulse (p : Params) : List MicroOp :=
  [.drive .owdq false, .delayUs p.owTH, .release .owdq, .delayUs p.owTI]

/-- `ow_reset() -> r` (R142): false, a device pulled the line low; true, nobody did. -/
def owReset (s : State) : Bool × State := sample .owdq (performAll (owResetPulse s.par) s)

/-! ### Bit slots and byte shift (41_ow_bit_byte.md) -/

/-- The micro-operations of `ow_wbit(b)` (R162). -/
def owWriteSlot (p : Params) (b : Bool) : List MicroOp :=
  if b then [.drive .owdq false, .delayUs p.owTA, .release .owdq, .delayUs p.owTB]
  else [.drive .owdq false, .delayUs p.owTC, .release .owdq, .delayUs p.owTD]

/-- `ow_wbit(b)` (R162). -/
def owWbit (b : Bool) (s : State) : State := performAll (owWriteSlot s.par b) s

/-- The micro-operations of `ow_rbit` before its sample (R161). -/
def owReadLead (p : Params) : List MicroOp :=
  [.drive .owdq false, .delayUs p.owTA, .release .owdq, .delayUs p.owTE]

/-- `ow_rbit() -> b` (R161): the sampled level, then the remainder of the slot. -/
def owRbit (s : State) : Bool × State :=
  let r := sample .owdq (performAll (owReadLead s.par) s)
  (r.1, perform (.delayUs s.par.owTF) r.2)

/-- The slots of `ow_wbyte` for the given bit indices of `OW_SHIFT`. -/
def owWriteBits : List Nat → State → State
  | [], s => s
  | i :: is, s => owWriteBits is { owWbit (s.owShift.getLsbD i) s with owBitcnt := BitVec.ofNat 4 (i + 1) }

/-- `ow_wbyte(v)`: eight slots, bit 0 first (R165). -/
def owWbyte (v : Byte) (s : State) : State := owWriteBits lsbFirst { s with owShift := v, owBitcnt := 0 }

/-- The read slots of `ow_rbyte` for the given bit indices of `OW_SHIFT`. -/
def owReadBits : List Nat → State → State
  | [], s => s
  | i :: is, s =>
    let r := owRbit s
    owReadBits is { r.2 with owShift := putBit r.2.owShift i r.1, owBitcnt := BitVec.ofNat 4 (i + 1) }

/-- `ow_rbyte() -> v`: eight read slots, the first bit read is bit 0 (R166). -/
def owRbyte (s : State) : Byte × State :=
  let t := owReadBits lsbFirst { s with owShift := 0, owBitcnt := 0 }
  (t.owShift, t)

/-! ### The commands of 40_ow_reset.md and 41_ow_bit_byte.md -/

/-- `OW.RESET` (R143). -/
def execOwReset (s : State) : Host.Outcome State Fault Refusal :=
  let r := owReset (accept s)
  .next (if r.1 then raise .noPresence (bit64 r.1) r.2 else ret (bit64 r.1) r.2)

/-- `OW.WBIT b` (R163). -/
def execOwWbit (b : Bool) (s : State) : Host.Outcome State Fault Refusal :=
  .next (ret 0 (owWbit b (accept s)))

/-- `OW.RBIT` (R164). -/
def execOwRbit (s : State) : Host.Outcome State Fault Refusal :=
  let r := owRbit (accept s)
  .next (ret (bit64 r.1) r.2)

/-- `OW.WBYTE v` (R167). -/
def execOwWbyte (v : Byte) (s : State) : Host.Outcome State Fault Refusal :=
  .next (ret 0 (owWbyte v (accept s)))

/-- `OW.RBYTE` (R168). -/
def execOwRbyte (s : State) : Host.Outcome State Fault Refusal :=
  let r := owRbyte (accept s)
  .next (ret (zext64 r.1) r.2)

/-! ### Transactions (42_ow_transactions.md) -/

/-- `OW.SETRES res` (R191): `OW_RES` is written only when a device is present. -/
def execOwSetres (res : BitVec 2) (s : State) : Host.Outcome State Fault Refusal :=
  let r := owReset (accept s)
  .next
    (if r.1 then raise .noPresence 1 r.2
     else
      let t := owWbyte Config.owSkipRom r.2
      let t := owWbyte Config.owWriteScratchpad t
      let t := owWbyte t.par.owAlarm0 t
      let t := owWbyte t.par.owAlarm1 t
      let t := owWbyte (owConfigByte res) t
      ret 0 { t with owRes := some res })

/-- `OW.CONVERT` after `ow_convert` returned `st` (R194); `st` is one of `OK`, `NO_PRESENCE`, `POLL_TIMEOUT` (R193), and no
other status reaches the last four arms. -/
def owConvertEnd (st : Status) (s : State) : State :=
  match st with
  | .noPresence => raise .noPresence 1 s
  | .pollTimeout => raise .pollTimeout 0 s
  | .ok => ret 0 s
  | .noAck => ret 0 s
  | .waitTimeout => ret 0 s
  | .checksum => ret 0 s
  | .illegal => ret 0 s

/-- `OW.RAWTEMP` after `ow_convert` returned `st` (R197): the sentinel on failure; else the second reset, the two command
bytes, and the two scratchpad bytes, low byte first. -/
def owRawtempEnd (st : Status) (s : State) : State :=
  if st ≠ .ok then raise st (zext64 s.par.owInvalidTemperature) s
  else
    let r := owReset s
    if r.1 then raise .noPresence (zext64 r.2.par.owInvalidTemperature) r.2
    else
      let t := owWbyte Config.owReadScratchpad (owWbyte Config.owSkipRom r.2)
      let lo := owRbyte t
      let hi := owRbyte lo.2
      ret (zext64 (word16 hi.1 lo.1)) hi.2

/-- What follows `ow_convert` in each command that contains it; R200: `OW.GETTEMP` is `OW.RAWTEMP` with the name
changed. -/
def afterConvert (u : ConvUser) (st : Status) (s : State) : State :=
  match u with
  | .convert => owConvertEnd st s
  | .rawtemp => owRawtempEnd st s
  | .gettemp => owRawtempEnd st s

/-- The conversion poll of `ow_convert` and what follows it (R193): one read slot a poll, exit on 1; unbounded and not yet
answered, the command waits there with `BUSY` = 1 (R401; log 3). -/
def owConvertPoll (u : ConvUser) (s : State) : State :=
  let r := poll owRbit s.par.owConvPollLimit s
  match r.1 with
  | .done => afterConvert u .ok r.2
  | .limit => afterConvert u .pollTimeout r.2
  | .waiting => { r.2 with seq := .convPoll u }

/-- `ow_convert()` and what follows it (R193): it begins with a reset (90_conflicts.md C1). -/
def owConvert (u : ConvUser) (s : State) : State :=
  let r := owReset s
  if r.1 then afterConvert u .noPresence r.2
  else owConvertPoll u (owWbyte Config.owConvert (owWbyte Config.owSkipRom r.2))

/-- `OW.CONVERT` (R194). -/
def execOwConvert (s : State) : Host.Outcome State Fault Refusal := .next (owConvert .convert (accept s))

/-- `OW.RAWTEMP` (R197). -/
def execOwRawtemp (s : State) : Host.Outcome State Fault Refusal := .next (owConvert .rawtemp (accept s))

/-- `OW.GETTEMP` (R200). -/
def execOwGettemp (s : State) : Host.Outcome State Fault Refusal := .next (owConvert .gettemp (accept s))

/-- Read the ROM bytes of the given indices into `d` (R202). -/
def owReadRomBytes : List Nat → BitVec 64 → State → BitVec 64 × State
  | [], d, s => (d, s)
  | k :: ks, d, s =>
    let r := owRbyte s
    owReadRomBytes ks (packByte d k r.1) r.2

/-- `OW.READROM` (R202). -/
def execOwReadrom (s : State) : Host.Outcome State Fault Refusal :=
  let r := owReset (accept s)
  .next
    (if r.1 then raise .noPresence 0 r.2
     else
      let d := owReadRomBytes [0, 1, 2, 3, 4, 5, 6, 7] 0 (owWbyte Config.owReadRom r.2)
      ret d.1 d.2)

end Sys2Proof.Machine
end

