-- ==== Sys2Proof/Machine/PulseWidth.lean ====
section
/-! DEFINITION. Unit PW: the per-bit procedure and the two commands of spec 45_pulsewidth.md, on line `PWD`. -/

namespace Sys2Proof.Machine

/-- One turn of a wait loop of `pw_bit` (R322): sample, leave on level `v`, else `DelayUs(PW_POLL_US)`. -/
def pwWaitTurn (v : Bool) (s : State) : Bool × State :=
  let r := sample .pwd s
  if r.1 = v then (true, r.2) else (false, perform (.delayUs s.par.pwPollUs) r.2)

/-- The end of `pw_bit` (R322) and its bit shifted in (R323): decode delay, sample, `PW_FRAME`, `PW_BITCNT`. -/
def pwDecodeBit (s : State) : State :=
  let r := sample .pwd (perform (.delayUs s.par.pwTDecodeUs) s)
  { r.2 with pwFrame := shiftIn r.2.pwFrame r.1, pwBitcnt := r.2.pwBitcnt + 1 }

/-- `pw_bit` from its second loop on, "waiting while the line is high" (R322). -/
def pwHighPhase (s : State) : Poll × State :=
  let r := poll (pwWaitTurn false) s.par.pwPollLimit s
  match r.1 with
  | .done => (.done, pwDecodeBit r.2)
  | .limit => (.limit, r.2)
  | .waiting => (.waiting, { r.2 with seq := .pwHigh })

/-- `pw_bit()` (R322): waiting while the line is low, then from the second loop on. -/
def pwBit (s : State) : Poll × State :=
  let r := poll (pwWaitTurn true) s.par.pwPollLimit s
  match r.1 with
  | .done => pwHighPhase r.2
  | .limit => (.limit, r.2)
  | .waiting => (.waiting, { r.2 with seq := .pwLow })

/-- The next `n` bits of a frame, up to a bit that does not end (R323). -/
def pwBits : Nat → State → Poll × State
  | 0, s => (.done, s)
  | n + 1, s =>
    let r := pwBit s
    match r.1 with
    | .done => pwBits n r.2
    | .limit => r
    | .waiting => r

/-- `PW_TEMP ++ PW_HUM` as response data (R323, R327). -/
def pwCached (s : State) : BitVec 64 := zext64 (word32 s.pwTemp s.pwHum)

/-- The checksum test on a complete frame (R323): both readings stored together, or `CHECKSUM` with the old ones. -/
def pwCheck (s : State) : State :=
  if checksumOk s.pwFrame then
    let t :=
      { s with
        pwHum := word16 (frameByte s.pwFrame 0) (frameByte s.pwFrame 1)
        pwTemp := word16 (frameByte s.pwFrame 2) (frameByte s.pwFrame 3) }
    ret (pwCached t) t
  else raise .checksum (pwCached s) s

/-- The end of `PW.SAMPLE` after its bits (R323): on a limit `POLL_TIMEOUT` with the cached values; unbounded and not yet
answered, the command waits with `BUSY` = 1 (R401; log 3). -/
def pwFinish (r : Poll × State) : State :=
  match r.1 with
  | .done => pwCheck r.2
  | .limit => raise .pollTimeout (pwCached r.2) r.2
  | .waiting => r.2

/-- The start sequence of `PW.SAMPLE` (R323, R324). -/
def pwStartOps (p : Params) : List MicroOp :=
  [.drive .pwd false, .delayMs Config.pwTStartMs, .drive .pwd true, .delayUs p.pwTRel1Us, .delayUs p.pwTRel2Us,
    .release .pwd]

/-- `PW.SAMPLE` (R323). -/
def pwSample (s : State) : State :=
  pwFinish (pwBits Config.pwNbits { performAll (pwStartOps s.par) s with pwFrame := 0, pwBitcnt := 0 })

/-- The bits still to come after the one a waiting command was in (R323). -/
def pwRest (r : Poll × State) : Poll × State :=
  match r.1 with
  | .done => pwBits (Config.pwNbits - r.2.pwBitcnt.toNat) r.2
  | .limit => r
  | .waiting => r

/-- `PW.SAMPLE` taken up again in the first loop of its current bit. -/
def pwResumeLow (s : State) : State := pwFinish (pwRest (pwBit s))

/-- `PW.SAMPLE` taken up again in the second loop of its current bit. -/
def pwResumeHigh (s : State) : State := pwFinish (pwRest (pwHighPhase s))

/-- `PW.SAMPLE` (R323). -/
def execPwSample (s : State) : Host.Outcome State Fault Refusal := .next (pwSample (accept s))

/-- `PW.GET` (R327). -/
def execPwGet (s : State) : Host.Outcome State Fault Refusal := .next (ret (pwCached s) (accept s))

end Sys2Proof.Machine
end

