-- ==== Sys2Proof/Machine/SoftI2c.lean ====
section
/-! DEFINITION. Unit I2C: the procedures and the seven commands of spec 43_i2c_seq.md, on lines `SDA` and `SCL`. `T` is
`I2C_HALF_US`, constant within a command (10_state.md R32; log 14). -/

namespace Sys2Proof.Machine

/-- `DelayUs(T)` (R231). -/
def halfDelay (s : State) : MicroOp := .delayUs s.i2cHalfUs.toNat

/-- The micro-operations of `i2c_start` (R232), `T` the half-cycle delay. -/
def i2cStartOps (t : Nat) : List MicroOp :=
  [.drive .sda true, .delayUs t, .drive .scl true, .delayUs t, .drive .sda false, .delayUs t, .drive .scl false, .delayUs t]

/-- `i2c_start()` (R232). -/
def i2cStart (s : State) : State := performAll (i2cStartOps s.i2cHalfUs.toNat) s

/-- The micro-operations of `i2c_stop` (R233). -/
def i2cStopOps (t : Nat) : List MicroOp :=
  [.drive .sda false, .delayUs t, .drive .scl true, .delayUs t, .drive .sda true, .delayUs t]

/-- `i2c_stop()` (R233). -/
def i2cStop (s : State) : State := performAll (i2cStopOps s.i2cHalfUs.toNat) s

/-- One data bit put on `SDA` and clocked (R234). -/
def i2cBitOut (t : Nat) (b : Bool) : List MicroOp :=
  [.drive .sda b, .delayUs t, .drive .scl true, .delayUs t, .drive .scl false]

/-- The data bits of `i2c_write` for the given bit indices of `I2C_SHIFT`; `I2C_BITCNT` counts them. -/
def i2cWriteBits : List Nat → State → State
  | [], s => s
  | i :: is, s =>
    i2cWriteBits is
      { performAll (i2cBitOut s.i2cHalfUs.toNat (s.i2cShift.getLsbD i)) s with i2cBitcnt := BitVec.ofNat 4 (8 - i) }

/-- `i2c_write(v) -> ack` (R234): eight bits, most significant first, then the ninth clock; acknowledged when the sample
is 0. -/
def i2cWrite (v : Byte) (s : State) : Bool × State :=
  let t := i2cWriteBits msbFirst { s with i2cShift := v, i2cBitcnt := 0 }
  let r := sample .sda (performAll [.release .sda, halfDelay t, .drive .scl true, halfDelay t] t)
  (!r.1, { perform (.drive .scl false) r.2 with i2cBitcnt := 9 })

/-- The data bits of `i2c_read` for the given bit indices of `I2C_SHIFT`. -/
def i2cReadBits : List Nat → State → State
  | [], s => s
  | i :: is, s =>
    let r := sample .sda (performAll [halfDelay s, .drive .scl true, halfDelay s] s)
    let t := perform (.drive .scl false) r.2
    i2cReadBits is { t with i2cShift := putBit t.i2cShift i r.1, i2cBitcnt := BitVec.ofNat 4 (8 - i) }

/-- The ninth clock of `i2c_read(a)`: the block answers, `SDA` low to acknowledge (R235). -/
def i2cAckOut (t : Nat) (a : Bool) : List MicroOp :=
  [.drive .sda (!a), .delayUs t, .drive .scl true, .delayUs t, .drive .scl false, .release .sda]

/-- `i2c_read(a) -> v` (R235): eight bits, most significant first, then the acknowledge. -/
def i2cRead (a : Bool) (s : State) : Byte × State :=
  let t := i2cReadBits msbFirst (perform (.release .sda) { s with i2cShift := 0, i2cBitcnt := 0 })
  (t.i2cShift, { performAll (i2cAckOut t.i2cHalfUs.toNat a) t with i2cBitcnt := 9 })

/-- One poll of `i2c_wait` (R236): it succeeds on 0; `DelayMs(1)` after a failed one. -/
def i2cWaitPoll (s : State) : Bool × State :=
  let r := sample .sda { s with i2cWaitcnt := s.i2cWaitcnt + 1 }
  if r.1 then (false, perform (.delayMs Config.i2cWaitTickMs) r.2) else (true, r.2)

/-- `i2c_wait() -> acked` (R236): at most 500 polls. -/
def i2cWait (s : State) : Bool × State :=
  pollTimes i2cWaitPoll Config.i2cWaitLimit (perform (.release .sda) { s with i2cWaitcnt := 0 })

/-- `n` clock pulses of `i2c_reset` (R237). -/
def i2cPulses (t : Nat) : Nat → List MicroOp
  | 0 => []
  | n + 1 => [.drive .scl true, .delayUs t, .drive .scl false, .delayUs t] ++ i2cPulses t n

/-- The micro-operations of `i2c_reset` (R237): nine pulses with `SDA` released, then a fresh start condition. -/
def i2cResetOps (t : Nat) : List MicroOp :=
  [.release .sda, .drive .scl false, .delayUs t] ++ i2cPulses t Config.i2cResetPulses ++ i2cStartOps t

/-- `i2c_reset()` (R237). -/
def i2cReset (s : State) : State := performAll (i2cResetOps s.i2cHalfUs.toNat) s

/-! ### The commands (43_i2c_seq.md, section 3) -/

/-- `I2C.START` (R241). -/
def execI2cStart (s : State) : Host.Outcome State Fault Refusal := .next (ret 0 (i2cStart (accept s)))

/-- `I2C.STOP` (R242). -/
def execI2cStop (s : State) : Host.Outcome State Fault Refusal := .next (ret 0 (i2cStop (accept s)))

/-- `I2C.WRITE v` (R243). -/
def execI2cWrite (v : Byte) (s : State) : Host.Outcome State Fault Refusal :=
  let r := i2cWrite v (accept s)
  .next (if r.1 then ret 1 r.2 else raise .noAck 0 r.2)

/-- `I2C.READ a` (R244). -/
def execI2cRead (a : Bool) (s : State) : Host.Outcome State Fault Refusal :=
  let r := i2cRead a (accept s)
  .next (ret (zext64 r.1) r.2)

/-- `I2C.WAIT` (R245). -/
def execI2cWait (s : State) : Host.Outcome State Fault Refusal :=
  let r := i2cWait (accept s)
  .next (if r.1 then ret 1 r.2 else raise .waitTimeout 0 r.2)

/-- `I2C.RESET` (R246). -/
def execI2cReset (s : State) : Host.Outcome State Fault Refusal := .next (ret 0 (i2cReset (accept s)))

/-- `I2C.SETFREQ hz` (R240): refused by value when `hz = 0`. -/
def execI2cSetfreq (hz : BitVec 24) (s : State) : Host.Outcome State Fault Refusal :=
  .next
    (if hz = 0 then raise .illegal 0 (accept s)
     else ret 0 { accept s with i2cHalfUs := halfCycle hz })

end Sys2Proof.Machine
end

