-- ==== Sys2Proof/Machine/RegSensor.lean ====
section
/-! DEFINITION. Unit RS: the busy guard, the transactions and the ten commands of spec 44_regsensor.md, built on the
procedures of 43_i2c_seq.md. -/

namespace Sys2Proof.Machine

/-! ### Transactions -/

/-- The start condition and the command byte, "the first byte after a start condition" (30_encoding.md R122): the head of
every transaction. -/
def rsCommand (cmd : Byte) (s : State) : Bool × State := i2cWrite cmd (i2cStart s)

/-- A measurement read of `rs_read` (R273): command, wait, high byte acknowledged, low byte not, stop on every path; the
reading is stored by `store` only on success. -/
def rsReadMeasurement (cmd : Byte) (store : BitVec 16 → State → State) (s : State) : Status × State :=
  let w := rsCommand cmd s
  if w.1 then
    let k := i2cWait w.2
    if k.1 then
      let hi := i2cRead true k.2
      let lo := i2cRead false hi.2
      (.ok, i2cStop (store (word16 hi.1 lo.1) lo.2))
    else (.waitTimeout, i2cStop k.2)
  else (.noAck, i2cStop w.2)

/-- `rs_read(0x03)` (R273). -/
def rsReadTemp (s : State) : Status × State :=
  rsReadMeasurement Config.rsReadTemperature (fun v t => { t with rsRawTemp := v }) s

/-- `rs_read(0x05)` (R273). -/
def rsReadHum (s : State) : Status × State :=
  rsReadMeasurement Config.rsReadHumidity (fun v t => { t with rsRawHum := v }) s

/-- `rs_read(0x07)` (R273): no wait step, one byte, not acknowledged. -/
def rsReadStatus (s : State) : Status × State :=
  let w := rsCommand Config.rsReadRegister s
  if w.1 then
    let d := i2cRead false w.2
    (.ok, i2cStop { d.2 with rsStatus := d.1 })
  else (.noAck, i2cStop w.2)

/-- `rs_writereg()` (R276): the writable flags of the cache are sent; stop on every path. -/
def rsWritereg (s : State) : Status × State :=
  let w := rsCommand Config.rsWriteRegister s
  if w.1 then
    let f := i2cWrite (sentFlags w.2.rsStatus) w.2
    (if f.1 then .ok else .noAck, i2cStop f.2)
  else (.noAck, i2cStop w.2)

/-! ### The busy guard (R272) -/

/-- The spin of `rs_acquire` (R272): the body tests the flag, performs nothing. -/
def rsAcquire (s : State) : Poll × State := poll (fun t => (t.rsReady, t)) s.par.rsSpinLimit s

/-- `rs_release()` (R272). -/
def rsRelease (s : State) : State := { s with rsReady := true }

/-! ### The bodies of the guarded commands, between `rs_acquire` and the response -/

/-- `RS.UPDATE` (R278): temperature first, humidity only if the temperature was read. -/
def rsUpdateBody (s : State) : State :=
  let a := rsReadTemp s
  let r := if a.1 = .ok then rsReadHum a.2 else a
  let t := rsRelease r.2
  respond r.1 (zext64 (word32 t.rsRawHum t.rsRawTemp)) t

/-- `RS.RESET` (R279): the cache is cleared and the delay waited whether or not the device acknowledged. -/
def rsResetBody (s : State) : State :=
  let w := rsCommand Config.rsResetDevice s
  let t := { i2cStop w.2 with rsStatus := 0, rsRawTemp := 0, rsRawHum := 0 }
  let t := rsRelease (perform (.delayMs t.par.rsTPowerupMs) t)
  if w.1 then ret 0 t else raise .noAck 0 t

/-- `RS.CHKBAT` (R280): `(RS_STATUS << 8) | RS_STATUS[6]`, after the read. -/
def rsChkbatBody (s : State) : State :=
  let r := rsReadStatus s
  let t := rsRelease r.2
  respond r.1 ((zext64 t.rsStatus <<< 8) ||| bit64 (t.rsStatus.getLsbD flagBattery)) t

/-- A set command (R277, R281): the cached flag first, then the write; no rollback. -/
def rsSetFlagBody (k : Nat) (b : Bool) (s : State) : State :=
  let r := rsWritereg { s with rsStatus := putBit s.rsStatus k b }
  let t := rsRelease r.2
  respond r.1 (zext64 t.rsStatus) t

/-- `RS.CONNRESET` (R287). -/
def rsConnresetBody (s : State) : State := ret 0 (rsRelease (i2cReset s))

/-- The body of each guarded command (R278 to R283, R287). -/
def guardedBody (g : Guarded) (s : State) : State :=
  match g with
  | .update => rsUpdateBody s
  | .reset => rsResetBody s
  | .chkbat => rsChkbatBody s
  | .setheater b => rsSetFlagBody flagHeater b s
  | .setres b => rsSetFlagBody flagRes b s
  | .setotp b => rsSetFlagBody flagOtp b s
  | .connreset => rsConnresetBody s

/-- A guarded command: `rs_acquire()` expanded at its head (R272), then its body. On the limit `POLL_TIMEOUT(0)` with the
flag unchanged; unbounded and not free, the command spins with `BUSY` = 1 (R401, R402; log 22). -/
def rsGuarded (g : Guarded) (s : State) : State :=
  let r := rsAcquire s
  match r.1 with
  | .done => guardedBody g { r.2 with rsReady := false }
  | .limit => raise .pollTimeout 0 r.2
  | .waiting => { r.2 with seq := .rsSpin g }

/-! ### The commands -/

/-- `RS.UPDATE` (R278). -/
def execRsUpdate (s : State) : Host.Outcome State Fault Refusal := .next (rsGuarded .update (accept s))

/-- `RS.RESET` (R279). -/
def execRsReset (s : State) : Host.Outcome State Fault Refusal := .next (rsGuarded .reset (accept s))

/-- `RS.CHKBAT` (R280). -/
def execRsChkbat (s : State) : Host.Outcome State Fault Refusal := .next (rsGuarded .chkbat (accept s))

/-- `RS.SETHEATER b` (R281). -/
def execRsSetheater (b : Bool) (s : State) : Host.Outcome State Fault Refusal :=
  .next (rsGuarded (.setheater b) (accept s))

/-- `RS.SETRES b` (R282). -/
def execRsSetres (b : Bool) (s : State) : Host.Outcome State Fault Refusal := .next (rsGuarded (.setres b) (accept s))

/-- `RS.SETOTP b` (R283). -/
def execRsSetotp (b : Bool) (s : State) : Host.Outcome State Fault Refusal := .next (rsGuarded (.setotp b) (accept s))

/-- `RS.CONNRESET` (R287). -/
def execRsConnreset (s : State) : Host.Outcome State Fault Refusal := .next (rsGuarded .connreset (accept s))

/-- `RS.SETSCALE b` (R284): local, unguarded. -/
def execRsSetscale (b : Bool) (s : State) : Host.Outcome State Fault Refusal :=
  .next (ret (bit64 b) { accept s with rsScale := b })

/-- `(RS_SCALE << 17) | (RS_STATUS[0] << 16)`: the selectors in the data of the two getters (R285, R286). -/
def rsSelectors (s : State) : BitVec 64 :=
  (bit64 s.rsScale <<< 17) ||| (bit64 (s.rsStatus.getLsbD flagRes) <<< 16)

/-- `RS.GETTEMP` (R285). -/
def execRsGettemp (s : State) : Host.Outcome State Fault Refusal :=
  .next (ret (rsSelectors s ||| zext64 s.rsRawTemp) (accept s))

/-- `RS.GETHUM` (R286). -/
def execRsGethum (s : State) : Host.Outcome State Fault Refusal :=
  .next (ret ((zext64 s.rsRawTemp <<< 32) ||| rsSelectors s ||| zext64 s.rsRawHum) (accept s))

end Sys2Proof.Machine
end

