-- ==== Sys2Proof/Machine/Wire.lean ====
section
/-! DEFINITION. The 18 wire constants (spec 30_encoding.md R120 to R123; rows of format WIRE8), "byte values the block puts
on a line". No host can issue one; the meaning of a row is the transmission its rule names, by the very operation the
commands send it with (log 8, log 9). No handshake and no response: it is not a command. -/

namespace Sys2Proof.Machine

/-- A 1-Wire byte put on `OWDQ`: "Each is sent with `ow_wbyte`, least significant bit first" (R120). -/
def sendOwByte (v : Byte) (s : State) : State := owWbyte v (beginWire s)

/-- A register-sensor command byte put on `SDA`: "Each is sent with `i2c_write`, most significant bit first, as the first
byte after a start condition" (R122). The acknowledge sampled steers only an enclosing command and is kept nowhere. -/
def sendRsByte (v : Byte) (s : State) : State := (rsCommand v (beginWire s)).2

/-- The flags byte of a write-register with flag `k` alone set, put on `SDA`: `i2c_write(RS_STATUS & 0x07)` (44_regsensor.md
R276); the battery flag is "sent as 0" (10_state.md R35; log 9). -/
def sendRsFlag (k : Nat) (s : State) : State := (i2cWrite (sentFlags (flagMask k)) (beginWire s)).2

/-- `OWDEV.READ_ROM` (R120). -/
def execOwdevReadRom (s : State) : Host.Outcome State Fault Refusal := .next (sendOwByte Config.owReadRom s)

/-- `OWDEV.CONVERT` (R120). -/
def execOwdevConvert (s : State) : Host.Outcome State Fault Refusal := .next (sendOwByte Config.owConvert s)

/-- `OWDEV.READ_SCRATCHPAD` (R120). -/
def execOwdevReadScratchpad (s : State) : Host.Outcome State Fault Refusal :=
  .next (sendOwByte Config.owReadScratchpad s)

/-- `OWDEV.WRITE_SCRATCHPAD` (R120). -/
def execOwdevWriteScratchpad (s : State) : Host.Outcome State Fault Refusal :=
  .next (sendOwByte Config.owWriteScratchpad s)

/-- `OWDEV.SKIP_ROM` (R120). -/
def execOwdevSkipRom (s : State) : Host.Outcome State Fault Refusal := .next (sendOwByte Config.owSkipRom s)

/-- `OWCFG.9BIT` (R121). -/
def execOwcfg9bit (s : State) : Host.Outcome State Fault Refusal := .next (sendOwByte (owConfigByte 0) s)

/-- `OWCFG.10BIT` (R121). -/
def execOwcfg10bit (s : State) : Host.Outcome State Fault Refusal := .next (sendOwByte (owConfigByte 1) s)

/-- `OWCFG.11BIT` (R121). -/
def execOwcfg11bit (s : State) : Host.Outcome State Fault Refusal := .next (sendOwByte (owConfigByte 2) s)

/-- `OWCFG.12BIT` (R121). -/
def execOwcfg12bit (s : State) : Host.Outcome State Fault Refusal := .next (sendOwByte (owConfigByte 3) s)

/-- `RSDEV.READ_TEMPERATURE` (R122). -/
def execRsdevReadTemperature (s : State) : Host.Outcome State Fault Refusal :=
  .next (sendRsByte Config.rsReadTemperature s)

/-- `RSDEV.READ_HUMIDITY` (R122). -/
def execRsdevReadHumidity (s : State) : Host.Outcome State Fault Refusal := .next (sendRsByte Config.rsReadHumidity s)

/-- `RSDEV.READ_REGISTER` (R122). -/
def execRsdevReadRegister (s : State) : Host.Outcome State Fault Refusal := .next (sendRsByte Config.rsReadRegister s)

/-- `RSDEV.WRITE_REGISTER` (R122). -/
def execRsdevWriteRegister (s : State) : Host.Outcome State Fault Refusal :=
  .next (sendRsByte Config.rsWriteRegister s)

/-- `RSDEV.RESET_DEVICE` (R122). -/
def execRsdevResetDevice (s : State) : Host.Outcome State Fault Refusal := .next (sendRsByte Config.rsResetDevice s)

/-- `RSFLAG.RESOLUTION` (R123). -/
def execRsflagResolution (s : State) : Host.Outcome State Fault Refusal := .next (sendRsFlag flagRes s)

/-- `RSFLAG.OTP_RELOAD` (R123). -/
def execRsflagOtpReload (s : State) : Host.Outcome State Fault Refusal := .next (sendRsFlag flagOtp s)

/-- `RSFLAG.HEATER` (R123). -/
def execRsflagHeater (s : State) : Host.Outcome State Fault Refusal := .next (sendRsFlag flagHeater s)

/-- `RSFLAG.BATTERY` (R123). -/
def execRsflagBattery (s : State) : Host.Outcome State Fault Refusal := .next (sendRsFlag flagBattery s)

end Sys2Proof.Machine
end

