-- ==== Sys2Proof/Machine/Dispatch.lean ====
section
/-! DEFINITION. exec: one arm per constructor of Instr, each one direct call of its meaning. -/

namespace Sys2Proof.Machine

def exec (i : Instr) (s : State) : Host.Outcome State Fault Refusal :=
  match i with
  | .owReset => Sys2Proof.Machine.execOwReset s
  | .owWbit b => Sys2Proof.Machine.execOwWbit b s
  | .owRbit => Sys2Proof.Machine.execOwRbit s
  | .owWbyte v => Sys2Proof.Machine.execOwWbyte v s
  | .owRbyte => Sys2Proof.Machine.execOwRbyte s
  | .owSetres res => Sys2Proof.Machine.execOwSetres res s
  | .owConvert => Sys2Proof.Machine.execOwConvert s
  | .owRawtemp => Sys2Proof.Machine.execOwRawtemp s
  | .owGettemp => Sys2Proof.Machine.execOwGettemp s
  | .owReadrom => Sys2Proof.Machine.execOwReadrom s
  | .i2cStart => Sys2Proof.Machine.execI2cStart s
  | .i2cStop => Sys2Proof.Machine.execI2cStop s
  | .i2cWrite v => Sys2Proof.Machine.execI2cWrite v s
  | .i2cRead a => Sys2Proof.Machine.execI2cRead a s
  | .i2cWait => Sys2Proof.Machine.execI2cWait s
  | .i2cReset => Sys2Proof.Machine.execI2cReset s
  | .i2cSetfreq hz => Sys2Proof.Machine.execI2cSetfreq hz s
  | .rsGettemp => Sys2Proof.Machine.execRsGettemp s
  | .rsGethum => Sys2Proof.Machine.execRsGethum s
  | .rsChkbat => Sys2Proof.Machine.execRsChkbat s
  | .rsSetheater b => Sys2Proof.Machine.execRsSetheater b s
  | .rsSetres b => Sys2Proof.Machine.execRsSetres b s
  | .rsSetotp b => Sys2Proof.Machine.execRsSetotp b s
  | .rsSetscale b => Sys2Proof.Machine.execRsSetscale b s
  | .rsUpdate => Sys2Proof.Machine.execRsUpdate s
  | .rsReset => Sys2Proof.Machine.execRsReset s
  | .rsConnreset => Sys2Proof.Machine.execRsConnreset s
  | .pwSample => Sys2Proof.Machine.execPwSample s
  | .pwGet => Sys2Proof.Machine.execPwGet s
  | .owdevReadRom => Sys2Proof.Machine.execOwdevReadRom s
  | .owdevConvert => Sys2Proof.Machine.execOwdevConvert s
  | .owdevReadScratchpad => Sys2Proof.Machine.execOwdevReadScratchpad s
  | .owdevWriteScratchpad => Sys2Proof.Machine.execOwdevWriteScratchpad s
  | .owdevSkipRom => Sys2Proof.Machine.execOwdevSkipRom s
  | .owcfg9bit => Sys2Proof.Machine.execOwcfg9bit s
  | .owcfg10bit => Sys2Proof.Machine.execOwcfg10bit s
  | .owcfg11bit => Sys2Proof.Machine.execOwcfg11bit s
  | .owcfg12bit => Sys2Proof.Machine.execOwcfg12bit s
  | .rsdevReadTemperature => Sys2Proof.Machine.execRsdevReadTemperature s
  | .rsdevReadHumidity => Sys2Proof.Machine.execRsdevReadHumidity s
  | .rsdevReadRegister => Sys2Proof.Machine.execRsdevReadRegister s
  | .rsdevWriteRegister => Sys2Proof.Machine.execRsdevWriteRegister s
  | .rsdevResetDevice => Sys2Proof.Machine.execRsdevResetDevice s
  | .rsflagResolution => Sys2Proof.Machine.execRsflagResolution s
  | .rsflagOtpReload => Sys2Proof.Machine.execRsflagOtpReload s
  | .rsflagHeater => Sys2Proof.Machine.execRsflagHeater s
  | .rsflagBattery => Sys2Proof.Machine.execRsflagBattery s

end Sys2Proof.Machine
end

