-- ==== Sys2Proof/Machine/Sequencer.lean ====
section
/-! DEFINITION. What `step` does around `exec`: what is fetched next, what a code that decodes to nothing gives, and how a
command that waits in an unbounded loop goes on (log 3, log 5, log 8). -/

namespace Sys2Proof.Machine

/-- What an idle block takes up next: the model's own wire port first (log 8), else the next word the host presents
(10_state.md R23); nothing when there is neither. -/
def fetch (s : State) : Option (Code × State) :=
  match s.wirePort with
  | some b => some (.wire8 b, { s with wirePort := none })
  | none =>
    match s.host with
    | w :: rest => some (.cmd32 w, { s with host := rest })
    | [] => none

/-- A code that decodes to nothing: an illegal word ends with `ILLEGAL` (30_encoding.md R105); a byte that is no wire
constant has no meaning (log 16). -/
def undecoded (c : Code) (s : State) : Host.Outcome State Fault Refusal :=
  match c with
  | .cmd32 _ => .next (illegalWord s)
  | .wire8 _ => .refused .unknownWireByte

/-- A busy block goes on with its command from where it waits: at least one more turn of the loop it is in (log 3,
log 22). -/
def resume (pos : Seq) (s : State) : Host.Outcome State Fault Refusal :=
  match pos with
  | .idle => .fault .busyWithoutPosition
  | .convPoll u => .next (owConvertPoll u s)
  | .pwLow => .next (pwResumeLow s)
  | .pwHigh => .next (pwResumeHigh s)
  | .rsSpin g => .next (rsGuarded g s)

end Sys2Proof.Machine
end

