-- ==== Sys2Proof/Machine/Step.lean ====
section
/-! DEFINITION. One step of the machine, and where a test or the host puts the instruction it runs next. -/

namespace Sys2Proof.Machine

/-- One step: `rst` before everything (70_reset_and_hazards.md R390); a busy block goes on with its command and accepts
nothing (10_state.md R23); an idle one takes up the next code, decodes it and runs it, or, with nothing presented, waits
unchanged. -/
def step (s : State) : Host.Outcome State Fault Refusal :=
  if s.rst then .next (resetBlock s)
  else if s.busy then resume s.seq s
  else
    match fetch s with
    | none => .next s
    | some (c, t) =>
      match decode c with
      | .ok i => exec i t
      | .error _ => undecoded c t

/-- `s` with the code of `nbits` bits `w` where the next step takes it up: a command word in front of the words the host
presents, a wire constant in the wire port; the block idle and `rst` released, so that the very next step runs it
(log 5, log 8). -/
def State.withFetchWord (s : State) (nbits w : Nat) : State :=
  match tableCode nbits w with
  | .cmd32 word => { s with rst := false, busy := false, seq := .idle, wirePort := none, host := word :: s.host }
  | .wire8 b => { s with rst := false, busy := false, seq := .idle, wirePort := some b }

end Sys2Proof.Machine
end

