-- ==== Sys2Proof/Machine/Assembler.lean ====
section
/-! DEFINITION. The textual form of a command (spec 30_encoding.md R111, R112): mnemonic, then, if it has an operand, one
space and the operand in decimal or as `0x` and hexadecimal digits; `#` starts a comment. Text is a list of characters
(log 17). -/

namespace Sys2Proof.Machine

/-- Why a line is no command. R111: "An operand that does not fit its field is an assembly error, not a truncation." -/
inductive AsmError where
  | unknownMnemonic
  | operandMissing
  | operandUnexpected
  | operandNotANumber
  | operandTooWide
deriving DecidableEq, Repr

/-- The operand of a row: its width in bits and the command it makes (R101). -/
inductive AsmShape where
  | plain (i : Instr)
  | operand (width : Nat) (f : Nat → Instr)

/-- The mnemonics of R103, each with the operand of R101. -/
def asmTable : List (String × AsmShape) :=
  [("OW.RESET", .plain .owReset),
   ("OW.WBIT", .operand 1 (fun n => .owWbit (n.testBit 0))),
   ("OW.RBIT", .plain .owRbit),
   ("OW.WBYTE", .operand 8 (fun n => .owWbyte (BitVec.ofNat 8 n))),
   ("OW.RBYTE", .plain .owRbyte),
   ("OW.SETRES", .operand 2 (fun n => .owSetres (BitVec.ofNat 2 n))),
   ("OW.CONVERT", .plain .owConvert),
   ("OW.RAWTEMP", .plain .owRawtemp),
   ("OW.GETTEMP", .plain .owGettemp),
   ("OW.READROM", .plain .owReadrom),
   ("I2C.START", .plain .i2cStart),
   ("I2C.STOP", .plain .i2cStop),
   ("I2C.WRITE", .operand 8 (fun n => .i2cWrite (BitVec.ofNat 8 n))),
   ("I2C.READ", .operand 1 (fun n => .i2cRead (n.testBit 0))),
   ("I2C.WAIT", .plain .i2cWait),
   ("I2C.RESET", .plain .i2cReset),
   ("I2C.SETFREQ", .operand 24 (fun n => .i2cSetfreq (BitVec.ofNat 24 n))),
   ("RS.GETTEMP", .plain .rsGettemp),
   ("RS.GETHUM", .plain .rsGethum),
   ("RS.CHKBAT", .plain .rsChkbat),
   ("RS.SETHEATER", .operand 1 (fun n => .rsSetheater (n.testBit 0))),
   ("RS.SETRES", .operand 1 (fun n => .rsSetres (n.testBit 0))),
   ("RS.SETOTP", .operand 1 (fun n => .rsSetotp (n.testBit 0))),
   ("RS.SETSCALE", .operand 1 (fun n => .rsSetscale (n.testBit 0))),
   ("RS.UPDATE", .plain .rsUpdate),
   ("RS.RESET", .plain .rsReset),
   ("RS.CONNRESET", .plain .rsConnreset),
   ("PW.SAMPLE", .plain .pwSample),
   ("PW.GET", .plain .pwGet)]

/-- The value of a digit, none if it is no digit of the base (10 or 16). -/
def digitOf (base : Nat) (c : Char) : Option Nat :=
  let n := c.toNat
  let v :=
    if 48 ≤ n ∧ n ≤ 57 then n - 48
    else if 97 ≤ n ∧ n ≤ 102 then n - 87
    else if 65 ≤ n ∧ n ≤ 70 then n - 55
    else 16
  if v < base then some v else none

/-- Read digits of a base after the value `acc`. -/
def digitsFrom (base : Nat) : Nat → List Char → Option Nat
  | acc, [] => some acc
  | acc, c :: cs =>
    match digitOf base c with
    | some d => digitsFrom base (acc * base + d) cs
    | none => none

/-- "a decimal number or ... `0x` followed by hexadecimal digits" (R111), at least one digit. -/
def numberOf : List Char → Option Nat
  | '0' :: 'x' :: c :: cs => digitsFrom 16 0 (c :: cs)
  | c :: cs => digitsFrom 10 0 (c :: cs)
  | [] => none

/-- The text before the comment, without the spaces that end it. -/
def lineText (line : List Char) : List Char :=
  ((line.takeWhile (· ≠ '#')).reverse.dropWhile (· = ' ')).reverse

/-- The text before the first space, and, if there is one, the text after it. -/
def splitSpace : List Char → List Char × Option (List Char)
  | [] => ([], none)
  | ' ' :: cs => ([], some cs)
  | c :: cs => (c :: (splitSpace cs).1, (splitSpace cs).2)

/-- A row's shape with its operand text, if any. -/
def shapeInstr : AsmShape → Option (List Char) → Except AsmError Instr
  | .plain i, none => .ok i
  | .plain _, some _ => .error .operandUnexpected
  | .operand _ _, none => .error .operandMissing
  | .operand width f, some cs =>
    match numberOf cs with
    | none => .error .operandNotANumber
    | some n => if n < 2 ^ width then .ok (f n) else .error .operandTooWide

/-- The row of a mnemonic. -/
def shapeOf (mnemonic : List Char) : List (String × AsmShape) → Option AsmShape
  | [] => none
  | (name, shape) :: rest => if name.toList = mnemonic then some shape else shapeOf mnemonic rest

/-- One line of text (R111): nothing on an empty or comment line, else its command or an assembly error. -/
def assembleLine (line : List Char) : Except AsmError (Option Instr) :=
  match lineText line with
  | [] => .ok none
  | c :: cs =>
    let parts := splitSpace (c :: cs)
    match shapeOf parts.1 asmTable with
    | none => .error .unknownMnemonic
    | some shape =>
      match shapeInstr shape parts.2 with
      | .ok i => .ok (some i)
      | .error e => .error e

end Sys2Proof.Machine
end

