-- ==== Sys2Proof/Machine/Ports.lean ====
section
/-! DEFINITION. The output ports of spec 10_state.md R29, as functions of State. -/

namespace Sys2Proof.Machine

/-- `cmd_ready`: NOT `BUSY` (R29). -/
def cmdReady (s : State) : Bool := !s.busy

/-- `rsp_valid` (R29). -/
def rspValidPort (s : State) : Bool := s.rspValid

/-- `rsp_status`, 4 bits (R29; 30_encoding.md R110). -/
def rspStatusPort (s : State) : BitVec 4 := s.rspStatus.code

/-- `rsp_data`, 64 bits (R29). -/
def rspDataPort (s : State) : BitVec 64 := s.rspData

/-- `owdq_oe`, `sda_oe`, `scl_oe`, `pwd_oe` (R29). -/
def lineOe (s : State) (l : Line) : Bool := (s.pins.get l).oe

/-- `owdq_o`, `sda_o`, `scl_o`, `pwd_o` (R29). -/
def lineOut (s : State) (l : Line) : Bool := (s.pins.get l).out

/-- The level the block drives on a line, none while it does not drive it (R25). -/
def lineDriven (s : State) (l : Line) : Option Bool := if lineOe s l then some (lineOut s l) else none

/-- `rs_ready` (R29). -/
def rsReadyPort (s : State) : Bool := s.rsReady

/-- The index of a line (R24). -/
def Line.index : Line → Nat
  | .owdq => 0
  | .sda => 1
  | .scl => 2
  | .pwd => 3

/-- The unit that owns a line (R24); SDA and SCL are unit I2C's, and RS's through it. -/
def Line.owner : Line → Unit4
  | .owdq => .ow
  | .sda => .i2c
  | .scl => .i2c
  | .pwd => .pw

end Sys2Proof.Machine
end

