-- ==== Sys2Proof/Machine/Readings.lean ====
section
/-! DEFINITION. What the host makes of the data: the fixed-point temperature (spec 42_ow_transactions.md R198, R200), the
calibrated temperature and humidity (44_regsensor.md R288 to R290), the tenths of the pulse-width sensor (45_pulsewidth.md
R326). The block has no such arithmetic (70_reset_and_hazards.md R417): these functions touch no state. -/

namespace Sys2Proof.Machine

/-- `sext_16(raw) / 16`: the 1-Wire temperature in degrees (R198, R200). -/
def owDegrees (raw : BitVec 16) : Rat := (raw.toInt : Rat) / 16

/-- `rs_temperature(raw, scale, res) = RS_D1[scale][res] + RS_D2[scale][res] * zext_16(raw)` (R288). -/
def rsTemperature {K : Type} [Ring K] (c : Calibration K) (raw : BitVec 16) (scale res : Bool) : K :=
  c.d1 scale res + c.d2 scale res * (raw.toNat : K)

/-- `lin(so, res)`, the quadratic of R289. -/
def rsLinear {K : Type} [Ring K] (c : Calibration K) (so : BitVec 16) (res : Bool) : K :=
  c.c1 res + c.c2 res * (so.toNat : K) + c.c3 res * (so.toNat : K) * (so.toNat : K)

/-- `comp(so, res)`, the linear compensation of R289. -/
def rsCompensation {K : Type} [Ring K] (c : Calibration K) (so : BitVec 16) (res : Bool) : K :=
  c.t1 res + c.t2 res * (so.toNat : K)

/-- `rs_humidity(so, raw_t, res) = (tc - 25) * comp + lin`, `tc` always in Celsius (R289: the product reading; log 10). -/
def rsHumidity {K : Type} [Ring K] (c : Calibration K) (so rawT : BitVec 16) (res : Bool) : K :=
  (rsTemperature c rawT false res - 25) * rsCompensation c so res + rsLinear c so res

/-- The temperature the data of `RS.GETTEMP` stands for, from the three fields returned (R285). -/
def rsTemperatureOf {K : Type} [Ring K] (c : Calibration K) (data : BitVec 64) : K :=
  rsTemperature c (data.extractLsb' 0 16) (data.getLsbD 17) (data.getLsbD 16)

/-- The humidity the data of `RS.GETHUM` stands for (R286). -/
def rsHumidityOf {K : Type} [Ring K] (c : Calibration K) (data : BitVec 64) : K :=
  rsHumidity c (data.extractLsb' 0 16) (data.extractLsb' 32 16) (data.getLsbD 16)

/-- A pulse-width reading in its physical unit: tenths, unsigned (R326). -/
def pwTenths (v : BitVec 16) : Rat := (v.toNat : Rat) / 10

end Sys2Proof.Machine
end

