-- ==== Sys2Proof/Safety.lean ====
section
/-! DEFINITION. The terms in which claims about the machine are made: what a trace does to pins and time, the answers a
state holds, the persistent part of a state, the invariant of a run, what counts as a legal trace. -/

namespace Sys2Proof.Machine

/-! ### Traces (spec 00_scope.md R12, R13) -/

/-- The latches after a sequence of micro-operations. -/
def pinsAfter : List MicroOp → Pins → Pins
  | [], p => p
  | op :: ops, p => pinsAfter ops (op.onPins p)

/-- The µs a sequence of micro-operations takes. -/
def usOf : List MicroOp → Nat
  | [] => 0
  | op :: ops => op.us + usOf ops

/-- `s` after a sequence of micro-operations: pins, `TIME` and trace, nothing else. -/
def after (ops : List MicroOp) (s : State) : State :=
  { s with pins := pinsAfter ops s.pins, time := s.time + usOf ops, trace := s.trace ++ ops }

/-- The line a micro-operation acts on, if any. -/
def MicroOp.line : MicroOp → Option Line
  | .drive l _ => some l
  | .release l => some l
  | .sample l _ => some l
  | .delayUs _ => none
  | .delayMs _ => none

/-- The answers recorded in a trace, in order. -/
def answersIn : List MicroOp → List Bool
  | [] => []
  | .sample _ a :: ops => a :: answersIn ops
  | .drive _ _ :: ops => answersIn ops
  | .release _ :: ops => answersIn ops
  | .delayUs _ :: ops => answersIn ops
  | .delayMs _ :: ops => answersIn ops

/-- R27: every `Sample(L)` of a trace that starts with the latches `p` comes while `OE[L] = 0`. -/
def samplesReleased : List MicroOp → Pins → Bool
  | [], _ => true
  | op :: ops, p =>
    (match op with
      | .sample l _ => !(p.get l).oe
      | .drive _ _ => true
      | .release _ => true
      | .delayUs _ => true
      | .delayMs _ => true) && samplesReleased ops (op.onPins p)

/-- Every micro-operation of a trace that acts on a line acts on one of these lines (10_state.md R24). -/
def onlyLines (ls : List Line) (ops : List MicroOp) : Bool :=
  ops.all fun op =>
    match op.line with
    | some l => ls.contains l
    | none => true

/-- The lines a unit's rows act on (10_state.md R24; unit RS acts through unit I2C). -/
def linesOf : Unit4 → List Line
  | .ow => [.owdq]
  | .i2c => [.sda, .scl]
  | .rs => [.sda, .scl]
  | .pw => [.pwd]

/-! ### The oracle's answers -/

/-- The next `n` answers the oracle gives: from the script, past its end free values (R14). -/
def answers : Nat → State → List Bool
  | 0, _ => []
  | n + 1, s => nextAnswer s :: answers n (takeAnswer s)

/-- `s` after the oracle has given `n` answers. -/
def takeAnswers : Nat → State → State
  | 0, s => s
  | n + 1, s => takeAnswers n (takeAnswer s)

/-! ### The persistent part of a state -/

/-- `s` with the seven transient registers of 10_state.md R20 erased: what "keeps its value from the end of one command to
the start of the next". Equality of settled states says nothing of the transient registers (log 7). -/
def settled (s : State) : State :=
  { s with owShift := 0, owBitcnt := 0, i2cShift := 0, i2cBitcnt := 0, i2cWaitcnt := 0, pwFrame := 0, pwBitcnt := 0 }

/-! ### The invariant of a run -/

/-- What the position of a waiting command implies: its loop is one without limit (R17), and a frame is not complete. -/
def Seq.fits (pos : Seq) (s : State) : Bool :=
  match pos with
  | .idle => true
  | .convPoll _ => s.par.owConvPollLimit == none
  | .pwLow => s.par.pwPollLimit == none && decide (s.pwBitcnt.toNat < 40)
  | .pwHigh => s.par.pwPollLimit == none && decide (s.pwBitcnt.toNat < 40)
  | .rsSpin _ => false

/-- The invariant: `RS_READY` is 1 whenever no command body runs (10_state.md R34); `BUSY` is 1 exactly while a command
has a position; a busy block shows no response (R23); `I2C_HALF_US` is at most 500000 (R32); the 1-Wire line is released
and never set to drive high, and the pulse-width line is released (R147, R172, R323); a position fits its state. -/
def Inv (s : State) : Bool :=
  s.rsReady && (s.busy == (s.seq != .idle)) && (!s.busy || !s.rspValid) && decide (s.i2cHalfUs.toNat ≤ 500000)
    && (s.pins.owdq == releasedLow) && !s.pins.pwd.oe && s.seq.fits s

/-! ### Runs -/

/-- A safe run of `n` steps: the machine ends neither in a fault nor in a refusal of its own. -/
def safeFor : Nat → State → Bool
  | 0, _ => true
  | n + 1, s =>
    match step s with
    | .next t => safeFor n t
    | .fault _ => false
    | .refused _ => false

end Sys2Proof.Machine
end

