-- ==== Sys2Proof/Safety/Waveforms.lean ====
section
/-! DEFINITION. The vocabulary of claims about one command: the traces the spec's pseudocode puts on the lines, written out
as sequences of their parameters and sample answers; the values of bit sequences; a state as a command leaves it. Written
from the rules named, independently of the meanings in Machine/. -/

namespace Sys2Proof.Machine

/-! ### Values of bit sequences (spec 20_memory.md R72 to R74) -/

/-- The number whose bits are given least significant first (R72). -/
def lsbValue : List Bool → Nat
  | [] => 0
  | b :: bs => b.toNat + 2 * lsbValue bs

/-- The number whose bits are given most significant first (R73, R74). -/
def msbValue : List Bool → Nat
  | [] => 0
  | b :: bs => b.toNat * 2 ^ bs.length + msbValue bs

/-! ### 1-Wire (40_ow_reset.md R142, 41_ow_bit_byte.md R161, R162, R165, R166) -/

/-- `ow_reset` with the sample answering `r`: "always these five micro-operations" (R142). -/
def waveOwReset (p : Params) (r : Bool) : List MicroOp :=
  [.drive .owdq false, .delayUs p.owTH, .release .owdq, .delayUs p.owTI, .sample .owdq r]

/-- `ow_wbit(b)`: "always four micro-operations" (R162). -/
def waveOwWrite (p : Params) (b : Bool) : List MicroOp :=
  [.drive .owdq false, .delayUs (if b then p.owTA else p.owTC), .release .owdq,
    .delayUs (if b then p.owTB else p.owTD)]

/-- `ow_rbit` with the sample answering `b`: "always these six micro-operations" (R161). -/
def waveOwRead (p : Params) (b : Bool) : List MicroOp :=
  [.drive .owdq false, .delayUs p.owTA, .release .owdq, .delayUs p.owTE, .sample .owdq b, .delayUs p.owTF]

/-- `ow_wbyte(v)`: eight slots, bit 0 first (R165). -/
def waveOwWriteByte (p : Params) (v : Byte) : List MicroOp :=
  (List.range 8).flatMap fun i => waveOwWrite p (v.getLsbD i)

/-- Read slots with the samples answering the bits given (R166). -/
def waveOwReadBits (p : Params) (bits : List Bool) : List MicroOp := bits.flatMap (waveOwRead p)

/-- Several bytes written one after the other. -/
def waveOwWriteBytes (p : Params) (vs : List Byte) : List MicroOp := vs.flatMap (waveOwWriteByte p)

/-! ### Soft-I2C (43_i2c_seq.md R232 to R237), `t` the half-cycle delay -/

/-- `i2c_start` (R232). -/
def waveStart (t : Nat) : List MicroOp :=
  [.drive .sda true, .delayUs t, .drive .scl true, .delayUs t, .drive .sda false, .delayUs t, .drive .scl false,
    .delayUs t]

/-- `i2c_stop` (R233). -/
def waveStop (t : Nat) : List MicroOp :=
  [.drive .sda false, .delayUs t, .drive .scl true, .delayUs t, .drive .sda true, .delayUs t]

/-- One data bit of `i2c_write` (R234). -/
def waveWriteBit (t : Nat) (b : Bool) : List MicroOp :=
  [.drive .sda b, .delayUs t, .drive .scl true, .delayUs t, .drive .scl false]

/-- `i2c_write(v)` with the ninth clock's sample answering `a` (R234). -/
def waveWrite (t : Nat) (v : Byte) (a : Bool) : List MicroOp :=
  ([7, 6, 5, 4, 3, 2, 1, 0].flatMap fun i => waveWriteBit t (v.getLsbD i)) ++
    [.release .sda, .delayUs t, .drive .scl true, .delayUs t, .sample .sda a, .drive .scl false]

/-- One data bit of `i2c_read` with the sample answering `b` (R235). -/
def waveReadBit (t : Nat) (b : Bool) : List MicroOp :=
  [.delayUs t, .drive .scl true, .delayUs t, .sample .sda b, .drive .scl false]

/-- `i2c_read(a)` with the samples answering the bits given, most significant first (R235). -/
def waveRead (t : Nat) (a : Bool) (bits : List Bool) : List MicroOp :=
  [.release .sda] ++ bits.flatMap (waveReadBit t) ++
    [.drive .sda (!a), .delayUs t, .drive .scl true, .delayUs t, .drive .scl false, .release .sda]

/-- `n` failed polls of `i2c_wait` (R236). -/
def waveWaitFails : Nat → List MicroOp
  | 0 => []
  | n + 1 => [.sample .sda true, .delayMs 1] ++ waveWaitFails n

/-- `i2c_wait` with `n` failed polls and then, if `acked`, a successful one (R236). -/
def waveWait (n : Nat) (acked : Bool) : List MicroOp :=
  [.release .sda] ++ waveWaitFails n ++ (if acked then [.sample .sda false] else [])

/-- `n` clock pulses (R237). -/
def wavePulses (t : Nat) : Nat → List MicroOp
  | 0 => []
  | n + 1 => [.drive .scl true, .delayUs t, .drive .scl false, .delayUs t] ++ wavePulses t n

/-- `i2c_reset`: nine pulses, then a fresh start condition (R237). -/
def waveBusReset (t : Nat) : List MicroOp :=
  [.release .sda, .drive .scl false, .delayUs t] ++ wavePulses t 9 ++ waveStart t

/-! ### Register sensor (44_regsensor.md R273, R276) -/

/-- A transaction whose command byte is not acknowledged: start, byte, stop (R273, R276). -/
def waveRefused (t : Nat) (cmd : Byte) : List MicroOp := waveStart t ++ waveWrite t cmd true ++ waveStop t

/-- A measurement read that succeeds after `n` failed polls: command, wait, high byte acknowledged, low byte not, stop
(R273). -/
def waveMeasure (t : Nat) (cmd : Byte) (n : Nat) (hi lo : List Bool) : List MicroOp :=
  waveStart t ++ waveWrite t cmd false ++ waveWait n true ++ waveRead t true hi ++ waveRead t false lo ++ waveStop t

/-- A measurement read whose wait expires (R273). -/
def waveMeasureExpired (t : Nat) (cmd : Byte) : List MicroOp :=
  waveStart t ++ waveWrite t cmd false ++ waveWait 500 false ++ waveStop t

/-- A status read (R273). -/
def waveStatusRead (t : Nat) (bits : List Bool) : List MicroOp :=
  waveStart t ++ waveWrite t 0x07 false ++ waveRead t false bits ++ waveStop t

/-- A register write whose command byte is acknowledged and whose flags byte answers `a` (R276). -/
def waveRegisterWrite (t : Nat) (flags : Byte) (a : Bool) : List MicroOp :=
  waveStart t ++ waveWrite t 0x06 false ++ waveWrite t flags a ++ waveStop t

/-! ### Pulse width (45_pulsewidth.md R322, R323) -/

/-- The start sequence of `PW.SAMPLE` (R323). -/
def wavePwStart (p : Params) : List MicroOp :=
  [.drive .pwd false, .delayMs 18, .drive .pwd true, .delayUs p.pwTRel1Us, .delayUs p.pwTRel2Us, .release .pwd]

/-- `n` failed polls of a wait loop of `pw_bit`, each sampling `level` (R322). -/
def wavePwFails (p : Params) (level : Bool) : Nat → List MicroOp
  | 0 => []
  | n + 1 => [.sample .pwd level, .delayUs p.pwPollUs] ++ wavePwFails p level n

/-- What the environment does during one bit: how many polls find the line still low, how many find it still high, and
the level at the decode sample (R322). -/
structure PwPulse where
  lows : Nat
  highs : Nat
  bit : Bool
deriving DecidableEq, Repr

/-- One `pw_bit` (R322). -/
def wavePwBit (p : Params) (u : PwPulse) : List MicroOp :=
  wavePwFails p false u.lows ++ [.sample .pwd true] ++ wavePwFails p true u.highs ++
    [.sample .pwd false, .delayUs p.pwTDecodeUs, .sample .pwd u.bit]

/-- The oracle's answers that make one such bit. -/
def PwPulse.answers (u : PwPulse) : List Bool :=
  List.replicate u.lows false ++ [true] ++ List.replicate u.highs true ++ [false, u.bit]

/-- A wait of `n` failed polls stays within a limit: the poll after them is still allowed (R17). -/
def withinLimit (limit : Option Nat) (n : Nat) : Bool :=
  match limit with
  | none => true
  | some m => decide (n < m)

/-! ### What the oracle is assumed to answer (00_scope.md R14) -/

/-- The next answers the oracle gives in `s` are these: scripted ones, and free values past the script's end. -/
def gives (s : State) (as : List Bool) : Prop := answers as.length s = as

/-! ### States as a command leaves them -/

/-- `s` when a command has ended with this response (00_scope.md R16, 10_state.md R23). -/
def answered (st : Status) (data : BitVec 64) (s : State) : State :=
  { s with busy := false, rspValid := true, rspStatus := st, rspData := data, seq := .idle }

/-- `s` when a command has run this trace, taking `n` answers of the oracle, from its beginning: nothing but pins, `TIME`,
the trace and the oracle has changed. -/
def ran (ops : List MicroOp) (n : Nat) (s : State) : State := after ops { takeAnswers n s with trace := [] }

/-- `s` when a command waits in an unbounded loop: accepted, no response (R401). -/
def waitingAt (pos : Seq) (s : State) : State := { s with busy := true, rspValid := false, seq := pos }

/-! ### Rows of the table (spec 30_encoding.md R101, R103, R110; 44_regsensor.md R271) -/

/-- The bits of `ARG` that are operand bits of the row with this `UNIT` and `OP` (R101, R103); all others must be 0. -/
def operandMask (unit op : Nat) : BitVec 24 :=
  match unit, op with
  | 0, 1 => 0x000001
  | 0, 3 => 0x0000FF
  | 0, 5 => 0x000003
  | 1, 2 => 0x0000FF
  | 1, 3 => 0x000001
  | 1, 6 => 0xFFFFFF
  | 2, 3 => 0x000001
  | 2, 4 => 0x000001
  | 2, 5 => 0x000001
  | 2, 6 => 0x000001
  | _, _ => 0x000000

/-- Which `OP` values `UNIT` has rows for: `OW` 0 to 9, `I2C` 0 to 6, `RS` 0 to 9, `PW` 0 and 1 (R103, R105). -/
def opCount (unit : Nat) : Nat :=
  match unit with
  | 0 => 10
  | 1 => 7
  | 2 => 10
  | 3 => 2
  | _ => 0

/-- The instruction of a guarded command (R271). -/
def guardedInstr : Guarded → Instr
  | .update => .rsUpdate
  | .reset => .rsReset
  | .chkbat => .rsChkbat
  | .setheater b => .rsSetheater b
  | .setres b => .rsSetres b
  | .setotp b => .rsSetotp b
  | .connreset => .rsConnreset

/-- The command that waits at a position (70_reset_and_hazards.md R401): none when no command is in execution. -/
def Seq.command : Seq → Option Instr
  | .idle => none
  | .convPoll .convert => some .owConvert
  | .convPoll .rawtemp => some .owRawtemp
  | .convPoll .gettemp => some .owGettemp
  | .pwLow => some .pwSample
  | .pwHigh => some .pwSample
  | .rsSpin g => some (guardedInstr g)

/-- The limit of the `loop[LIMIT]` in a unit's commands (60_exceptions.md R355): unit I2C has none. -/
def pollLimitOf (u : Unit4) (p : Params) : Option Nat :=
  match u with
  | .ow => p.owConvPollLimit
  | .i2c => none
  | .rs => p.rsSpinLimit
  | .pw => p.pwPollLimit

/-- The failures a command may report ("raised by", R110). -/
def failuresOf : Instr → List Status
  | .owReset | .owSetres _ | .owReadrom => [.noPresence]
  | .owConvert | .owRawtemp | .owGettemp => [.noPresence, .pollTimeout]
  | .i2cWrite _ => [.noAck]
  | .i2cWait => [.waitTimeout]
  | .i2cSetfreq _ => [.illegal]
  | .rsUpdate => [.noAck, .waitTimeout, .pollTimeout]
  | .rsReset | .rsChkbat | .rsSetheater _ | .rsSetres _ | .rsSetotp _ => [.noAck, .pollTimeout]
  | .rsConnreset => [.pollTimeout]
  | .pwSample => [.checksum, .pollTimeout]
  | .owWbit _ | .owRbit | .owWbyte _ | .owRbyte => []
  | .i2cStart | .i2cStop | .i2cRead _ | .i2cReset => []
  | .rsGettemp | .rsGethum | .rsSetscale _ | .pwGet => []
  | .owdevReadRom | .owdevConvert | .owdevReadScratchpad | .owdevWriteScratchpad | .owdevSkipRom => []
  | .owcfg9bit | .owcfg10bit | .owcfg11bit | .owcfg12bit => []
  | .rsdevReadTemperature | .rsdevReadHumidity | .rsdevReadRegister | .rsdevWriteRegister | .rsdevResetDevice => []
  | .rsflagResolution | .rsflagOtpReload | .rsflagHeater | .rsflagBattery => []

/-- R110, R355: how the command `i`, if it has ended in `t`, may have ended under the parameters `p`: `OK` or a failure the
table lists for it; `POLL_TIMEOUT` only with a finite limit of its own loop; `ILLEGAL` exactly for `I2C.SETFREQ 0`. -/
def endsAsListed (i : Instr) (p : Params) (t : State) : Prop :=
  t.busy = false →
    (t.rspStatus = .ok ∨ t.rspStatus ∈ failuresOf i) ∧
      (t.rspStatus = .pollTimeout → pollLimitOf i.unit p ≠ none) ∧ (t.rspStatus = .illegal ↔ i = .i2cSetfreq 0)

/-- R43, the "written by" column of 10_state.md R20: from `s` to `t` the command `i` has changed nothing but what it may
change; the parameters, the host's words and the wire port have stayed. -/
def onlyTouches (i : Instr) (s t : State) : Prop :=
  t.par = s.par ∧ t.host = s.host ∧ t.wirePort = s.wirePort ∧
    (i.unit ≠ .ow → t.pins.owdq = s.pins.owdq) ∧
    (i.unit = .ow ∨ i.unit = .pw → t.pins.sda = s.pins.sda ∧ t.pins.scl = s.pins.scl) ∧
    (i.unit ≠ .pw → t.pins.pwd = s.pins.pwd) ∧
    ((∀ res, i ≠ .owSetres res) → t.owRes = s.owRes) ∧
    ((∀ hz, i ≠ .i2cSetfreq hz) → t.i2cHalfUs = s.i2cHalfUs) ∧
    ((∀ g, i ≠ guardedInstr g) → t.rsReady = s.rsReady) ∧
    (i ≠ .rsChkbat → (∀ b, i ≠ .rsSetheater b ∧ i ≠ .rsSetres b ∧ i ≠ .rsSetotp b) → i ≠ .rsReset →
      t.rsStatus = s.rsStatus) ∧
    (i ≠ .rsUpdate → i ≠ .rsReset → t.rsRawTemp = s.rsRawTemp ∧ t.rsRawHum = s.rsRawHum) ∧
    ((∀ b, i ≠ .rsSetscale b) → t.rsScale = s.rsScale) ∧
    (i ≠ .pwSample → t.pwHum = s.pwHum ∧ t.pwTemp = s.pwTemp)

/-- The traces, one after the other, of commands the host issues one after the other, and the state after the last
(20_memory.md R87, 30_encoding.md R113). -/
def runTrace : List Instr → State → List MicroOp × State
  | [], s => ([], s)
  | i :: is, s =>
    match exec i s with
    | .next t => (t.trace ++ (runTrace is t).1, (runTrace is t).2)
    | .fault _ => ([], s)
    | .refused _ => ([], s)

end Sys2Proof.Machine
end

