-- ==== Sys2Proof/Certificates/Slice0/Obligations.lean ====
section
/-! DEFINITION. The statements for the provers, one `def Obligations.<Name> : Prop` each, by family: encoding, the step and
the handshake, unit OW, unit I2C, unit RS, unit PW, the wire constants, the whole machine. In every statement about a
command, `ran ops n s` is `s` with the trace `ops` performed and `n` answers of the oracle taken, and nothing else changed;
`answered st data` adds the response; equality under `settled` is equality of everything but the seven transient
registers. -/

open Sys2Proof Sys2Proof.Machine

/-! ### Encoding (spec 30_encoding.md) -/

/-- R102: "Encoding a command ... and decoding the result gives the command back", for every instruction, every operand
at every value. -/
def Obligations.DecodeOfEncode : Prop := ∀ i : Instr, decode (encode i) = .ok i

/-- R102: "decoding a legal word and encoding the result gives the word back": no two codes are one instruction, and no
bit of a legal word is dropped. -/
def Obligations.EncodeOfDecode : Prop := ∀ (c : Code) (i : Instr), decode c = .ok i → encode i = c

/-- R103: a word decodes to a row's command exactly when `w & mask = match`, and then to a command of that very row. -/
def Obligations.RowsSelectCommands : Prop :=
  (∀ (w : Word) (i : Instr), decode (.cmd32 w) = .ok i → i.isCommand = true ∧ i.row.selects (.cmd32 w) = true) ∧
    ∀ (w : Word) (i : Instr), i.isCommand = true → i.row.selects (.cmd32 w) = true →
      ∃ j, decode (.cmd32 w) = .ok j ∧ j.row = i.row

/-- R105, first sentence: which words are illegal and why; every other word is a command (R102, total). -/
def Obligations.IllegalWords : Prop :=
  ∀ w : Word,
    let unit := (w.extractLsb' 28 4).toNat
    let op := (w.extractLsb' 24 4).toNat
    let stray := w.extractLsb' 0 24 &&& ~~~operandMask unit op
    (decode (.cmd32 w) = .error .reservedUnit ↔ 4 ≤ unit) ∧
      (decode (.cmd32 w) = .error .unusedOp ↔ unit < 4 ∧ opCount unit ≤ op) ∧
      (decode (.cmd32 w) = .error .argNotZero ↔ op < opCount unit ∧ stray ≠ 0) ∧
      ((∃ i, decode (.cmd32 w) = .ok i) ↔ op < opCount unit ∧ stray = 0)

/-- R104: `OW.RESET` is the all-zero word, no command is the all-ones word, no two rows overlap. -/
def Obligations.RowsDisjoint : Prop :=
  decode (.cmd32 0x00000000) = .ok .owReset ∧
    (∀ i, decode (.cmd32 0xFFFFFFFF) ≠ .ok i) ∧
    ∀ (i j : Instr) (w : Word), i.row.selects (.cmd32 w) = true → j.row.selects (.cmd32 w) = true → i.row = j.row

/-- Words written out from R103 and bytes from R120 to R123 decode to what they stand for. -/
def Obligations.SanityWords : Prop :=
  decode (.cmd32 0x07000000) = .ok .owRawtemp ∧ decode (.cmd32 0x030000CC) = .ok (.owWbyte 0xCC) ∧
    decode (.cmd32 0x05000003) = .ok (.owSetres 3) ∧ decode (.cmd32 0x160186A0) = .ok (.i2cSetfreq 100000) ∧
    decode (.cmd32 0x13000001) = .ok (.i2cRead true) ∧ decode (.cmd32 0x23000001) = .ok (.rsSetheater true) ∧
    decode (.cmd32 0x27000000) = .ok .rsUpdate ∧ decode (.cmd32 0x30000000) = .ok .pwSample ∧
    decode (.wire8 0x4E) = .ok .owdevWriteScratchpad ∧ decode (.wire8 0x7F) = .ok .owcfg12bit ∧
    decode (.wire8 0x1E) = .ok .rsdevResetDevice ∧ decode (.wire8 0x40) = .ok .rsflagBattery

/-- R111, R101, R103: the textual form. Each mnemonic with an operand, one space and any text of a number is a line; it is
the command with that number in its field when the number fits the width R101 gives the field, and an error, not a
truncation, when it does not. Each mnemonic without operand is a line by itself, and takes none. Every number has a decimal
and a hexadecimal text, and the two are read as that number. -/
def Obligations.AssemblerLines : Prop :=
  (∀ (name : String) (width : Nat) (f : Nat → Instr) (digits : List Char) (n : Nat),
    (name, width, f) ∈ [("OW.WBIT", 1, fun n => Instr.owWbit (n.testBit 0)),
      ("OW.WBYTE", 8, fun n => .owWbyte (BitVec.ofNat 8 n)), ("OW.SETRES", 2, fun n => .owSetres (BitVec.ofNat 2 n)),
      ("I2C.WRITE", 8, fun n => .i2cWrite (BitVec.ofNat 8 n)), ("I2C.READ", 1, fun n => .i2cRead (n.testBit 0)),
      ("I2C.SETFREQ", 24, fun n => .i2cSetfreq (BitVec.ofNat 24 n)),
      ("RS.SETHEATER", 1, fun n => .rsSetheater (n.testBit 0)), ("RS.SETRES", 1, fun n => .rsSetres (n.testBit 0)),
      ("RS.SETOTP", 1, fun n => .rsSetotp (n.testBit 0)), ("RS.SETSCALE", 1, fun n => .rsSetscale (n.testBit 0))] →
    numberOf digits = some n →
    assembleLine (name.toList ++ ' ' :: digits) = if n < 2 ^ width then .ok (some (f n)) else .error .operandTooWide) ∧
  (∀ (name : String) (i : Instr) (digits : List Char) (n : Nat),
    (name, i) ∈ [("OW.RESET", Instr.owReset), ("OW.RBIT", .owRbit), ("OW.RBYTE", .owRbyte), ("OW.CONVERT", .owConvert),
      ("OW.RAWTEMP", .owRawtemp), ("OW.GETTEMP", .owGettemp), ("OW.READROM", .owReadrom), ("I2C.START", .i2cStart),
      ("I2C.STOP", .i2cStop), ("I2C.WAIT", .i2cWait), ("I2C.RESET", .i2cReset), ("RS.GETTEMP", .rsGettemp),
      ("RS.GETHUM", .rsGethum), ("RS.CHKBAT", .rsChkbat), ("RS.UPDATE", .rsUpdate), ("RS.RESET", .rsReset),
      ("RS.CONNRESET", .rsConnreset), ("PW.SAMPLE", .pwSample), ("PW.GET", .pwGet)] →
    assembleLine name.toList = .ok (some i) ∧
      (numberOf digits = some n → assembleLine (name.toList ++ ' ' :: digits) = .error .operandUnexpected)) ∧
  ∀ n : Nat, numberOf (Nat.toDigits 10 n) = some n ∧ numberOf ('0' :: 'x' :: Nat.toDigits 16 n) = some n

/-! ### The step, the handshake, reset (spec 10_state.md, 60_exceptions.md, 70_reset_and_hazards.md) -/

/-- A step of an idle block runs the decoded instruction: the next command word the host presents (R15, R23), or, in the
model's own wire port, a wire constant (log 8); with nothing presented the block waits unchanged. -/
def Obligations.StepRunsDecoded : Prop :=
  ∀ s : State, s.rst = false → s.busy = false →
    (∀ w rest i, s.wirePort = none → s.host = w :: rest → decode (.cmd32 w) = .ok i →
        step s = exec i { s with host := rest }) ∧
      (∀ b i, s.wirePort = some b → decode (.wire8 b) = .ok i → step s = exec i { s with wirePort := none }) ∧
      (s.wirePort = none → s.host = [] → step s = .next s)

/-- R356: an illegal word, and `I2C.SETFREQ 0`, end with `ILLEGAL`, code 15, data 0, and nothing else changes. -/
def Obligations.IllegalEnds : Prop :=
  Status.illegal.code = 15 ∧
    (∀ (s : State) (w : Word) (rest : List Word) (e : DecodeError), s.rst = false → s.busy = false → s.wirePort = none →
      s.host = w :: rest → decode (.cmd32 w) = .error e →
      step s = .next (answered .illegal 0 (ran [] 0 { s with host := rest }))) ∧
    ∀ s : State, ∃ t, exec (.i2cSetfreq 0) s = .next t ∧ settled t = settled (answered .illegal 0 (ran [] 0 s))

/-- R23: "A command presented while `BUSY = 1` is not accepted and has no effect; the host waits": a busy block takes
nothing from the host, and whatever the host presents, the command goes on the same. -/
def Obligations.BusyAcceptsNothing : Prop :=
  ∀ (s : State) (ws : List Word), s.rst = false → s.busy = true → s.seq ≠ .idle →
    ∃ t, step s = .next t ∧ t.host = s.host ∧ t.wirePort = s.wirePort ∧
      step { s with host := ws } = .next { t with host := ws }

/-- R23: a command ends with `RSP_VALID = 1`, `BUSY = 0`, or it waits in a poll loop with `BUSY = 1`, `RSP_VALID = 0` and
the last response still in the registers; the same of a step that takes a waiting command on. A wire constant (log 8)
leaves all four alone. -/
def Obligations.Handshake : Prop :=
  (∀ (i : Instr) (s : State), ∃ t, exec i s = .next t ∧
    (i.isCommand = true →
      (t.busy = false ∧ t.rspValid = true ∧ t.seq = .idle) ∨
        (t.busy = true ∧ t.rspValid = false ∧ t.seq ≠ .idle ∧ t.rspStatus = s.rspStatus ∧ t.rspData = s.rspData)) ∧
    (i.isCommand = false →
      t.busy = s.busy ∧ t.rspValid = s.rspValid ∧ t.seq = s.seq ∧ t.rspStatus = s.rspStatus ∧ t.rspData = s.rspData)) ∧
  ∀ s : State, s.rst = false → s.busy = true → s.seq ≠ .idle → s.rspValid = false → ∃ t, step s = .next t ∧
    ((t.busy = false ∧ t.rspValid = true ∧ t.seq = .idle) ∨
      (t.busy = true ∧ t.rspValid = false ∧ t.seq ≠ .idle ∧ t.rspStatus = s.rspStatus ∧ t.rspData = s.rspData))

/-- R110, R355: the numbers of the status codes; each command, whether it ends at once or after a wait, reports `OK` or one
of the failures the table lists for it; `POLL_TIMEOUT` only with a finite limit of the loop it contains; `ILLEGAL` of a
command only for `I2C.SETFREQ 0`. -/
def Obligations.StatusTable : Prop :=
  Status.ok.code = 0 ∧ Status.noPresence.code = 1 ∧ Status.noAck.code = 2 ∧ Status.waitTimeout.code = 3 ∧
    Status.checksum.code = 4 ∧ Status.pollTimeout.code = 5 ∧ Status.illegal.code = 15 ∧
    (∀ (i : Instr) (s : State), i.isCommand = true → ∃ t, exec i s = .next t ∧ endsAsListed i s.par t) ∧
    ∀ (i : Instr) (s : State), s.rst = false → s.busy = true → s.seq.command = some i →
      ∃ t, step s = .next t ∧ endsAsListed i s.par t

/-- R390: while `rst` is asserted, and at power-on, every element of R20 has its reset value, whatever the block was doing;
the abandoned command gets no response, and the block is idle. That the flag is then released, that the host's words and
the trace stay, and that `rst` is seen only between steps, so that a command is cut only where it waits, are the model's
choices (log 6). (`I2C_HALF_US` is 5 with the default `I2C_HZ_RESET`; the transient registers have no reset value in R390
and none is stated here, log 7.) -/
def Obligations.RstResets : Prop :=
  (∀ s : State, s.rst = true → ∃ t, step s = .next t ∧ t.rst = false ∧ t.host = s.host ∧ t.trace = s.trace ∧ t.seq = .idle ∧
    t.busy = false ∧ t.rspValid = false ∧ t.rspStatus.code = 0 ∧ t.rspData = 0 ∧ t.time = 0 ∧
    (∀ l : Line, t.pins.get l = ⟨false, false⟩) ∧ t.owRes = none ∧
    (s.par.i2cHzReset = 100000 → t.i2cHalfUs = 5) ∧ t.rsReady = true ∧ t.rsStatus = 0 ∧ t.rsRawTemp = 0 ∧
    t.rsRawHum = 0 ∧ t.rsScale = false ∧ t.pwHum = 0 ∧ t.pwTemp = 0) ∧
  State.reset.rst = false ∧ State.reset.seq = .idle ∧
    State.reset.busy = false ∧ State.reset.rspValid = false ∧ State.reset.rspStatus.code = 0 ∧ State.reset.rspData = 0 ∧
    State.reset.time = 0 ∧ (∀ l : Line, State.reset.pins.get l = ⟨false, false⟩) ∧ State.reset.owRes = none ∧
    State.reset.i2cHalfUs = 5 ∧ State.reset.rsReady = true ∧ State.reset.rsStatus = 0 ∧ State.reset.rsRawTemp = 0 ∧
    State.reset.rsRawHum = 0 ∧ State.reset.rsScale = false ∧ State.reset.pwHum = 0 ∧ State.reset.pwTemp = 0

/-- R401: in each of the four unbounded loops, as long as the awaited level (or flag) does not come, a step leaves the
command where it is: `BUSY` stays 1 and there is no response (the form of the position is the model's, log 3). -/
def Obligations.HangStaysBusy : Prop :=
  ∀ (s : State) (m : Nat), s.rst = false → s.busy = true →
    (∀ u, s.seq = .convPoll u → s.par.owConvPollLimit = none → s.script = List.replicate (m + 1) false →
        step s = .next { after (waveOwReadBits s.par (List.replicate (m + 1) false)) s with script := [] }) ∧
      (s.seq = .pwLow → s.par.pwPollLimit = none → s.script = List.replicate (m + 1) false →
        step s = .next { after (wavePwFails s.par false (m + 1)) s with script := [] }) ∧
      (s.seq = .pwHigh → s.par.pwPollLimit = none → s.script = List.replicate (m + 1) true →
        step s = .next { after (wavePwFails s.par true (m + 1)) s with script := [] }) ∧
      ∀ g, s.seq = .rsSpin g → s.par.rsSpinLimit = none → s.rsReady = false → step s = .next s

/-- R22: "run a command as one atomic function of the oracle's answers": a command that waited because the scripted
answers ran out, and goes on when more come, ends exactly as if all the answers had been there from its start (log 3). -/
def Obligations.WaitingIsSeamless : Prop :=
  ∀ (i : Instr) (s t : State) (more : List Bool), i.isCommand = true → s.rst = false → exec i s = .next t →
    t.busy = true → t.script = [] → t.freeCount = s.freeCount → more ≠ [] →
    step { t with script := more } = exec i { s with script := s.script ++ more }

/-! ### Unit OW (spec 40_ow_reset.md, 41_ow_bit_byte.md, 42_ow_transactions.md) -/

/-- R142, R143: `OW.RESET`. -/
def Obligations.OwResetResult : Prop :=
  decode (.cmd32 0x00000000) = .ok .owReset ∧
    ∀ s : State, ∃ t, exec .owReset s = .next t ∧
      settled t = settled (answered (if nextAnswer s then .noPresence else .ok) (if nextAnswer s then 1 else 0)
        (ran (waveOwReset s.par (nextAnswer s)) 1 s)) ∧
      t.pins.owdq = ⟨false, false⟩ ∧ t.time = s.time + s.par.owTH + s.par.owTI

/-- R162, R163: `OW.WBIT b`. -/
def Obligations.OwWbitResult : Prop :=
  ∀ b : Bool, decode (.cmd32 (if b then 0x01000001 else 0x01000000)) = .ok (.owWbit b) ∧
    ∀ s : State, ∃ t, exec (.owWbit b) s = .next t ∧
      settled t = settled (answered .ok 0 (ran (waveOwWrite s.par b) 0 s)) ∧ t.pins.owdq = ⟨false, false⟩

/-- R161, R164: `OW.RBIT`. -/
def Obligations.OwRbitResult : Prop :=
  decode (.cmd32 0x02000000) = .ok .owRbit ∧
    ∀ s : State, ∃ t, exec .owRbit s = .next t ∧
      settled t = settled (answered .ok (if nextAnswer s then 1 else 0) (ran (waveOwRead s.par (nextAnswer s)) 1 s)) ∧
      t.pins.owdq = ⟨false, false⟩

/-- R165, R167: `OW.WBYTE v`, eight slots, bit 0 first. -/
def Obligations.OwWbyteResult : Prop :=
  ∀ v : Byte, decode (.cmd32 (0x03000000 ||| v.setWidth 32)) = .ok (.owWbyte v) ∧
    ∀ s : State, ∃ t, exec (.owWbyte v) s = .next t ∧
      settled t = settled (answered .ok 0 (ran (waveOwWriteByte s.par v) 0 s)) ∧ t.trace.length = 32

/-- R166, R168: `OW.RBYTE`, eight read slots, the first bit read is bit 0. -/
def Obligations.OwRbyteResult : Prop :=
  decode (.cmd32 0x04000000) = .ok .owRbyte ∧
    ∀ s : State, ∃ t, exec .owRbyte s = .next t ∧
      settled t = settled (answered .ok (BitVec.ofNat 64 (lsbValue (answers 8 s)))
        (ran (waveOwReadBits s.par (answers 8 s)) 8 s)) ∧ t.trace.length = 48

/-- R169: the loopback round trip. Whatever bits the slots of a written byte carried, reading with those answers returns
the byte. -/
def Obligations.LoopbackRoundTrip : Prop :=
  ∀ (v : Byte) (s t : State) (bits : List Bool), s.par.legal = true → exec (.owWbyte v) s = .next t → bits.length = 8 →
    t.trace = bits.flatMap (waveOwWrite s.par) → gives t bits →
    ∃ u, exec .owRbyte t = .next u ∧ u.rspStatus = .ok ∧ u.rspData = v.setWidth 64

/-- R191: `OW.SETRES res`, with and without a device. -/
def Obligations.OwSetresResult : Prop :=
  ∀ res : BitVec 2, decode (.cmd32 (0x05000000 ||| res.setWidth 32)) = .ok (.owSetres res) ∧
    ∀ s : State, ∃ t, exec (.owSetres res) s = .next t ∧
      settled t = settled
        (if nextAnswer s then answered .noPresence 1 (ran (waveOwReset s.par true) 1 s)
         else answered .ok 0
          { ran (waveOwReset s.par false ++ waveOwWriteBytes s.par
              [0xCC, 0x4E, s.par.owAlarm0, s.par.owAlarm1, (res.setWidth 8 <<< 5) ||| 0x1F]) 1 s with
            owRes := some res })

/-- R194: how `OW.CONVERT` ends: no device; a poll answered 1 after `k` polls answered 0; a finite limit of at least one
poll. (A limit of 0, and no limit with answers that are all 0, are in ConversionEdges.) -/
def Obligations.OwConvertResult : Prop :=
  decode (.cmd32 0x06000000) = .ok .owConvert ∧
    (∀ s : State, nextAnswer s = true → ∃ t, exec .owConvert s = .next t ∧
      settled t = settled (answered .noPresence 1 (ran (waveOwReset s.par true) 1 s))) ∧
    (∀ (s : State) (k : Nat) (rest : List Bool), withinLimit s.par.owConvPollLimit k = true →
      s.script = false :: (List.replicate k false ++ true :: rest) → ∃ t, exec .owConvert s = .next t ∧
      settled t = settled (answered .ok 0
        (ran (waveOwReset s.par false ++ waveOwWriteBytes s.par [0xCC, 0x44] ++
          waveOwReadBits s.par (List.replicate k false ++ [true])) (k + 2) s))) ∧
    ∀ (s : State) (n : Nat), 0 < n → s.par.owConvPollLimit = some n → gives s (false :: List.replicate n false) →
      ∃ t, exec .owConvert s = .next t ∧
      settled t = settled (answered .pollTimeout 0
        (ran (waveOwReset s.par false ++ waveOwWriteBytes s.par [0xCC, 0x44] ++
          waveOwReadBits s.par (List.replicate n false)) (n + 1) s))

/-- The two edges of the conversion poll of `OW.CONVERT` (R17, R401), both in the model's reading (log 3): a limit of 0
makes no poll and ends at once with `POLL_TIMEOUT`; without a limit, and with the answers 0 so far, the command waits,
busy, without a response, after at least one poll. -/
def Obligations.ConversionEdges : Prop :=
  (∀ s : State, s.par.owConvPollLimit = some 0 → nextAnswer s = false → ∃ t, exec .owConvert s = .next t ∧
      settled t = settled (answered .pollTimeout 0
        (ran (waveOwReset s.par false ++ waveOwWriteBytes s.par [0xCC, 0x44]) 1 s))) ∧
    ∀ (s : State) (m : Nat), s.par.owConvPollLimit = none → s.script = false :: List.replicate (m + 1) false →
      ∃ t, exec .owConvert s = .next t ∧
      settled t = settled (waitingAt (.convPoll .convert)
        (ran (waveOwReset s.par false ++ waveOwWriteBytes s.par [0xCC, 0x44] ++
          waveOwReadBits s.par (List.replicate (m + 1) false)) (m + 2) s))

/-- R197, R198, R200: `OW.RAWTEMP` and `OW.GETTEMP` when both resets find a device and the conversion ends after `k` polls:
the sixteen answers are the raw temperature, low byte first and least significant bit first, and the temperature is that
number, as two's complement, over 16. -/
def Obligations.OwTemperatureResult : Prop :=
  decode (.cmd32 0x07000000) = .ok .owRawtemp ∧ decode (.cmd32 0x08000000) = .ok .owGettemp ∧
    ∀ (i : Instr) (s : State) (k : Nat) (bits rest : List Bool), i = .owRawtemp ∨ i = .owGettemp →
      withinLimit s.par.owConvPollLimit k = true → bits.length = 16 →
      s.script = false :: (List.replicate k false ++ true :: false :: (bits ++ rest)) →
      ∃ t, exec i s = .next t ∧
      settled t = settled (answered .ok (BitVec.ofNat 64 (lsbValue bits))
        (ran (waveOwReset s.par false ++ waveOwWriteBytes s.par [0xCC, 0x44] ++
          waveOwReadBits s.par (List.replicate k false ++ [true]) ++ waveOwReset s.par false ++
          waveOwWriteBytes s.par [0xCC, 0xBE] ++ waveOwReadBits s.par bits) (k + 19) s)) ∧
      owDegrees (t.rspData.extractLsb' 0 16) =
        (if lsbValue bits < 32768 then (lsbValue bits : Rat) else (lsbValue bits : Rat) - 65536) / 16

/-- R197, R199, R200: how `OW.RAWTEMP` and `OW.GETTEMP` fail: either reset, or a finite poll limit; the data is the
sentinel and no micro-operation follows the failing step. Without a limit they wait as `OW.CONVERT` does (log 3). -/
def Obligations.OwTemperatureFails : Prop :=
  ∀ (i : Instr) (u : ConvUser), (i = .owRawtemp ∧ u = .rawtemp) ∨ (i = .owGettemp ∧ u = .gettemp) →
    (∀ s : State, nextAnswer s = true → ∃ t, exec i s = .next t ∧
      settled t = settled (answered .noPresence (s.par.owInvalidTemperature.setWidth 64)
        (ran (waveOwReset s.par true) 1 s))) ∧
    (∀ (s : State) (n : Nat), s.par.owConvPollLimit = some n → gives s (false :: List.replicate n false) →
      ∃ t, exec i s = .next t ∧
      settled t = settled (answered .pollTimeout (s.par.owInvalidTemperature.setWidth 64)
        (ran (waveOwReset s.par false ++ waveOwWriteBytes s.par [0xCC, 0x44] ++
          waveOwReadBits s.par (List.replicate n false)) (n + 1) s))) ∧
    (∀ (s : State) (k : Nat) (rest : List Bool), withinLimit s.par.owConvPollLimit k = true →
      s.script = false :: (List.replicate k false ++ true :: true :: rest) → ∃ t, exec i s = .next t ∧
      settled t = settled (answered .noPresence (s.par.owInvalidTemperature.setWidth 64)
        (ran (waveOwReset s.par false ++ waveOwWriteBytes s.par [0xCC, 0x44] ++
          waveOwReadBits s.par (List.replicate k false ++ [true]) ++ waveOwReset s.par true) (k + 3) s))) ∧
    ∀ (s : State) (m : Nat), s.par.owConvPollLimit = none → s.script = false :: List.replicate (m + 1) false →
      ∃ t, exec i s = .next t ∧
      settled t = settled (waitingAt (.convPoll u)
        (ran (waveOwReset s.par false ++ waveOwWriteBytes s.par [0xCC, 0x44] ++
          waveOwReadBits s.par (List.replicate (m + 1) false)) (m + 2) s))

/-- R202: `OW.READROM`: without a device `NO_PRESENCE`, data 0; with one, 64 read slots, the first bit read is bit 0. -/
def Obligations.OwReadromResult : Prop :=
  decode (.cmd32 0x09000000) = .ok .owReadrom ∧
    ∀ s : State, ∃ t, exec .owReadrom s = .next t ∧
      settled t = settled
        (if nextAnswer s then answered .noPresence 0 (ran (waveOwReset s.par true) 1 s)
         else answered .ok (BitVec.ofNat 64 (lsbValue (answers 64 (takeAnswer s))))
          (ran (waveOwReset s.par false ++ waveOwWriteByte s.par 0x33 ++
            waveOwReadBits s.par (answers 64 (takeAnswer s))) 65 s))

/-- R113: "a host may spell `OW.READROM` as `OW.RESET`, `OW.WBYTE 0x33`, eight `OW.RBYTE`, and the device cannot tell the
difference": the same trace, pins, time and answers taken. -/
def Obligations.ReadromSpelledOut : Prop :=
  ∀ s : State, nextAnswer s = false →
    let r := runTrace ([.owReset, .owWbyte 0x33] ++ List.replicate 8 .owRbyte) s
    ∃ t, exec .owReadrom s = .next t ∧ t.trace = r.1 ∧ t.pins = r.2.pins ∧ t.time = r.2.time ∧
      t.script = r.2.script ∧ t.freeCount = r.2.freeCount ∧ r.2.rspData = t.rspData >>> 56

/-! ### Unit I2C (spec 43_i2c_seq.md) -/

/-- R232, R233, R237, R241, R242, R246: the three commands that only put a fixed waveform on the bus. -/
def Obligations.I2cFixedSequences : Prop :=
  decode (.cmd32 0x10000000) = .ok .i2cStart ∧ decode (.cmd32 0x11000000) = .ok .i2cStop ∧
    decode (.cmd32 0x15000000) = .ok .i2cReset ∧
    ∀ s : State,
      (∃ t, exec .i2cStart s = .next t ∧
        settled t = settled (answered .ok 0 (ran (waveStart s.i2cHalfUs.toNat) 0 s)) ∧
        t.pins.sda = ⟨true, false⟩ ∧ t.pins.scl = ⟨true, false⟩ ∧ t.time = s.time + 4 * s.i2cHalfUs.toNat) ∧
      (∃ t, exec .i2cStop s = .next t ∧
        settled t = settled (answered .ok 0 (ran (waveStop s.i2cHalfUs.toNat) 0 s)) ∧
        t.pins.sda = ⟨true, true⟩ ∧ t.pins.scl = ⟨true, true⟩ ∧ t.time = s.time + 3 * s.i2cHalfUs.toNat) ∧
      (∃ t, exec .i2cReset s = .next t ∧
        settled t = settled (answered .ok 0 (ran (waveBusReset s.i2cHalfUs.toNat) 0 s)) ∧
        t.pins.sda = ⟨true, false⟩ ∧ t.pins.scl = ⟨true, false⟩ ∧ t.time = s.time + 23 * s.i2cHalfUs.toNat)

/-- R234, R243: `I2C.WRITE v`, most significant bit first; `NO_ACK` exactly when the one sample answers 1. -/
def Obligations.I2cWriteResult : Prop :=
  ∀ v : Byte, decode (.cmd32 (0x12000000 ||| v.setWidth 32)) = .ok (.i2cWrite v) ∧
    ∀ s : State, ∃ t, exec (.i2cWrite v) s = .next t ∧
      settled t = settled (answered (if nextAnswer s then .noAck else .ok) (if nextAnswer s then 0 else 1)
        (ran (waveWrite s.i2cHalfUs.toNat v (nextAnswer s)) 1 s)) ∧
      t.trace.length = 46 ∧ t.pins.scl = ⟨true, false⟩ ∧ t.pins.sda.oe = false ∧
      t.time = s.time + 18 * s.i2cHalfUs.toNat

/-- R235, R244: `I2C.READ a`, most significant bit first, `SDA` driven low on the ninth clock exactly when `a`. -/
def Obligations.I2cReadResult : Prop :=
  ∀ a : Bool, decode (.cmd32 (if a then 0x13000001 else 0x13000000)) = .ok (.i2cRead a) ∧
    ∀ s : State, ∃ t, exec (.i2cRead a) s = .next t ∧
      settled t = settled (answered .ok (BitVec.ofNat 64 (msbValue (answers 8 s)))
        (ran (waveRead s.i2cHalfUs.toNat a (answers 8 s)) 8 s)) ∧
      t.trace.length = 47 ∧ t.pins.scl = ⟨true, false⟩ ∧ t.pins.sda.oe = false ∧
      t.time = s.time + 18 * s.i2cHalfUs.toNat

/-- R236, R245: `I2C.WAIT` succeeds at the first poll that answers 0, and fails after exactly 500 that do not. -/
def Obligations.I2cWaitResult : Prop :=
  decode (.cmd32 0x14000000) = .ok .i2cWait ∧
    (∀ (s : State) (k : Nat), k < 500 → gives s (List.replicate k true ++ [false]) → ∃ t, exec .i2cWait s = .next t ∧
      settled t = settled (answered .ok 1 (ran (waveWait k true) (k + 1) s)) ∧ t.time = s.time + 1000 * k ∧
      t.pins.sda.oe = false ∧ t.pins.scl = s.pins.scl) ∧
    ∀ s : State, gives s (List.replicate 500 true) → ∃ t, exec .i2cWait s = .next t ∧
      settled t = settled (answered .waitTimeout 0 (ran (waveWait 500 false) 500 s)) ∧ t.time = s.time + 500000 ∧
      t.pins.sda.oe = false ∧ t.pins.scl = s.pins.scl

/-- R240: `I2C.SETFREQ hz`: half the period in microseconds, rounded down; 0 is refused and changes nothing. -/
def Obligations.I2cSetfreqResult : Prop :=
  ∀ hz : BitVec 24, decode (.cmd32 (0x16000000 ||| hz.setWidth 32)) = .ok (.i2cSetfreq hz) ∧
    ∀ s : State, ∃ t, exec (.i2cSetfreq hz) s = .next t ∧
      (hz = 0 → settled t = settled (answered .illegal 0 (ran [] 0 s))) ∧
      (hz ≠ 0 → settled t = settled (answered .ok 0
          { ran [] 0 s with i2cHalfUs := BitVec.ofNat 20 (500000 / hz.toNat) }) ∧
        t.i2cHalfUs.toNat = 500000 / hz.toNat)

/-! ### Unit RS (spec 44_regsensor.md) -/

/-- R285, R288: `RS.GETTEMP`: the three fields, nothing else written; the temperature they stand for, for coefficients of
any ring, so for the reals of R288; twice gives the same. -/
def Obligations.RsGettempResult : Prop :=
  decode (.cmd32 0x20000000) = .ok .rsGettemp ∧
    ∀ s : State, ∃ t, exec .rsGettemp s = .next t ∧
      settled t = settled (answered .ok (BitVec.ofNat 64
        (s.rsRawTemp.toNat + 65536 * (s.rsStatus.getLsbD 0).toNat + 131072 * s.rsScale.toNat)) (ran [] 0 s)) ∧
      (∀ (K : Type) [Ring K] (c : Calibration K), rsTemperatureOf c t.rspData =
        c.d1 s.rsScale (s.rsStatus.getLsbD 0) + c.d2 s.rsScale (s.rsStatus.getLsbD 0) * (s.rsRawTemp.toNat : K)) ∧
      exec .rsGettemp t = .next t

/-- R286, R289: `RS.GETHUM`: the four fields, nothing else written; the humidity they stand for, with the temperature always
in Celsius, for coefficients of any ring (the product reading of R289, which the spec takes from general knowledge,
log 10). -/
def Obligations.RsGethumResult : Prop :=
  decode (.cmd32 0x21000000) = .ok .rsGethum ∧
    ∀ s : State, ∃ t, exec .rsGethum s = .next t ∧
      settled t = settled (answered .ok (BitVec.ofNat 64
        (s.rsRawHum.toNat + 65536 * (s.rsStatus.getLsbD 0).toNat + 131072 * s.rsScale.toNat +
          4294967296 * s.rsRawTemp.toNat)) (ran [] 0 s)) ∧
      ∀ (K : Type) [Ring K] (c : Calibration K),
        let so : K := s.rsRawHum.toNat
        let res := s.rsStatus.getLsbD 0
        let tc := c.d1 false res + c.d2 false res * (s.rsRawTemp.toNat : K)
        rsHumidityOf c t.rspData =
          (tc - 25) * (c.t1 res + c.t2 res * so) + (c.c1 res + c.c2 res * so + c.c3 res * so * so)

/-- R284: `RS.SETSCALE b`. -/
def Obligations.RsSetscaleResult : Prop :=
  ∀ b : Bool, decode (.cmd32 (if b then 0x26000001 else 0x26000000)) = .ok (.rsSetscale b) ∧
    ∀ s : State, ∃ t, exec (.rsSetscale b) s = .next t ∧
      settled t = settled (answered .ok (if b then 1 else 0) { ran [] 0 s with rsScale := b })

/-- R278, R273: `RS.UPDATE` when both reads succeed, after `j` and `k` failed polls: each reading is two bytes, the more
significant first. -/
def Obligations.RsUpdateSucceeds : Prop :=
  decode (.cmd32 0x27000000) = .ok .rsUpdate ∧
    ∀ (s : State) (j k : Nat) (thi tlo hhi hlo : List Bool), s.rsReady = true → withinLimit s.par.rsSpinLimit 0 = true →
      j < 500 → k < 500 → thi.length = 8 → tlo.length = 8 → hhi.length = 8 → hlo.length = 8 →
      gives s (false :: (List.replicate j true ++ [false] ++ thi ++ tlo) ++
        false :: (List.replicate k true ++ [false] ++ hhi ++ hlo)) →
      let t2 := s.i2cHalfUs.toNat
      ∃ t, exec .rsUpdate s = .next t ∧
        settled t = settled (answered .ok (BitVec.ofNat 64 (msbValue (hhi ++ hlo ++ thi ++ tlo)))
          { ran (waveMeasure t2 0x03 j thi tlo ++ waveMeasure t2 0x05 k hhi hlo) (j + k + 36) s with
            rsRawTemp := BitVec.ofNat 16 (msbValue (thi ++ tlo)), rsRawHum := BitVec.ofNat 16 (msbValue (hhi ++ hlo)) })

/-- R278, R273, R352, R353: how `RS.UPDATE` fails: the first byte not acknowledged, or its wait expired (both readings
unchanged, no humidity read started); the same of the second read (the temperature new, the humidity old). -/
def Obligations.RsUpdateFails : Prop :=
  ∀ s : State, s.rsReady = true → withinLimit s.par.rsSpinLimit 0 = true →
    let t2 := s.i2cHalfUs.toNat
    let old := s.rsRawHum.toNat
    (nextAnswer s = true → ∃ t, exec .rsUpdate s = .next t ∧
      settled t = settled (answered .noAck (BitVec.ofNat 64 (65536 * old + s.rsRawTemp.toNat))
        (ran (waveRefused t2 0x03) 1 s))) ∧
    (gives s (false :: List.replicate 500 true) → ∃ t, exec .rsUpdate s = .next t ∧
      settled t = settled (answered .waitTimeout (BitVec.ofNat 64 (65536 * old + s.rsRawTemp.toNat))
        (ran (waveMeasureExpired t2 0x03) 501 s))) ∧
    ∀ (j : Nat) (thi tlo : List Bool), j < 500 → thi.length = 8 → tlo.length = 8 →
      (gives s (false :: (List.replicate j true ++ [false] ++ thi ++ tlo) ++ [true]) → ∃ t, exec .rsUpdate s = .next t ∧
        settled t = settled (answered .noAck (BitVec.ofNat 64 (65536 * old + msbValue (thi ++ tlo)))
          { ran (waveMeasure t2 0x03 j thi tlo ++ waveRefused t2 0x05) (j + 19) s with
            rsRawTemp := BitVec.ofNat 16 (msbValue (thi ++ tlo)) })) ∧
      (gives s (false :: (List.replicate j true ++ [false] ++ thi ++ tlo) ++ (false :: List.replicate 500 true)) →
        ∃ t, exec .rsUpdate s = .next t ∧
        settled t = settled (answered .waitTimeout (BitVec.ofNat 64 (65536 * old + msbValue (thi ++ tlo)))
          { ran (waveMeasure t2 0x03 j thi tlo ++ waveMeasureExpired t2 0x05) (j + 519) s with
            rsRawTemp := BitVec.ofNat 16 (msbValue (thi ++ tlo)) }))

/-- R279: `RS.RESET`: the cache is cleared and the delay waited whether or not the device acknowledged. -/
def Obligations.RsResetResult : Prop :=
  decode (.cmd32 0x28000000) = .ok .rsReset ∧
    ∀ s : State, s.rsReady = true → withinLimit s.par.rsSpinLimit 0 = true →
      let t2 := s.i2cHalfUs.toNat
      ∃ t, exec .rsReset s = .next t ∧
        settled t = settled (answered (if nextAnswer s then .noAck else .ok) 0
          { ran (waveStart t2 ++ waveWrite t2 0x1E (nextAnswer s) ++ waveStop t2 ++ [.delayMs s.par.rsTPowerupMs]) 1 s with
            rsStatus := 0, rsRawTemp := 0, rsRawHum := 0 })

/-- R280, R273: `RS.CHKBAT`: the whole status byte is loaded when the command byte is acknowledged. -/
def Obligations.RsChkbatResult : Prop :=
  decode (.cmd32 0x22000000) = .ok .rsChkbat ∧
    ∀ s : State, s.rsReady = true → withinLimit s.par.rsSpinLimit 0 = true →
      let t2 := s.i2cHalfUs.toNat
      (nextAnswer s = true → ∃ t, exec .rsChkbat s = .next t ∧
        settled t = settled (answered .noAck
          (BitVec.ofNat 64 (256 * s.rsStatus.toNat + (s.rsStatus.getLsbD 6).toNat)) (ran (waveRefused t2 0x07) 1 s))) ∧
      ∀ bits : List Bool, bits.length = 8 → gives s (false :: bits) → ∃ t, exec .rsChkbat s = .next t ∧
        settled t = settled (answered .ok (BitVec.ofNat 64 (256 * msbValue bits + msbValue bits / 64 % 2))
          { ran (waveStatusRead t2 bits) 9 s with rsStatus := BitVec.ofNat 8 (msbValue bits) })

/-- R276, R277, R281, R282, R283: the three set commands: the cached flag first, and it keeps the new value whatever the
device answers; the byte sent is the cache `& 0x07`. -/
def Obligations.RsSetFlagResult : Prop :=
  ∀ (i : Instr) (k : Nat) (b : Bool) (s : State),
    (i = .rsSetheater b ∧ k = 2) ∨ (i = .rsSetres b ∧ k = 0) ∨ (i = .rsSetotp b ∧ k = 1) →
    s.rsReady = true → withinLimit s.par.rsSpinLimit 0 = true →
    let t2 := s.i2cHalfUs.toNat
    ∃ f : Byte, (∀ n, f.getLsbD n = if n = k then b else s.rsStatus.getLsbD n) ∧
      (nextAnswer s = true → ∃ t, exec i s = .next t ∧
        settled t = settled (answered .noAck (f.setWidth 64) { ran (waveRefused t2 0x06) 1 s with rsStatus := f })) ∧
      ∀ a : Bool, gives s [false, a] → ∃ t, exec i s = .next t ∧
        settled t = settled (answered (if a then .noAck else .ok) (f.setWidth 64)
          { ran (waveRegisterWrite t2 (f &&& 0x07) a) 2 s with rsStatus := f })

/-- R287: `RS.CONNRESET`. -/
def Obligations.RsConnresetResult : Prop :=
  decode (.cmd32 0x29000000) = .ok .rsConnreset ∧
    ∀ s : State, s.rsReady = true → withinLimit s.par.rsSpinLimit 0 = true → ∃ t, exec .rsConnreset s = .next t ∧
      settled t = settled (answered .ok 0 (ran (waveBusReset s.i2cHalfUs.toNat) 0 s))

/-- R272, R402: the busy guard when the flag is not free: with a finite limit `POLL_TIMEOUT(0)`, the flag unchanged and no
bus activity; without one the command spins at its first step. -/
def Obligations.RsGuardNotFree : Prop :=
  ∀ (g : Guarded) (s : State),
    (∀ n, s.par.rsSpinLimit = some n → s.rsReady = false ∨ n = 0 → ∃ t, exec (guardedInstr g) s = .next t ∧
      settled t = settled (answered .pollTimeout 0 (ran [] 0 s))) ∧
    (s.par.rsSpinLimit = none → s.rsReady = false → ∃ t, exec (guardedInstr g) s = .next t ∧
      settled t = settled (waitingAt (.rsSpin g) (ran [] 0 s)))

/-- R291: "After every guarded command `RS_READY = 1`", and the bus is stopped, both lines driven high; after `RS.CONNRESET`
it is started instead. -/
def Obligations.RsGuardedLeavesBus : Prop :=
  ∀ (g : Guarded) (s : State), s.rsReady = true → withinLimit s.par.rsSpinLimit 0 = true →
    ∃ t, exec (guardedInstr g) s = .next t ∧ t.busy = false ∧ t.rsReady = true ∧
      (g ≠ .connreset → t.pins.sda = ⟨true, true⟩ ∧ t.pins.scl = ⟨true, true⟩) ∧
      (g = .connreset → t.pins.sda = ⟨true, false⟩ ∧ t.pins.scl = ⟨true, false⟩)

/-! ### Unit PW (spec 45_pulsewidth.md) -/

/-- R322, R323, R325: `PW.SAMPLE` on any complete frame of forty pulses of any lengths: the bits are shifted in most
significant first; both readings are stored when the checksum holds, and neither when it does not. -/
def Obligations.PwSampleFrame : Prop :=
  decode (.cmd32 0x30000000) = .ok .pwSample ∧
    ∀ (s : State) (us : List PwPulse) (rest : List Bool), us.length = 40 →
      (∀ u ∈ us, withinLimit s.par.pwPollLimit u.lows = true ∧ withinLimit s.par.pwPollLimit u.highs = true) →
      s.script = us.flatMap PwPulse.answers ++ rest →
      let byteAt := fun k => msbValue (((us.map PwPulse.bit).drop (8 * k)).take 8)
      let hum := byteAt 0 * 256 + byteAt 1
      let temp := byteAt 2 * 256 + byteAt 3
      let done := ran (wavePwStart s.par ++ us.flatMap (wavePwBit s.par)) (us.flatMap PwPulse.answers).length s
      ∃ t, exec .pwSample s = .next t ∧
        settled t = settled
          (if (byteAt 0 + byteAt 1 + byteAt 2 + byteAt 3) % 256 = byteAt 4 then
            answered .ok (BitVec.ofNat 64 (65536 * temp + hum))
              { done with pwHum := BitVec.ofNat 16 hum, pwTemp := BitVec.ofNat 16 temp }
           else answered .checksum (BitVec.ofNat 64 (65536 * s.pwTemp.toNat + s.pwHum.toNat)) done)

/-- R322, R323, R355: `PW.SAMPLE` with a finite poll limit `n`, reached in either wait loop after fewer than forty bits:
`POLL_TIMEOUT` with the cached values, which keep theirs. For `n = 0` no sample is taken at all: the model's reading of R17
against the sentence of R322 that each loop takes at least one sample (log 3). -/
def Obligations.PwSampleLimit : Prop :=
  ∀ (s : State) (n : Nat) (us : List PwPulse), s.par.pwPollLimit = some n → us.length < 40 →
    (∀ u ∈ us, u.lows < n ∧ u.highs < n) →
    let cached := BitVec.ofNat 64 (65536 * s.pwTemp.toNat + s.pwHum.toNat)
    let taken := us.flatMap PwPulse.answers
    let wave := wavePwStart s.par ++ us.flatMap (wavePwBit s.par)
    (gives s (taken ++ List.replicate n false) → ∃ t, exec .pwSample s = .next t ∧
      settled t = settled (answered .pollTimeout cached (ran (wave ++ wavePwFails s.par false n) (taken.length + n) s))) ∧
    ∀ l, l < n → gives s (taken ++ (List.replicate l false ++ [true] ++ List.replicate n true)) →
      ∃ t, exec .pwSample s = .next t ∧
      settled t = settled (answered .pollTimeout cached
        (ran (wave ++ (wavePwFails s.par false l ++ [.sample .pwd true] ++ wavePwFails s.par true n))
          (taken.length + (l + 1 + n)) s))

/-- R322, R401: `PW.SAMPLE` without a limit, when the line stays at one level in either wait loop: the command waits, busy,
without a response, with the bits so far in `PW_FRAME` and their number in `PW_BITCNT` (the form is the model's, log 3). -/
def Obligations.PwSampleWaits : Prop :=
  ∀ (s : State) (m : Nat) (us : List PwPulse), s.par.pwPollLimit = none → us.length < 40 →
    let taken := us.flatMap PwPulse.answers
    let wave := wavePwStart s.par ++ us.flatMap (wavePwBit s.par)
    (s.script = taken ++ List.replicate (m + 1) false → ∃ t, exec .pwSample s = .next t ∧
      settled t = settled (waitingAt .pwLow
        (ran (wave ++ wavePwFails s.par false (m + 1)) (taken.length + (m + 1)) s)) ∧
      t.pwBitcnt = BitVec.ofNat 6 us.length ∧ t.pwFrame = BitVec.ofNat 40 (msbValue (us.map PwPulse.bit))) ∧
    ∀ l, s.script = taken ++ (List.replicate l false ++ [true] ++ List.replicate (m + 1) true) →
      ∃ t, exec .pwSample s = .next t ∧
      settled t = settled (waitingAt .pwHigh
        (ran (wave ++ (wavePwFails s.par false l ++ [.sample .pwd true] ++ wavePwFails s.par true (m + 1)))
          (taken.length + (l + 1 + (m + 1))) s)) ∧
      t.pwBitcnt = BitVec.ofNat 6 us.length ∧ t.pwFrame = BitVec.ofNat 40 (msbValue (us.map PwPulse.bit))

/-- R327: `PW.GET`. -/
def Obligations.PwGetResult : Prop :=
  decode (.cmd32 0x31000000) = .ok .pwGet ∧
    ∀ s : State, ∃ t, exec .pwGet s = .next t ∧
      settled t = settled (answered .ok (BitVec.ofNat 64 (65536 * s.pwTemp.toNat + s.pwHum.toNat)) (ran [] 0 s))

/-! ### The wire constants (spec 30_encoding.md section 5; log 8, log 9) -/

/-- The nine 1-Wire bytes of R120 and R121, run on their own, are sent as the rules say: eight write slots, least
significant bit first. That such a row runs on its own is the model's choice (log 8). -/
def Obligations.OwBytesSent : Prop :=
  ∀ (i : Instr) (v : Byte),
    (i, v) ∈ [(Instr.owdevReadRom, 0x33), (.owdevConvert, 0x44), (.owdevReadScratchpad, 0xBE),
      (.owdevWriteScratchpad, 0x4E), (.owdevSkipRom, 0xCC), (.owcfg9bit, 0x1F), (.owcfg10bit, 0x3F),
      (.owcfg11bit, 0x5F), (.owcfg12bit, (0x7F : Byte))] →
    decode (.wire8 v) = .ok i ∧
      ∀ s : State, ∃ t, exec i s = .next t ∧ settled t = settled (ran (waveOwWriteByte s.par v) 0 s)

/-- The five register-sensor bytes of R122, run on their own, are sent as the rule says: most significant bit first, as the
first byte after a start condition. That such a row runs on its own is the model's choice (log 8). -/
def Obligations.RsBytesSent : Prop :=
  ∀ (i : Instr) (v : Byte),
    (i, v) ∈ [(Instr.rsdevReadTemperature, 0x03), (.rsdevReadHumidity, 0x05), (.rsdevReadRegister, 0x07),
      (.rsdevWriteRegister, 0x06), (.rsdevResetDevice, (0x1E : Byte))] →
    decode (.wire8 v) = .ok i ∧
      ∀ s : State, ∃ t, exec i s = .next t ∧
        settled t = settled (ran (waveStart s.i2cHalfUs.toNat ++ waveWrite s.i2cHalfUs.toNat v (nextAnswer s)) 1 s)

/-- The four flag masks of R123, run on their own, are sent as the flags byte of a register write with that flag alone set:
`RS_STATUS & 0x07` (R276), the battery flag as 0 (R35). That such a row runs on its own is the model's choice (log 8,
log 9). -/
def Obligations.RsFlagsSent : Prop :=
  ∀ (i : Instr) (v : Byte),
    (i, v) ∈ [(Instr.rsflagResolution, 0x01), (.rsflagOtpReload, 0x02), (.rsflagHeater, 0x04),
      (.rsflagBattery, (0x40 : Byte))] →
    decode (.wire8 v) = .ok i ∧
      ∀ s : State, ∃ t, exec i s = .next t ∧
        settled t = settled (ran (waveWrite s.i2cHalfUs.toNat (v &&& 0x07) (nextAnswer s)) 1 s)

/-! ### The whole machine -/

/-- Every step from a state of the invariant leads to a state of the invariant (R23, R34, R32, R147, R172, R323). -/
def Obligations.InvKept : Prop := ∀ s t : State, Inv s = true → step s = .next t → Inv t = true

/-- The reset state has the invariant. -/
def Obligations.InvAtReset : Prop := Inv State.reset = true

/-- From a state of the invariant with no byte in the model's own wire port, no run of any length ends in a fault or a
refusal: whatever words the host presents, whatever the oracle answers, every command has its effect (R102, R393); and the
parameters stay what they are (R42). -/
def Obligations.RunsAreSafe : Prop :=
  ∀ (n : Nat) (s : State), Inv s = true → s.wirePort = none →
    safeFor n s = true ∧ ∃ t, step s = .next t ∧ t.par = s.par ∧ t.wirePort = none

/-- R12, R13, R14: the trace is the whole of what a command does on the lines and of the time it takes: pins and `TIME`
after it are the effect of its micro-operations in order, and its samples are the oracle's next answers, each once. -/
def Obligations.TraceIsWhole : Prop :=
  (∀ (i : Instr) (s : State), ∃ t, exec i s = .next t ∧ t.pins = pinsAfter t.trace s.pins ∧
      t.time = s.time + usOf t.trace ∧ gives s (answersIn t.trace) ∧
      t.script = (takeAnswers (answersIn t.trace).length s).script ∧
      t.freeCount = (takeAnswers (answersIn t.trace).length s).freeCount) ∧
    ∀ s t : State, s.rst = false → s.busy = true → step s = .next t →
      ∃ ops, t.trace = s.trace ++ ops ∧ t.pins = pinsAfter ops s.pins ∧ t.time = s.time + usOf ops ∧
        gives s (answersIn ops) ∧ t.script = (takeAnswers (answersIn ops).length s).script ∧
        t.freeCount = (takeAnswers (answersIn ops).length s).freeCount

/-- R27: every `Sample` of every command comes while the block does not drive that line; also when a waiting command goes
on, from a state of the invariant. -/
def Obligations.SamplesReleased : Prop :=
  (∀ (i : Instr) (s : State), ∃ t, exec i s = .next t ∧ samplesReleased t.trace s.pins = true) ∧
    ∀ s t : State, Inv s = true → s.rst = false → s.busy = true → step s = .next t →
      ∃ ops, t.trace = s.trace ++ ops ∧ samplesReleased ops s.pins = true

/-- R24, R3: "a unit's commands perform micro-operations only on the unit's own lines" (RS on those of unit I2C); also when
a waiting command goes on. -/
def Obligations.OwnLinesOnly : Prop :=
  (∀ (i : Instr) (s : State), ∃ t, exec i s = .next t ∧ onlyLines (linesOf i.unit) t.trace = true) ∧
    ∀ (i : Instr) (s : State), s.rst = false → s.busy = true → s.seq.command = some i →
      ∃ t ops, step s = .next t ∧ t.trace = s.trace ++ ops ∧ onlyLines (linesOf i.unit) ops = true

/-- R43: what each command may change, element by element of R20; all else of the persistent state is unchanged; also when
a waiting command goes on. -/
def Obligations.StateTouched : Prop :=
  (∀ (i : Instr) (s : State), ∃ t, exec i s = .next t ∧ onlyTouches i s t) ∧
    ∀ (i : Instr) (s : State), s.rst = false → s.busy = true → s.seq.command = some i →
      ∃ t, step s = .next t ∧ onlyTouches i s t

/-- R83: "The commands that touch no line ... are idempotent". -/
def Obligations.LocalCommandsIdempotent : Prop :=
  ∀ (i : Instr) (s : State),
    i = .rsGettemp ∨ i = .rsGethum ∨ (∃ b, i = .rsSetscale b) ∨ i = .pwGet ∨ (∃ hz, i = .i2cSetfreq hz) →
    ∃ t, exec i s = .next t ∧ t.trace = [] ∧ exec i t = .next t

/-- R173, R205, R420: durations that depend on the operand or on the oracle: a written byte takes the write-1 slot for each
of its 1 bits and the write-0 slot for each other; a byte read, a ROM read. -/
def Obligations.OwDurations : Prop :=
  ∀ s : State,
    let p := s.par
    (∀ v : Byte, ∃ t, exec (.owWbyte v) s = .next t ∧
      let ones := ((List.range 8).filter fun n => v.getLsbD n).length
      t.time = s.time + (ones * (p.owTA + p.owTB) + (8 - ones) * (p.owTC + p.owTD))) ∧
    (∃ t, exec .owRbyte s = .next t ∧ t.time = s.time + 8 * (p.owTA + p.owTE + p.owTF)) ∧
    (nextAnswer s = false → ∃ t, exec .owReadrom s = .next t ∧
      t.time = s.time + (p.owTH + p.owTI) + (4 * (p.owTA + p.owTB) + 4 * (p.owTC + p.owTD)) +
        64 * (p.owTA + p.owTE + p.owTF))
end

