-- ==== Sys2Proof/Laws/Assembler.lean ====
section
/-! SUPPORT. What the assembler does with a line that is a mnemonic, one space and the text of a number (spec 30_encoding.md
R111): the text of a number holds neither a space nor the start of a comment, so the line falls into these two parts. -/

namespace Sys2Proof.Machine

theorem digitOf_some {base d : Nat} {c : Char} (hb : base ≤ 16) (h : digitOf base c = some d) : c ≠ '#' ∧ c ≠ ' ' := by
  constructor <;> rintro rfl <;> simp [digitOf] at h <;> omega

theorem digitsFrom_some {base acc n : Nat} {cs : List Char} (hb : base ≤ 16) (h : digitsFrom base acc cs = some n) :
    ∀ c ∈ cs, c ≠ '#' ∧ c ≠ ' ' := by
  induction cs generalizing acc with
  | nil => simp
  | cons c cs ih =>
    rw [digitsFrom] at h
    split at h
    · rename_i d e
      intro x hx
      rcases List.mem_cons.mp hx with rfl | hx
      · exact digitOf_some hb e
      · exact ih h x hx
    · cases h

/-- The text of a number is not empty and holds neither a space nor a `#`. -/
theorem numberOf_some {cs : List Char} {n : Nat} (h : numberOf cs = some n) : cs ≠ [] ∧ ∀ c ∈ cs, c ≠ '#' ∧ c ≠ ' ' := by
  unfold numberOf at h
  split at h
  · have rest := digitsFrom_some (by decide) h
    refine ⟨by simp, ?_⟩
    intro x hx
    simp only [List.mem_cons] at hx
    rcases hx with rfl | rfl | hx
    · decide
    · decide
    · exact rest x (by simpa using hx)
  · exact ⟨by simp, digitsFrom_some (by decide) h⟩
  · cases h

/-- A line without comment and without a space at its end is its own text. -/
theorem lineText_self {cs : List Char} (ne : cs ≠ []) (noComment : ∀ c ∈ cs, c ≠ '#') (last : cs.getLast ne ≠ ' ') :
    lineText cs = cs := by
  have whole : cs.takeWhile (· ≠ '#') = cs := by
    rw [List.takeWhile_eq_self_iff]; simpa using noComment
  have rev : cs.reverse = cs.getLast ne :: cs.dropLast.reverse := by
    conv_lhs => rw [← List.dropLast_append_getLast ne]
    simp
  unfold lineText
  rw [whole, rev, List.dropWhile_cons_of_neg (by simpa using last)]
  simp [List.dropLast_append_getLast]

theorem splitSpace_append {xs : List Char} (ys : List Char) (h : ∀ c ∈ xs, c ≠ ' ') :
    splitSpace (xs ++ ' ' :: ys) = (xs, some ys) := by
  induction xs with
  | nil => rfl
  | cons c cs ih =>
    rw [List.cons_append, splitSpace, ih fun x hx => h x (List.mem_cons_of_mem c hx)]
    exact h c (List.mem_cons_self ..)

/-- A line that is a mnemonic of the table, one space and the text of a number is what the row's shape makes of the two. -/
theorem assembleLine_operand {name digits : List Char} {n : Nat} {shape : AsmShape} (h : numberOf digits = some n)
    (ne : name ≠ []) (plain : ∀ c ∈ name, c ≠ '#' ∧ c ≠ ' ') (row : shapeOf name asmTable = some shape) :
    assembleLine (name ++ ' ' :: digits) = (shapeInstr shape (some digits)).map some := by
  obtain ⟨dne, dplain⟩ := numberOf_some h
  have text : lineText (name ++ ' ' :: digits) = name ++ ' ' :: digits := by
    refine lineText_self (by simp) ?_ ?_
    · intro c hx
      simp only [List.mem_append, List.mem_cons] at hx
      rcases hx with hx | rfl | hx
      · exact (plain c hx).1
      · decide
      · exact (dplain c hx).1
    · rw [List.getLast_append_of_ne_nil (by simp) (by simp), List.getLast_cons dne]
      exact (dplain _ (List.getLast_mem dne)).2
  obtain ⟨c, cs, rfl⟩ := List.exists_cons_of_ne_nil ne
  have parts := splitSpace_append digits fun x hx => (plain x hx).2
  unfold assembleLine
  rw [text]
  simp only [List.cons_append] at parts ⊢
  simp only [parts, row]
  cases shapeInstr shape (some digits) <;> rfl

end Sys2Proof.Machine
end

