-- ==== Sys2Proof/Laws/State.lean ====
section
/-! SUPPORT. One lemma per field per state update (micro-operation, sequence of them, oracle answer, handshake), so that
no proof unfolds a record update; the closed forms of `performAll` and `takeAnswers`. -/

namespace Sys2Proof.Machine

/-! ### `perform` -/
@[simp] theorem perform_busy (op : MicroOp) (s : State) : (perform op s).busy = s.busy := rfl
@[simp] theorem perform_rspValid (op : MicroOp) (s : State) : (perform op s).rspValid = s.rspValid := rfl
@[simp] theorem perform_rspStatus (op : MicroOp) (s : State) : (perform op s).rspStatus = s.rspStatus := rfl
@[simp] theorem perform_rspData (op : MicroOp) (s : State) : (perform op s).rspData = s.rspData := rfl
@[simp] theorem perform_time (op : MicroOp) (s : State) : (perform op s).time = s.time + op.us := rfl
@[simp] theorem perform_pins (op : MicroOp) (s : State) : (perform op s).pins = op.onPins s.pins := rfl
@[simp] theorem perform_owRes (op : MicroOp) (s : State) : (perform op s).owRes = s.owRes := rfl
@[simp] theorem perform_owShift (op : MicroOp) (s : State) : (perform op s).owShift = s.owShift := rfl
@[simp] theorem perform_owBitcnt (op : MicroOp) (s : State) : (perform op s).owBitcnt = s.owBitcnt := rfl
@[simp] theorem perform_i2cHalfUs (op : MicroOp) (s : State) : (perform op s).i2cHalfUs = s.i2cHalfUs := rfl
@[simp] theorem perform_i2cShift (op : MicroOp) (s : State) : (perform op s).i2cShift = s.i2cShift := rfl
@[simp] theorem perform_i2cBitcnt (op : MicroOp) (s : State) : (perform op s).i2cBitcnt = s.i2cBitcnt := rfl
@[simp] theorem perform_i2cWaitcnt (op : MicroOp) (s : State) : (perform op s).i2cWaitcnt = s.i2cWaitcnt := rfl
@[simp] theorem perform_rsReady (op : MicroOp) (s : State) : (perform op s).rsReady = s.rsReady := rfl
@[simp] theorem perform_rsStatus (op : MicroOp) (s : State) : (perform op s).rsStatus = s.rsStatus := rfl
@[simp] theorem perform_rsRawTemp (op : MicroOp) (s : State) : (perform op s).rsRawTemp = s.rsRawTemp := rfl
@[simp] theorem perform_rsRawHum (op : MicroOp) (s : State) : (perform op s).rsRawHum = s.rsRawHum := rfl
@[simp] theorem perform_rsScale (op : MicroOp) (s : State) : (perform op s).rsScale = s.rsScale := rfl
@[simp] theorem perform_pwHum (op : MicroOp) (s : State) : (perform op s).pwHum = s.pwHum := rfl
@[simp] theorem perform_pwTemp (op : MicroOp) (s : State) : (perform op s).pwTemp = s.pwTemp := rfl
@[simp] theorem perform_pwFrame (op : MicroOp) (s : State) : (perform op s).pwFrame = s.pwFrame := rfl
@[simp] theorem perform_pwBitcnt (op : MicroOp) (s : State) : (perform op s).pwBitcnt = s.pwBitcnt := rfl
@[simp] theorem perform_seq (op : MicroOp) (s : State) : (perform op s).seq = s.seq := rfl
@[simp] theorem perform_trace (op : MicroOp) (s : State) : (perform op s).trace = s.trace ++ [op] := rfl
@[simp] theorem perform_script (op : MicroOp) (s : State) : (perform op s).script = s.script := rfl
@[simp] theorem perform_freeCount (op : MicroOp) (s : State) : (perform op s).freeCount = s.freeCount := rfl
@[simp] theorem perform_host (op : MicroOp) (s : State) : (perform op s).host = s.host := rfl
@[simp] theorem perform_wirePort (op : MicroOp) (s : State) : (perform op s).wirePort = s.wirePort := rfl
@[simp] theorem perform_rst (op : MicroOp) (s : State) : (perform op s).rst = s.rst := rfl
@[simp] theorem perform_par (op : MicroOp) (s : State) : (perform op s).par = s.par := rfl

/-! ### `performAll` -/

/-- A sequence of micro-operations changes the latches, `TIME` and the trace, and nothing else. -/
theorem performAll_eq (ops : List MicroOp) (s : State) : performAll ops s = after ops s := by
  induction ops generalizing s with
  | nil => simp [performAll, after, pinsAfter, usOf]
  | cons op ops ih => simp [performAll, ih, after, pinsAfter, usOf, perform, Nat.add_assoc]

theorem pinsAfter_append (xs ys : List MicroOp) (p : Pins) :
    pinsAfter (xs ++ ys) p = pinsAfter ys (pinsAfter xs p) := by
  induction xs generalizing p with
  | nil => rfl
  | cons x xs ih => simp [pinsAfter, ih]

theorem usOf_append (xs ys : List MicroOp) : usOf (xs ++ ys) = usOf xs + usOf ys := by
  induction xs with
  | nil => simp [usOf]
  | cons x xs ih => simp [usOf, ih, Nat.add_assoc]

/-- Two sequences one after the other are their concatenation. -/
theorem after_after (xs ys : List MicroOp) (s : State) : after ys (after xs s) = after (xs ++ ys) s := by
  simp [after, pinsAfter_append, usOf_append, Nat.add_assoc]

theorem after_nil (s : State) : after [] s = s := by simp [after, pinsAfter, usOf]

theorem perform_eq_after (op : MicroOp) (s : State) : perform op s = after [op] s := by
  simp [perform, after, pinsAfter, usOf]
@[simp] theorem after_busy (ops : List MicroOp) (s : State) : (after ops s).busy = s.busy := rfl
@[simp] theorem after_rspValid (ops : List MicroOp) (s : State) : (after ops s).rspValid = s.rspValid := rfl
@[simp] theorem after_rspStatus (ops : List MicroOp) (s : State) : (after ops s).rspStatus = s.rspStatus := rfl
@[simp] theorem after_rspData (ops : List MicroOp) (s : State) : (after ops s).rspData = s.rspData := rfl
@[simp] theorem after_time (ops : List MicroOp) (s : State) : (after ops s).time = s.time + usOf ops := rfl
@[simp] theorem after_pins (ops : List MicroOp) (s : State) : (after ops s).pins = pinsAfter ops s.pins := rfl
@[simp] theorem after_owRes (ops : List MicroOp) (s : State) : (after ops s).owRes = s.owRes := rfl
@[simp] theorem after_owShift (ops : List MicroOp) (s : State) : (after ops s).owShift = s.owShift := rfl
@[simp] theorem after_owBitcnt (ops : List MicroOp) (s : State) : (after ops s).owBitcnt = s.owBitcnt := rfl
@[simp] theorem after_i2cHalfUs (ops : List MicroOp) (s : State) : (after ops s).i2cHalfUs = s.i2cHalfUs := rfl
@[simp] theorem after_i2cShift (ops : List MicroOp) (s : State) : (after ops s).i2cShift = s.i2cShift := rfl
@[simp] theorem after_i2cBitcnt (ops : List MicroOp) (s : State) : (after ops s).i2cBitcnt = s.i2cBitcnt := rfl
@[simp] theorem after_i2cWaitcnt (ops : List MicroOp) (s : State) : (after ops s).i2cWaitcnt = s.i2cWaitcnt := rfl
@[simp] theorem after_rsReady (ops : List MicroOp) (s : State) : (after ops s).rsReady = s.rsReady := rfl
@[simp] theorem after_rsStatus (ops : List MicroOp) (s : State) : (after ops s).rsStatus = s.rsStatus := rfl
@[simp] theorem after_rsRawTemp (ops : List MicroOp) (s : State) : (after ops s).rsRawTemp = s.rsRawTemp := rfl
@[simp] theorem after_rsRawHum (ops : List MicroOp) (s : State) : (after ops s).rsRawHum = s.rsRawHum := rfl
@[simp] theorem after_rsScale (ops : List MicroOp) (s : State) : (after ops s).rsScale = s.rsScale := rfl
@[simp] theorem after_pwHum (ops : List MicroOp) (s : State) : (after ops s).pwHum = s.pwHum := rfl
@[simp] theorem after_pwTemp (ops : List MicroOp) (s : State) : (after ops s).pwTemp = s.pwTemp := rfl
@[simp] theorem after_pwFrame (ops : List MicroOp) (s : State) : (after ops s).pwFrame = s.pwFrame := rfl
@[simp] theorem after_pwBitcnt (ops : List MicroOp) (s : State) : (after ops s).pwBitcnt = s.pwBitcnt := rfl
@[simp] theorem after_seq (ops : List MicroOp) (s : State) : (after ops s).seq = s.seq := rfl
@[simp] theorem after_trace (ops : List MicroOp) (s : State) : (after ops s).trace = s.trace ++ ops := rfl
@[simp] theorem after_script (ops : List MicroOp) (s : State) : (after ops s).script = s.script := rfl
@[simp] theorem after_freeCount (ops : List MicroOp) (s : State) : (after ops s).freeCount = s.freeCount := rfl
@[simp] theorem after_host (ops : List MicroOp) (s : State) : (after ops s).host = s.host := rfl
@[simp] theorem after_wirePort (ops : List MicroOp) (s : State) : (after ops s).wirePort = s.wirePort := rfl
@[simp] theorem after_rst (ops : List MicroOp) (s : State) : (after ops s).rst = s.rst := rfl
@[simp] theorem after_par (ops : List MicroOp) (s : State) : (after ops s).par = s.par := rfl
@[simp] theorem performAll_busy (ops : List MicroOp) (s : State) : (performAll ops s).busy = s.busy := by rw [performAll_eq]; rfl
@[simp] theorem performAll_rspValid (ops : List MicroOp) (s : State) : (performAll ops s).rspValid = s.rspValid := by rw [performAll_eq]; rfl
@[simp] theorem performAll_rspStatus (ops : List MicroOp) (s : State) : (performAll ops s).rspStatus = s.rspStatus := by rw [performAll_eq]; rfl
@[simp] theorem performAll_rspData (ops : List MicroOp) (s : State) : (performAll ops s).rspData = s.rspData := by rw [performAll_eq]; rfl
@[simp] theorem performAll_time (ops : List MicroOp) (s : State) : (performAll ops s).time = s.time + usOf ops := by rw [performAll_eq]; rfl
@[simp] theorem performAll_pins (ops : List MicroOp) (s : State) : (performAll ops s).pins = pinsAfter ops s.pins := by rw [performAll_eq]; rfl
@[simp] theorem performAll_owRes (ops : List MicroOp) (s : State) : (performAll ops s).owRes = s.owRes := by rw [performAll_eq]; rfl
@[simp] theorem performAll_owShift (ops : List MicroOp) (s : State) : (performAll ops s).owShift = s.owShift := by rw [performAll_eq]; rfl
@[simp] theorem performAll_owBitcnt (ops : List MicroOp) (s : State) : (performAll ops s).owBitcnt = s.owBitcnt := by rw [performAll_eq]; rfl
@[simp] theorem performAll_i2cHalfUs (ops : List MicroOp) (s : State) : (performAll ops s).i2cHalfUs = s.i2cHalfUs := by rw [performAll_eq]; rfl
@[simp] theorem performAll_i2cShift (ops : List MicroOp) (s : State) : (performAll ops s).i2cShift = s.i2cShift := by rw [performAll_eq]; rfl
@[simp] theorem performAll_i2cBitcnt (ops : List MicroOp) (s : State) : (performAll ops s).i2cBitcnt = s.i2cBitcnt := by rw [performAll_eq]; rfl
@[simp] theorem performAll_i2cWaitcnt (ops : List MicroOp) (s : State) : (performAll ops s).i2cWaitcnt = s.i2cWaitcnt := by rw [performAll_eq]; rfl
@[simp] theorem performAll_rsReady (ops : List MicroOp) (s : State) : (performAll ops s).rsReady = s.rsReady := by rw [performAll_eq]; rfl
@[simp] theorem performAll_rsStatus (ops : List MicroOp) (s : State) : (performAll ops s).rsStatus = s.rsStatus := by rw [performAll_eq]; rfl
@[simp] theorem performAll_rsRawTemp (ops : List MicroOp) (s : State) : (performAll ops s).rsRawTemp = s.rsRawTemp := by rw [performAll_eq]; rfl
@[simp] theorem performAll_rsRawHum (ops : List MicroOp) (s : State) : (performAll ops s).rsRawHum = s.rsRawHum := by rw [performAll_eq]; rfl
@[simp] theorem performAll_rsScale (ops : List MicroOp) (s : State) : (performAll ops s).rsScale = s.rsScale := by rw [performAll_eq]; rfl
@[simp] theorem performAll_pwHum (ops : List MicroOp) (s : State) : (performAll ops s).pwHum = s.pwHum := by rw [performAll_eq]; rfl
@[simp] theorem performAll_pwTemp (ops : List MicroOp) (s : State) : (performAll ops s).pwTemp = s.pwTemp := by rw [performAll_eq]; rfl
@[simp] theorem performAll_pwFrame (ops : List MicroOp) (s : State) : (performAll ops s).pwFrame = s.pwFrame := by rw [performAll_eq]; rfl
@[simp] theorem performAll_pwBitcnt (ops : List MicroOp) (s : State) : (performAll ops s).pwBitcnt = s.pwBitcnt := by rw [performAll_eq]; rfl
@[simp] theorem performAll_seq (ops : List MicroOp) (s : State) : (performAll ops s).seq = s.seq := by rw [performAll_eq]; rfl
@[simp] theorem performAll_trace (ops : List MicroOp) (s : State) : (performAll ops s).trace = s.trace ++ ops := by rw [performAll_eq]; rfl
@[simp] theorem performAll_script (ops : List MicroOp) (s : State) : (performAll ops s).script = s.script := by rw [performAll_eq]; rfl
@[simp] theorem performAll_freeCount (ops : List MicroOp) (s : State) : (performAll ops s).freeCount = s.freeCount := by rw [performAll_eq]; rfl
@[simp] theorem performAll_host (ops : List MicroOp) (s : State) : (performAll ops s).host = s.host := by rw [performAll_eq]; rfl
@[simp] theorem performAll_wirePort (ops : List MicroOp) (s : State) : (performAll ops s).wirePort = s.wirePort := by rw [performAll_eq]; rfl
@[simp] theorem performAll_rst (ops : List MicroOp) (s : State) : (performAll ops s).rst = s.rst := by rw [performAll_eq]; rfl
@[simp] theorem performAll_par (ops : List MicroOp) (s : State) : (performAll ops s).par = s.par := by rw [performAll_eq]; rfl

/-! ### `takeAnswer` -/
@[simp] theorem takeAnswer_busy (s : State) : (takeAnswer s).busy = s.busy := by unfold takeAnswer; split <;> rfl
@[simp] theorem takeAnswer_rspValid (s : State) : (takeAnswer s).rspValid = s.rspValid := by unfold takeAnswer; split <;> rfl
@[simp] theorem takeAnswer_rspStatus (s : State) : (takeAnswer s).rspStatus = s.rspStatus := by unfold takeAnswer; split <;> rfl
@[simp] theorem takeAnswer_rspData (s : State) : (takeAnswer s).rspData = s.rspData := by unfold takeAnswer; split <;> rfl
@[simp] theorem takeAnswer_time (s : State) : (takeAnswer s).time = s.time := by unfold takeAnswer; split <;> rfl
@[simp] theorem takeAnswer_pins (s : State) : (takeAnswer s).pins = s.pins := by unfold takeAnswer; split <;> rfl
@[simp] theorem takeAnswer_owRes (s : State) : (takeAnswer s).owRes = s.owRes := by unfold takeAnswer; split <;> rfl
@[simp] theorem takeAnswer_owShift (s : State) : (takeAnswer s).owShift = s.owShift := by unfold takeAnswer; split <;> rfl
@[simp] theorem takeAnswer_owBitcnt (s : State) : (takeAnswer s).owBitcnt = s.owBitcnt := by unfold takeAnswer; split <;> rfl
@[simp] theorem takeAnswer_i2cHalfUs (s : State) : (takeAnswer s).i2cHalfUs = s.i2cHalfUs := by unfold takeAnswer; split <;> rfl
@[simp] theorem takeAnswer_i2cShift (s : State) : (takeAnswer s).i2cShift = s.i2cShift := by unfold takeAnswer; split <;> rfl
@[simp] theorem takeAnswer_i2cBitcnt (s : State) : (takeAnswer s).i2cBitcnt = s.i2cBitcnt := by unfold takeAnswer; split <;> rfl
@[simp] theorem takeAnswer_i2cWaitcnt (s : State) : (takeAnswer s).i2cWaitcnt = s.i2cWaitcnt := by unfold takeAnswer; split <;> rfl
@[simp] theorem takeAnswer_rsReady (s : State) : (takeAnswer s).rsReady = s.rsReady := by unfold takeAnswer; split <;> rfl
@[simp] theorem takeAnswer_rsStatus (s : State) : (takeAnswer s).rsStatus = s.rsStatus := by unfold takeAnswer; split <;> rfl
@[simp] theorem takeAnswer_rsRawTemp (s : State) : (takeAnswer s).rsRawTemp = s.rsRawTemp := by unfold takeAnswer; split <;> rfl
@[simp] theorem takeAnswer_rsRawHum (s : State) : (takeAnswer s).rsRawHum = s.rsRawHum := by unfold takeAnswer; split <;> rfl
@[simp] theorem takeAnswer_rsScale (s : State) : (takeAnswer s).rsScale = s.rsScale := by unfold takeAnswer; split <;> rfl
@[simp] theorem takeAnswer_pwHum (s : State) : (takeAnswer s).pwHum = s.pwHum := by unfold takeAnswer; split <;> rfl
@[simp] theorem takeAnswer_pwTemp (s : State) : (takeAnswer s).pwTemp = s.pwTemp := by unfold takeAnswer; split <;> rfl
@[simp] theorem takeAnswer_pwFrame (s : State) : (takeAnswer s).pwFrame = s.pwFrame := by unfold takeAnswer; split <;> rfl
@[simp] theorem takeAnswer_pwBitcnt (s : State) : (takeAnswer s).pwBitcnt = s.pwBitcnt := by unfold takeAnswer; split <;> rfl
@[simp] theorem takeAnswer_seq (s : State) : (takeAnswer s).seq = s.seq := by unfold takeAnswer; split <;> rfl
@[simp] theorem takeAnswer_trace (s : State) : (takeAnswer s).trace = s.trace := by unfold takeAnswer; split <;> rfl
@[simp] theorem takeAnswer_host (s : State) : (takeAnswer s).host = s.host := by unfold takeAnswer; split <;> rfl
@[simp] theorem takeAnswer_wirePort (s : State) : (takeAnswer s).wirePort = s.wirePort := by unfold takeAnswer; split <;> rfl
@[simp] theorem takeAnswer_rst (s : State) : (takeAnswer s).rst = s.rst := by unfold takeAnswer; split <;> rfl
@[simp] theorem takeAnswer_par (s : State) : (takeAnswer s).par = s.par := by unfold takeAnswer; split <;> rfl

theorem takeAnswer_script (s : State) : (takeAnswer s).script = s.script.tail := by
  unfold takeAnswer; split <;> simp_all

theorem nextAnswer_cons {s : State} {a : Bool} {rest : List Bool} (h : s.script = a :: rest) : nextAnswer s = a := by
  simp [nextAnswer, h]

theorem takeAnswer_cons {s : State} {a : Bool} {rest : List Bool} (h : s.script = a :: rest) :
    takeAnswer s = { s with script := rest } := by
  simp [takeAnswer, h]

/-- The oracle looks only at the script and the count of free answers. -/
theorem nextAnswer_congr {s t : State} (h : s.script = t.script) (k : s.freeCount = t.freeCount) :
    nextAnswer s = nextAnswer t := by
  simp [nextAnswer, h, k]

theorem nextAnswer_after (ops : List MicroOp) (s : State) : nextAnswer (after ops s) = nextAnswer s :=
  nextAnswer_congr rfl rfl

/-- Performing micro-operations and consulting the oracle commute. -/
theorem takeAnswer_after (ops : List MicroOp) (s : State) : takeAnswer (after ops s) = after ops (takeAnswer s) := by
  cases h : s.script <;> simp [takeAnswer, after, h]

theorem answers_after (n : Nat) (ops : List MicroOp) (s : State) : answers n (after ops s) = answers n s := by
  induction n generalizing s with
  | zero => rfl
  | succ n ih => simp [answers, nextAnswer_after, takeAnswer_after, ih]

theorem takeAnswers_after (n : Nat) (ops : List MicroOp) (s : State) :
    takeAnswers n (after ops s) = after ops (takeAnswers n s) := by
  induction n generalizing s with
  | zero => rfl
  | succ n ih => simp [takeAnswers, takeAnswer_after, ih]

theorem takeAnswers_add (m n : Nat) (s : State) : takeAnswers (m + n) s = takeAnswers n (takeAnswers m s) := by
  induction m generalizing s with
  | zero => simp [takeAnswers]
  | succ m ih => simp [Nat.succ_add, takeAnswers, ih]

theorem answers_add (m n : Nat) (s : State) : answers (m + n) s = answers m s ++ answers n (takeAnswers m s) := by
  induction m generalizing s with
  | zero => simp [answers, takeAnswers]
  | succ m ih => simp [Nat.succ_add, answers, takeAnswers, ih]

theorem answers_length (n : Nat) (s : State) : (answers n s).length = n := by
  induction n generalizing s with
  | zero => rfl
  | succ n ih => simp [answers, ih]

/-- While the script lasts, the answers are its own. -/
theorem answers_script (xs rest : List Bool) (s : State) (h : s.script = xs ++ rest) :
    answers xs.length s = xs := by
  induction xs generalizing s with
  | nil => rfl
  | cons a xs ih =>
    simp only [List.cons_append] at h
    simp only [List.length_cons, answers, nextAnswer_cons h, takeAnswer_cons h]
    rw [ih _ (by rfl)]

/-- While the script lasts, taking answers drops them from it. -/
theorem takeAnswers_script (xs rest : List Bool) (s : State) (h : s.script = xs ++ rest) :
    takeAnswers xs.length s = { s with script := rest } := by
  induction xs generalizing s with
  | nil => simp only [List.nil_append] at h; subst h; rfl
  | cons a xs ih =>
    simp only [List.cons_append] at h
    simp only [List.length_cons, takeAnswers, takeAnswer_cons h]
    rw [ih _ (by rfl)]
@[simp] theorem takeAnswers_busy (n : Nat) (s : State) : (takeAnswers n s).busy = s.busy := by
  induction n generalizing s with
  | zero => rfl
  | succ n ih => simp [takeAnswers, ih]
@[simp] theorem takeAnswers_rspValid (n : Nat) (s : State) : (takeAnswers n s).rspValid = s.rspValid := by
  induction n generalizing s with
  | zero => rfl
  | succ n ih => simp [takeAnswers, ih]
@[simp] theorem takeAnswers_rspStatus (n : Nat) (s : State) : (takeAnswers n s).rspStatus = s.rspStatus := by
  induction n generalizing s with
  | zero => rfl
  | succ n ih => simp [takeAnswers, ih]
@[simp] theorem takeAnswers_rspData (n : Nat) (s : State) : (takeAnswers n s).rspData = s.rspData := by
  induction n generalizing s with
  | zero => rfl
  | succ n ih => simp [takeAnswers, ih]
@[simp] theorem takeAnswers_time (n : Nat) (s : State) : (takeAnswers n s).time = s.time := by
  induction n generalizing s with
  | zero => rfl
  | succ n ih => simp [takeAnswers, ih]
@[simp] theorem takeAnswers_pins (n : Nat) (s : State) : (takeAnswers n s).pins = s.pins := by
  induction n generalizing s with
  | zero => rfl
  | succ n ih => simp [takeAnswers, ih]
@[simp] theorem takeAnswers_owRes (n : Nat) (s : State) : (takeAnswers n s).owRes = s.owRes := by
  induction n generalizing s with
  | zero => rfl
  | succ n ih => simp [takeAnswers, ih]
@[simp] theorem takeAnswers_owShift (n : Nat) (s : State) : (takeAnswers n s).owShift = s.owShift := by
  induction n generalizing s with
  | zero => rfl
  | succ n ih => simp [takeAnswers, ih]
@[simp] theorem takeAnswers_owBitcnt (n : Nat) (s : State) : (takeAnswers n s).owBitcnt = s.owBitcnt := by
  induction n generalizing s with
  | zero => rfl
  | succ n ih => simp [takeAnswers, ih]
@[simp] theorem takeAnswers_i2cHalfUs (n : Nat) (s : State) : (takeAnswers n s).i2cHalfUs = s.i2cHalfUs := by
  induction n generalizing s with
  | zero => rfl
  | succ n ih => simp [takeAnswers, ih]
@[simp] theorem takeAnswers_i2cShift (n : Nat) (s : State) : (takeAnswers n s).i2cShift = s.i2cShift := by
  induction n generalizing s with
  | zero => rfl
  | succ n ih => simp [takeAnswers, ih]
@[simp] theorem takeAnswers_i2cBitcnt (n : Nat) (s : State) : (takeAnswers n s).i2cBitcnt = s.i2cBitcnt := by
  induction n generalizing s with
  | zero => rfl
  | succ n ih => simp [takeAnswers, ih]
@[simp] theorem takeAnswers_i2cWaitcnt (n : Nat) (s : State) : (takeAnswers n s).i2cWaitcnt = s.i2cWaitcnt := by
  induction n generalizing s with
  | zero => rfl
  | succ n ih => simp [takeAnswers, ih]
@[simp] theorem takeAnswers_rsReady (n : Nat) (s : State) : (takeAnswers n s).rsReady = s.rsReady := by
  induction n generalizing s with
  | zero => rfl
  | succ n ih => simp [takeAnswers, ih]
@[simp] theorem takeAnswers_rsStatus (n : Nat) (s : State) : (takeAnswers n s).rsStatus = s.rsStatus := by
  induction n generalizing s with
  | zero => rfl
  | succ n ih => simp [takeAnswers, ih]
@[simp] theorem takeAnswers_rsRawTemp (n : Nat) (s : State) : (takeAnswers n s).rsRawTemp = s.rsRawTemp := by
  induction n generalizing s with
  | zero => rfl
  | succ n ih => simp [takeAnswers, ih]
@[simp] theorem takeAnswers_rsRawHum (n : Nat) (s : State) : (takeAnswers n s).rsRawHum = s.rsRawHum := by
  induction n generalizing s with
  | zero => rfl
  | succ n ih => simp [takeAnswers, ih]
@[simp] theorem takeAnswers_rsScale (n : Nat) (s : State) : (takeAnswers n s).rsScale = s.rsScale := by
  induction n generalizing s with
  | zero => rfl
  | succ n ih => simp [takeAnswers, ih]
@[simp] theorem takeAnswers_pwHum (n : Nat) (s : State) : (takeAnswers n s).pwHum = s.pwHum := by
  induction n generalizing s with
  | zero => rfl
  | succ n ih => simp [takeAnswers, ih]
@[simp] theorem takeAnswers_pwTemp (n : Nat) (s : State) : (takeAnswers n s).pwTemp = s.pwTemp := by
  induction n generalizing s with
  | zero => rfl
  | succ n ih => simp [takeAnswers, ih]
@[simp] theorem takeAnswers_pwFrame (n : Nat) (s : State) : (takeAnswers n s).pwFrame = s.pwFrame := by
  induction n generalizing s with
  | zero => rfl
  | succ n ih => simp [takeAnswers, ih]
@[simp] theorem takeAnswers_pwBitcnt (n : Nat) (s : State) : (takeAnswers n s).pwBitcnt = s.pwBitcnt := by
  induction n generalizing s with
  | zero => rfl
  | succ n ih => simp [takeAnswers, ih]
@[simp] theorem takeAnswers_seq (n : Nat) (s : State) : (takeAnswers n s).seq = s.seq := by
  induction n generalizing s with
  | zero => rfl
  | succ n ih => simp [takeAnswers, ih]
@[simp] theorem takeAnswers_trace (n : Nat) (s : State) : (takeAnswers n s).trace = s.trace := by
  induction n generalizing s with
  | zero => rfl
  | succ n ih => simp [takeAnswers, ih]
@[simp] theorem takeAnswers_host (n : Nat) (s : State) : (takeAnswers n s).host = s.host := by
  induction n generalizing s with
  | zero => rfl
  | succ n ih => simp [takeAnswers, ih]
@[simp] theorem takeAnswers_wirePort (n : Nat) (s : State) : (takeAnswers n s).wirePort = s.wirePort := by
  induction n generalizing s with
  | zero => rfl
  | succ n ih => simp [takeAnswers, ih]
@[simp] theorem takeAnswers_rst (n : Nat) (s : State) : (takeAnswers n s).rst = s.rst := by
  induction n generalizing s with
  | zero => rfl
  | succ n ih => simp [takeAnswers, ih]
@[simp] theorem takeAnswers_par (n : Nat) (s : State) : (takeAnswers n s).par = s.par := by
  induction n generalizing s with
  | zero => rfl
  | succ n ih => simp [takeAnswers, ih]

/-! ### `accept` -/
@[simp] theorem accept_busy (s : State) : (accept s).busy = true := rfl
@[simp] theorem accept_rspValid (s : State) : (accept s).rspValid = false := rfl
@[simp] theorem accept_rspStatus (s : State) : (accept s).rspStatus = s.rspStatus := rfl
@[simp] theorem accept_rspData (s : State) : (accept s).rspData = s.rspData := rfl
@[simp] theorem accept_time (s : State) : (accept s).time = s.time := rfl
@[simp] theorem accept_pins (s : State) : (accept s).pins = s.pins := rfl
@[simp] theorem accept_owRes (s : State) : (accept s).owRes = s.owRes := rfl
@[simp] theorem accept_owShift (s : State) : (accept s).owShift = s.owShift := rfl
@[simp] theorem accept_owBitcnt (s : State) : (accept s).owBitcnt = s.owBitcnt := rfl
@[simp] theorem accept_i2cHalfUs (s : State) : (accept s).i2cHalfUs = s.i2cHalfUs := rfl
@[simp] theorem accept_i2cShift (s : State) : (accept s).i2cShift = s.i2cShift := rfl
@[simp] theorem accept_i2cBitcnt (s : State) : (accept s).i2cBitcnt = s.i2cBitcnt := rfl
@[simp] theorem accept_i2cWaitcnt (s : State) : (accept s).i2cWaitcnt = s.i2cWaitcnt := rfl
@[simp] theorem accept_rsReady (s : State) : (accept s).rsReady = s.rsReady := rfl
@[simp] theorem accept_rsStatus (s : State) : (accept s).rsStatus = s.rsStatus := rfl
@[simp] theorem accept_rsRawTemp (s : State) : (accept s).rsRawTemp = s.rsRawTemp := rfl
@[simp] theorem accept_rsRawHum (s : State) : (accept s).rsRawHum = s.rsRawHum := rfl
@[simp] theorem accept_rsScale (s : State) : (accept s).rsScale = s.rsScale := rfl
@[simp] theorem accept_pwHum (s : State) : (accept s).pwHum = s.pwHum := rfl
@[simp] theorem accept_pwTemp (s : State) : (accept s).pwTemp = s.pwTemp := rfl
@[simp] theorem accept_pwFrame (s : State) : (accept s).pwFrame = s.pwFrame := rfl
@[simp] theorem accept_pwBitcnt (s : State) : (accept s).pwBitcnt = s.pwBitcnt := rfl
@[simp] theorem accept_seq (s : State) : (accept s).seq = s.seq := rfl
@[simp] theorem accept_trace (s : State) : (accept s).trace = [] := rfl
@[simp] theorem accept_script (s : State) : (accept s).script = s.script := rfl
@[simp] theorem accept_freeCount (s : State) : (accept s).freeCount = s.freeCount := rfl
@[simp] theorem accept_host (s : State) : (accept s).host = s.host := rfl
@[simp] theorem accept_wirePort (s : State) : (accept s).wirePort = s.wirePort := rfl
@[simp] theorem accept_rst (s : State) : (accept s).rst = s.rst := rfl
@[simp] theorem accept_par (s : State) : (accept s).par = s.par := rfl

/-! ### `beginWire` -/
@[simp] theorem beginWire_busy (s : State) : (beginWire s).busy = s.busy := rfl
@[simp] theorem beginWire_rspValid (s : State) : (beginWire s).rspValid = s.rspValid := rfl
@[simp] theorem beginWire_rspStatus (s : State) : (beginWire s).rspStatus = s.rspStatus := rfl
@[simp] theorem beginWire_rspData (s : State) : (beginWire s).rspData = s.rspData := rfl
@[simp] theorem beginWire_time (s : State) : (beginWire s).time = s.time := rfl
@[simp] theorem beginWire_pins (s : State) : (beginWire s).pins = s.pins := rfl
@[simp] theorem beginWire_owRes (s : State) : (beginWire s).owRes = s.owRes := rfl
@[simp] theorem beginWire_owShift (s : State) : (beginWire s).owShift = s.owShift := rfl
@[simp] theorem beginWire_owBitcnt (s : State) : (beginWire s).owBitcnt = s.owBitcnt := rfl
@[simp] theorem beginWire_i2cHalfUs (s : State) : (beginWire s).i2cHalfUs = s.i2cHalfUs := rfl
@[simp] theorem beginWire_i2cShift (s : State) : (beginWire s).i2cShift = s.i2cShift := rfl
@[simp] theorem beginWire_i2cBitcnt (s : State) : (beginWire s).i2cBitcnt = s.i2cBitcnt := rfl
@[simp] theorem beginWire_i2cWaitcnt (s : State) : (beginWire s).i2cWaitcnt = s.i2cWaitcnt := rfl
@[simp] theorem beginWire_rsReady (s : State) : (beginWire s).rsReady = s.rsReady := rfl
@[simp] theorem beginWire_rsStatus (s : State) : (beginWire s).rsStatus = s.rsStatus := rfl
@[simp] theorem beginWire_rsRawTemp (s : State) : (beginWire s).rsRawTemp = s.rsRawTemp := rfl
@[simp] theorem beginWire_rsRawHum (s : State) : (beginWire s).rsRawHum = s.rsRawHum := rfl
@[simp] theorem beginWire_rsScale (s : State) : (beginWire s).rsScale = s.rsScale := rfl
@[simp] theorem beginWire_pwHum (s : State) : (beginWire s).pwHum = s.pwHum := rfl
@[simp] theorem beginWire_pwTemp (s : State) : (beginWire s).pwTemp = s.pwTemp := rfl
@[simp] theorem beginWire_pwFrame (s : State) : (beginWire s).pwFrame = s.pwFrame := rfl
@[simp] theorem beginWire_pwBitcnt (s : State) : (beginWire s).pwBitcnt = s.pwBitcnt := rfl
@[simp] theorem beginWire_seq (s : State) : (beginWire s).seq = s.seq := rfl
@[simp] theorem beginWire_trace (s : State) : (beginWire s).trace = [] := rfl
@[simp] theorem beginWire_script (s : State) : (beginWire s).script = s.script := rfl
@[simp] theorem beginWire_freeCount (s : State) : (beginWire s).freeCount = s.freeCount := rfl
@[simp] theorem beginWire_host (s : State) : (beginWire s).host = s.host := rfl
@[simp] theorem beginWire_wirePort (s : State) : (beginWire s).wirePort = s.wirePort := rfl
@[simp] theorem beginWire_rst (s : State) : (beginWire s).rst = s.rst := rfl
@[simp] theorem beginWire_par (s : State) : (beginWire s).par = s.par := rfl

/-! ### `respond`, `ret`, `raise` -/
@[simp] theorem respond_busy (st : Status) (data : BitVec 64) (s : State) : (respond st data s).busy = false := rfl
@[simp] theorem respond_rspValid (st : Status) (data : BitVec 64) (s : State) : (respond st data s).rspValid = true := rfl
@[simp] theorem respond_rspStatus (st : Status) (data : BitVec 64) (s : State) : (respond st data s).rspStatus = st := rfl
@[simp] theorem respond_rspData (st : Status) (data : BitVec 64) (s : State) : (respond st data s).rspData = data := rfl
@[simp] theorem respond_time (st : Status) (data : BitVec 64) (s : State) : (respond st data s).time = s.time := rfl
@[simp] theorem respond_pins (st : Status) (data : BitVec 64) (s : State) : (respond st data s).pins = s.pins := rfl
@[simp] theorem respond_owRes (st : Status) (data : BitVec 64) (s : State) : (respond st data s).owRes = s.owRes := rfl
@[simp] theorem respond_owShift (st : Status) (data : BitVec 64) (s : State) : (respond st data s).owShift = s.owShift := rfl
@[simp] theorem respond_owBitcnt (st : Status) (data : BitVec 64) (s : State) : (respond st data s).owBitcnt = s.owBitcnt := rfl
@[simp] theorem respond_i2cHalfUs (st : Status) (data : BitVec 64) (s : State) : (respond st data s).i2cHalfUs = s.i2cHalfUs := rfl
@[simp] theorem respond_i2cShift (st : Status) (data : BitVec 64) (s : State) : (respond st data s).i2cShift = s.i2cShift := rfl
@[simp] theorem respond_i2cBitcnt (st : Status) (data : BitVec 64) (s : State) : (respond st data s).i2cBitcnt = s.i2cBitcnt := rfl
@[simp] theorem respond_i2cWaitcnt (st : Status) (data : BitVec 64) (s : State) : (respond st data s).i2cWaitcnt = s.i2cWaitcnt := rfl
@[simp] theorem respond_rsReady (st : Status) (data : BitVec 64) (s : State) : (respond st data s).rsReady = s.rsReady := rfl
@[simp] theorem respond_rsStatus (st : Status) (data : BitVec 64) (s : State) : (respond st data s).rsStatus = s.rsStatus := rfl
@[simp] theorem respond_rsRawTemp (st : Status) (data : BitVec 64) (s : State) : (respond st data s).rsRawTemp = s.rsRawTemp := rfl
@[simp] theorem respond_rsRawHum (st : Status) (data : BitVec 64) (s : State) : (respond st data s).rsRawHum = s.rsRawHum := rfl
@[simp] theorem respond_rsScale (st : Status) (data : BitVec 64) (s : State) : (respond st data s).rsScale = s.rsScale := rfl
@[simp] theorem respond_pwHum (st : Status) (data : BitVec 64) (s : State) : (respond st data s).pwHum = s.pwHum := rfl
@[simp] theorem respond_pwTemp (st : Status) (data : BitVec 64) (s : State) : (respond st data s).pwTemp = s.pwTemp := rfl
@[simp] theorem respond_pwFrame (st : Status) (data : BitVec 64) (s : State) : (respond st data s).pwFrame = s.pwFrame := rfl
@[simp] theorem respond_pwBitcnt (st : Status) (data : BitVec 64) (s : State) : (respond st data s).pwBitcnt = s.pwBitcnt := rfl
@[simp] theorem respond_seq (st : Status) (data : BitVec 64) (s : State) : (respond st data s).seq = .idle := rfl
@[simp] theorem respond_trace (st : Status) (data : BitVec 64) (s : State) : (respond st data s).trace = s.trace := rfl
@[simp] theorem respond_script (st : Status) (data : BitVec 64) (s : State) : (respond st data s).script = s.script := rfl
@[simp] theorem respond_freeCount (st : Status) (data : BitVec 64) (s : State) : (respond st data s).freeCount = s.freeCount := rfl
@[simp] theorem respond_host (st : Status) (data : BitVec 64) (s : State) : (respond st data s).host = s.host := rfl
@[simp] theorem respond_wirePort (st : Status) (data : BitVec 64) (s : State) : (respond st data s).wirePort = s.wirePort := rfl
@[simp] theorem respond_rst (st : Status) (data : BitVec 64) (s : State) : (respond st data s).rst = s.rst := rfl
@[simp] theorem respond_par (st : Status) (data : BitVec 64) (s : State) : (respond st data s).par = s.par := rfl

theorem ret_eq (data : BitVec 64) (s : State) : ret data s = respond .ok data s := rfl

theorem raise_eq (st : Status) (data : BitVec 64) (s : State) : raise st data s = respond st data s := rfl

/-! ### `settled` -/

@[simp] theorem settled_idem (s : State) : settled (settled s) = settled s := rfl

@[simp] theorem settled_busy (s : State) : (settled s).busy = s.busy := rfl
@[simp] theorem settled_rspValid (s : State) : (settled s).rspValid = s.rspValid := rfl
@[simp] theorem settled_rspStatus (s : State) : (settled s).rspStatus = s.rspStatus := rfl
@[simp] theorem settled_rspData (s : State) : (settled s).rspData = s.rspData := rfl
@[simp] theorem settled_time (s : State) : (settled s).time = s.time := rfl
@[simp] theorem settled_pins (s : State) : (settled s).pins = s.pins := rfl
@[simp] theorem settled_owRes (s : State) : (settled s).owRes = s.owRes := rfl
@[simp] theorem settled_owShift (s : State) : (settled s).owShift = 0 := rfl
@[simp] theorem settled_owBitcnt (s : State) : (settled s).owBitcnt = 0 := rfl
@[simp] theorem settled_i2cHalfUs (s : State) : (settled s).i2cHalfUs = s.i2cHalfUs := rfl
@[simp] theorem settled_i2cShift (s : State) : (settled s).i2cShift = 0 := rfl
@[simp] theorem settled_i2cBitcnt (s : State) : (settled s).i2cBitcnt = 0 := rfl
@[simp] theorem settled_i2cWaitcnt (s : State) : (settled s).i2cWaitcnt = 0 := rfl
@[simp] theorem settled_rsReady (s : State) : (settled s).rsReady = s.rsReady := rfl
@[simp] theorem settled_rsStatus (s : State) : (settled s).rsStatus = s.rsStatus := rfl
@[simp] theorem settled_rsRawTemp (s : State) : (settled s).rsRawTemp = s.rsRawTemp := rfl
@[simp] theorem settled_rsRawHum (s : State) : (settled s).rsRawHum = s.rsRawHum := rfl
@[simp] theorem settled_rsScale (s : State) : (settled s).rsScale = s.rsScale := rfl
@[simp] theorem settled_pwHum (s : State) : (settled s).pwHum = s.pwHum := rfl
@[simp] theorem settled_pwTemp (s : State) : (settled s).pwTemp = s.pwTemp := rfl
@[simp] theorem settled_pwFrame (s : State) : (settled s).pwFrame = 0 := rfl
@[simp] theorem settled_pwBitcnt (s : State) : (settled s).pwBitcnt = 0 := rfl
@[simp] theorem settled_seq (s : State) : (settled s).seq = s.seq := rfl
@[simp] theorem settled_trace (s : State) : (settled s).trace = s.trace := rfl
@[simp] theorem settled_script (s : State) : (settled s).script = s.script := rfl
@[simp] theorem settled_freeCount (s : State) : (settled s).freeCount = s.freeCount := rfl
@[simp] theorem settled_host (s : State) : (settled s).host = s.host := rfl
@[simp] theorem settled_wirePort (s : State) : (settled s).wirePort = s.wirePort := rfl
@[simp] theorem settled_rst (s : State) : (settled s).rst = s.rst := rfl
@[simp] theorem settled_par (s : State) : (settled s).par = s.par := rfl

/-! ### Pins -/

@[simp] theorem Pins.get_set (p : Pins) (l : Line) (x : Latch) : (p.set l x).get l = x := by cases l <;> rfl

theorem Pins.get_set_of_ne (p : Pins) {l m : Line} (x : Latch) (h : m ≠ l) : (p.set l x).get m = p.get m := by
  cases l <;> cases m <;> first | rfl | exact absurd rfl h

end Sys2Proof.Machine
end

