-- ==== Sys2Proof/Laws/Ops.lean ====
section
/-! SUPPORT. What the shared operations do, each said once: a sample, a polling loop, the end of a command; and how they
commute with erasing the transient registers. -/

namespace Sys2Proof.Machine

/-! ### Settling -/

theorem settled_after (ops : List MicroOp) (s : State) : settled (after ops s) = after ops (settled s) := rfl

theorem settled_takeAnswer (s : State) : settled (takeAnswer s) = takeAnswer (settled s) := by
  cases h : s.script <;> simp [takeAnswer, settled, h]

theorem settled_takeAnswers (n : Nat) (s : State) : settled (takeAnswers n s) = takeAnswers n (settled s) := by
  induction n generalizing s with
  | zero => rfl
  | succ n ih => simp [takeAnswers, ih, settled_takeAnswer]

@[simp] theorem nextAnswer_settled (s : State) : nextAnswer (settled s) = nextAnswer s := rfl

@[simp] theorem answers_settled (n : Nat) (s : State) : answers n (settled s) = answers n s := by
  induction n generalizing s with
  | zero => rfl
  | succ n ih => simp [answers, ← settled_takeAnswer, ih]

theorem settled_respond (st : Status) (data : BitVec 64) (s : State) :
    settled (respond st data s) = respond st data (settled s) := rfl

theorem respond_eq_answered (st : Status) (data : BitVec 64) (s : State) : respond st data s = answered st data s := rfl

/-! ### A sample -/

/-- A sample yields the oracle's next answer, records it, and moves the oracle on. -/
theorem sample_eq (l : Line) (s : State) :
    sample l s = (nextAnswer s, after [.sample l (nextAnswer s)] (takeAnswer s)) := by
  simp [sample, perform_eq_after]

/-! ### Polling loops -/

/-- What a polling loop can do: it broke in the `(k+1)`-th turn after `k` turns that did not break, or none of its `n`
turns broke. -/
theorem pollTimes_cases (body : State → Bool × State) (n : Nat) (s : State) :
    ((pollTimes body n s).1 = true ∧ ∃ k, k < n ∧ ∃ u, pollTimes body k s = (false, u) ∧ body u = pollTimes body n s) ∨
      (pollTimes body n s).1 = false := by
  induction n generalizing s with
  | zero => exact .inr rfl
  | succ n ih =>
    cases h : (body s).1
    · have e : pollTimes body (n + 1) s = pollTimes body n (body s).2 := by simp [pollTimes, h]
      rw [e]
      rcases ih (body s).2 with ⟨h1, k, hk, u, hu, hb⟩ | h2
      · exact .inl ⟨h1, k + 1, by omega, u, by simp [pollTimes, h, hu], hb⟩
      · exact .inr h2
    · have e : pollTimes body (n + 1) s = body s := by simp [pollTimes, h]
      rw [e]
      exact .inl ⟨h, 0, by omega, s, rfl, rfl⟩

/-- Something every turn of the body keeps, the loop keeps. -/
theorem pollTimes_induct {body : State → Bool × State} {P : State → State → Prop} (refl : ∀ s, P s s)
    (turn : ∀ {r s}, P r s → P r (body s).2) (n : Nat) (s : State) : P s (pollTimes body n s).2 := by
  suffices h : ∀ n r s, P r s → P r (pollTimes body n s).2 from h n s s (refl s)
  intro n
  induction n with
  | zero => intro r s h; exact h
  | succ n ih =>
    intro r s h
    cases hb : (body s).1
    · simp only [pollTimes, hb, Bool.false_eq_true, if_false]; exact ih r _ (turn h)
    · simp only [pollTimes, hb, if_true]; exact turn h

/-- A `loop[LIMIT]` waits only without a limit, and reports the limit only with one (R17). -/
theorem poll_result (body : State → Bool × State) (limit : Option Nat) (s : State) :
    ((poll body limit s).1 = .waiting → limit = none) ∧ ((poll body limit s).1 = .limit → ∃ n, limit = some n) := by
  cases limit <;> (simp only [poll]; constructor <;> (split <;> simp))

/-- The state a `loop[LIMIT]` leaves is that of its turns. -/
theorem poll_state (body : State → Bool × State) (limit : Option Nat) (s : State) :
    ∃ n, (poll body limit s).2 = (pollTimes body n s).2 ∧ ((poll body limit s).1 = .done ↔ (pollTimes body n s).1 = true) := by
  cases limit with
  | none => exact ⟨max 1 s.script.length, rfl, by simp only [poll]; split <;> simp_all⟩
  | some n => exact ⟨n, rfl, by simp only [poll]; split <;> simp_all⟩

end Sys2Proof.Machine
end

