-- ==== Sys2Proof/Laws/OneWire.lean ====
section
/-! SUPPORT. What each procedure of unit OW does, said once: its answer, its trace, the answers it takes, and that nothing
else persistent changes. -/

namespace Sys2Proof.Machine

/-- `ow_reset` (R142): one answer, five micro-operations. -/
theorem owReset_eq (s : State) :
    owReset s = (nextAnswer s, after (waveOwReset s.par (nextAnswer s)) (takeAnswer s)) := by
  simp [owReset, sample_eq, performAll_eq, nextAnswer_after, takeAnswer_after, after_after, owResetPulse, waveOwReset]

/-- `ow_rbit` (R161): one answer, six micro-operations. -/
theorem owRbit_eq (s : State) :
    owRbit s = (nextAnswer s, after (waveOwRead s.par (nextAnswer s)) (takeAnswer s)) := by
  simp [owRbit, sample_eq, performAll_eq, perform_eq_after, nextAnswer_after, takeAnswer_after, after_after, owReadLead,
    waveOwRead]

/-- `ow_wbit` (R162): no answer, four micro-operations. -/
theorem owWbit_eq (b : Bool) (s : State) : owWbit b s = after (waveOwWrite s.par b) s := by
  cases b <;> simp [owWbit, performAll_eq, owWriteSlot, waveOwWrite]

theorem owWriteBits_settled (is : List Nat) (s : State) :
    settled (owWriteBits is s) = after (is.flatMap fun i => waveOwWrite s.par (s.owShift.getLsbD i)) (settled s) := by
  induction is generalizing s with
  | nil => simp [owWriteBits, after_nil]
  | cons i is ih =>
    rw [owWriteBits, ih, owWbit_eq]
    exact after_after _ _ (settled s)

/-- `ow_wbyte(v)` (R165): eight slots, bit 0 first, and nothing else persistent. -/
theorem owWbyte_settled (v : Byte) (s : State) :
    settled (owWbyte v s) = after (waveOwWriteByte s.par v) (settled s) :=
  owWriteBits_settled lsbFirst { s with owShift := v, owBitcnt := 0 }

@[simp] theorem owWbyte_par (v : Byte) (s : State) : (owWbyte v s).par = s.par := by
  simpa using congrArg State.par (owWbyte_settled v s)

@[simp] theorem owWbyte_script (v : Byte) (s : State) : (owWbyte v s).script = s.script := by
  simpa using congrArg State.script (owWbyte_settled v s)

@[simp] theorem owWbyte_freeCount (v : Byte) (s : State) : (owWbyte v s).freeCount = s.freeCount := by
  simpa using congrArg State.freeCount (owWbyte_settled v s)

@[simp] theorem owWbyte_nextAnswer (v : Byte) (s : State) : nextAnswer (owWbyte v s) = nextAnswer s :=
  nextAnswer_congr (owWbyte_script v s) (owWbyte_freeCount v s)

@[simp] theorem owWbyte_answers (n : Nat) (v : Byte) (s : State) : answers n (owWbyte v s) = answers n s := by
  rw [← answers_settled, owWbyte_settled, answers_after, answers_settled]

theorem owReadBits_settled (is : List Nat) (s : State) :
    settled (owReadBits is s) =
      after (waveOwReadBits s.par (answers is.length s)) (takeAnswers is.length (settled s)) := by
  induction is generalizing s with
  | nil => simp [owReadBits, answers, takeAnswers, waveOwReadBits, after_nil]
  | cons i is ih =>
    rw [owReadBits]
    simp only [owRbit_eq]
    rw [ih]
    have e : ∀ a b, settled { after (waveOwRead s.par (nextAnswer s)) (takeAnswer s) with owShift := a, owBitcnt := b } =
        after (waveOwRead s.par (nextAnswer s)) (takeAnswer (settled s)) := fun a b => by
      rw [← settled_takeAnswer]; rfl
    rw [← answers_settled, e, answers_after, takeAnswers_after, after_after, ← settled_takeAnswer, answers_settled]
    simp [answers, takeAnswers, waveOwReadBits, settled_takeAnswer]

/-- The value `putBit` builds, bit by bit. -/
def putBits : List Nat → List Bool → Byte → Byte
  | i :: is, a :: as, v => putBits is as (putBit v i a)
  | [], _, v => v
  | _ :: _, [], v => v

theorem owReadBits_owShift (is : List Nat) (s : State) :
    (owReadBits is s).owShift = putBits is (answers is.length s) s.owShift := by
  induction is generalizing s with
  | nil => simp [owReadBits, putBits]
  | cons i is ih =>
    rw [owReadBits]
    simp only [owRbit_eq]
    rw [ih]
    simp only [List.length_cons, answers, putBits, after_owShift, takeAnswer_owShift]
    congr 1
    rw [← answers_settled, ← answers_settled is.length (takeAnswer s)]
    exact answers_after _ (waveOwRead s.par (nextAnswer s)) (settled (takeAnswer s))

theorem putBits_lsb : ∀ a b c d e f g h : Bool,
    putBits lsbFirst [a, b, c, d, e, f, g, h] 0 = BitVec.ofNat 8 (lsbValue [a, b, c, d, e, f, g, h]) := by decide

theorem putBits_msb : ∀ a b c d e f g h : Bool,
    putBits msbFirst [a, b, c, d, e, f, g, h] 0 = BitVec.ofNat 8 (msbValue [a, b, c, d, e, f, g, h]) := by decide

/-- `ow_rbyte` (R166): the first bit read is bit 0 of the result. -/
theorem owRbyte_value (s : State) : (owRbyte s).1 = BitVec.ofNat 8 (lsbValue (answers 8 s)) := by
  have h := owReadBits_owShift lsbFirst { s with owShift := 0, owBitcnt := 0 }
  have e : answers 8 { s with owShift := 0, owBitcnt := 0 } = answers 8 s := by
    rw [← answers_settled, ← answers_settled 8 s]; rfl
  have l : lsbFirst.length = 8 := rfl
  rw [l, e] at h
  exact h.trans (putBits_lsb _ _ _ _ _ _ _ _)

/-- `ow_rbyte` (R166): eight read slots, eight answers, and nothing else persistent. -/
theorem owRbyte_settled (s : State) :
    settled (owRbyte s).2 = after (waveOwReadBits s.par (answers 8 s)) (takeAnswers 8 (settled s)) := by
  have h := owReadBits_settled lsbFirst { s with owShift := 0, owBitcnt := 0 }
  rw [← answers_settled] at h
  exact h.trans (by rw [show settled { s with owShift := 0, owBitcnt := 0 } = settled s from rfl, answers_settled]; rfl)

/-- The conversion poll that is answered 1 after `k` zeros, within its turns (R193). -/
theorem pollTimes_owRbit_hit (k n : Nat) (s : State) (hk : k < n)
    (h : answers (k + 1) s = List.replicate k false ++ [true]) :
    pollTimes owRbit n s =
      (true, after (waveOwReadBits s.par (List.replicate k false ++ [true])) (takeAnswers (k + 1) s)) := by
  induction k generalizing n s with
  | zero =>
    obtain ⟨n, rfl⟩ : ∃ m, n = m + 1 := ⟨n - 1, by omega⟩
    have h0 : nextAnswer s = true := by simpa [answers] using h
    simp [pollTimes, owRbit_eq, h0, takeAnswers, waveOwReadBits]
  | succ k ih =>
    obtain ⟨n, rfl⟩ : ∃ m, n = m + 1 := ⟨n - 1, by omega⟩
    have h2 : nextAnswer s = false ∧ answers (k + 1) (takeAnswer s) = List.replicate k false ++ [true] := by
      rw [answers, List.replicate_succ, List.cons_append] at h
      exact List.cons_eq_cons.mp h
    rw [pollTimes]
    simp only [owRbit_eq, h2.1, Bool.false_eq_true, if_false]
    rw [ih n _ (by omega) (by rw [answers_after]; exact h2.2), takeAnswers_after, after_after]
    simp [waveOwReadBits, takeAnswers, List.replicate_succ]

/-- The conversion poll that is answered 0 in each of its turns (R193). -/
theorem pollTimes_owRbit_miss (n : Nat) (s : State) (h : answers n s = List.replicate n false) :
    pollTimes owRbit n s =
      (false, after (waveOwReadBits s.par (List.replicate n false)) (takeAnswers n s)) := by
  induction n generalizing s with
  | zero => simp [pollTimes, waveOwReadBits, after_nil, takeAnswers]
  | succ n ih =>
    have h2 : nextAnswer s = false ∧ answers n (takeAnswer s) = List.replicate n false := by
      rw [answers, List.replicate_succ] at h
      exact List.cons_eq_cons.mp h
    rw [pollTimes]
    simp only [owRbit_eq, h2.1, Bool.false_eq_true, if_false]
    rw [ih _ (by rw [answers_after]; exact h2.2), takeAnswers_after, after_after]
    simp [waveOwReadBits, takeAnswers, List.replicate_succ]

end Sys2Proof.Machine
end

