-- ==== Sys2Proof/Laws/SoftI2c.lean ====
section
/-! SUPPORT. What each procedure of unit I2C does, said once: its answer, its trace, the answers it takes, and that nothing
else persistent changes. -/

namespace Sys2Proof.Machine

/-- `i2c_start` (R232). -/
theorem i2cStart_eq (s : State) : i2cStart s = after (waveStart s.i2cHalfUs.toNat) s := performAll_eq _ s

/-- `i2c_stop` (R233). -/
theorem i2cStop_eq (s : State) : i2cStop s = after (waveStop s.i2cHalfUs.toNat) s := performAll_eq _ s

theorem i2cPulses_eq (t n : Nat) : i2cPulses t n = wavePulses t n := by
  induction n with
  | zero => rfl
  | succ n ih => simp [i2cPulses, wavePulses, ih]

/-- `i2c_reset` (R237). -/
theorem i2cReset_eq (s : State) : i2cReset s = after (waveBusReset s.i2cHalfUs.toNat) s := by
  rw [i2cReset, performAll_eq, i2cResetOps, i2cPulses_eq]; rfl

theorem i2cWriteBits_settled (is : List Nat) (s : State) :
    settled (i2cWriteBits is s) =
      after (is.flatMap fun i => waveWriteBit s.i2cHalfUs.toNat (s.i2cShift.getLsbD i)) (settled s) := by
  induction is generalizing s with
  | nil => simp [i2cWriteBits, after_nil]
  | cons i is ih =>
    rw [i2cWriteBits, ih, performAll_eq]
    exact after_after _ _ (settled s)

theorem settled_answered_irrelevant {s t : State} (h : settled s = settled t) :
    nextAnswer s = nextAnswer t ∧ settled (takeAnswer s) = settled (takeAnswer t) := by
  constructor
  · rw [← nextAnswer_settled, h, nextAnswer_settled]
  · rw [settled_takeAnswer, h, settled_takeAnswer]

/-- `i2c_write(v)` (R234): acknowledged when the one answer is 0; 46 micro-operations; nothing else persistent. -/
theorem i2cWrite_spec (v : Byte) (s : State) :
    (i2cWrite v s).1 = !nextAnswer s ∧
      settled (i2cWrite v s).2 =
        after (waveWrite s.i2cHalfUs.toNat v (nextAnswer s)) (takeAnswer (settled s)) := by
  have hb := i2cWriteBits_settled msbFirst { s with i2cShift := v, i2cBitcnt := 0 }
  have e : settled { s with i2cShift := v, i2cBitcnt := 0 } = settled s := rfl
  rw [e] at hb
  have hT : (i2cWriteBits msbFirst { s with i2cShift := v, i2cBitcnt := 0 }).i2cHalfUs = s.i2cHalfUs := by
    simpa using congrArg State.i2cHalfUs hb
  have hA : nextAnswer (i2cWriteBits msbFirst { s with i2cShift := v, i2cBitcnt := 0 }) = nextAnswer s := by
    rw [← nextAnswer_settled, hb, nextAnswer_after, nextAnswer_settled]
  simp only [i2cWrite, sample_eq, performAll_eq, perform_eq_after, nextAnswer_after, takeAnswer_after, after_after, halfDelay,
    hT, hA, true_and]
  generalize hu : i2cWriteBits msbFirst { s with i2cShift := v, i2cBitcnt := 0 } = u at hb hT hA
  have hs : ∀ (x : State) (k : BitVec 4), settled { x with i2cBitcnt := k } = settled x := fun _ _ => rfl
  rw [hs, settled_after, settled_takeAnswer, hb, takeAnswer_after, after_after]
  rfl

@[simp] theorem i2cWrite_halfUs (v : Byte) (s : State) : (i2cWrite v s).2.i2cHalfUs = s.i2cHalfUs := by
  simpa using congrArg State.i2cHalfUs (i2cWrite_spec v s).2

@[simp] theorem i2cWrite_rsStatus (v : Byte) (s : State) : (i2cWrite v s).2.rsStatus = s.rsStatus := by
  simpa using congrArg State.rsStatus (i2cWrite_spec v s).2

@[simp] theorem i2cWrite_par (v : Byte) (s : State) : (i2cWrite v s).2.par = s.par := by
  simpa using congrArg State.par (i2cWrite_spec v s).2

theorem i2cWrite_answers (n : Nat) (v : Byte) (s : State) :
    answers n (i2cWrite v s).2 = answers n (takeAnswer s) := by
  rw [← answers_settled, (i2cWrite_spec v s).2, answers_after, ← settled_takeAnswer, answers_settled]

theorem i2cReadBits_settled (is : List Nat) (s : State) :
    settled (i2cReadBits is s) =
      after ((answers is.length s).flatMap (waveReadBit s.i2cHalfUs.toNat)) (takeAnswers is.length (settled s)) := by
  induction is generalizing s with
  | nil => simp [i2cReadBits, answers, takeAnswers, after_nil]
  | cons i is ih =>
    rw [i2cReadBits]
    simp only [sample_eq, performAll_eq, perform_eq_after, nextAnswer_after, takeAnswer_after, after_after, halfDelay]
    rw [ih]
    generalize hops : ([MicroOp.delayUs s.i2cHalfUs.toNat, .drive .scl true, .delayUs s.i2cHalfUs.toNat] ++
      [.sample .sda (nextAnswer s)] ++ [.drive .scl false]) = ops
    have e : ∀ a b, settled { after ops (takeAnswer s) with i2cShift := a, i2cBitcnt := b } =
        after ops (takeAnswer (settled s)) := fun a b => by rw [← settled_takeAnswer]; rfl
    rw [← answers_settled, e, answers_after, takeAnswers_after, after_after, ← settled_takeAnswer, answers_settled]
    simp [answers, takeAnswers, waveReadBit, settled_takeAnswer, ← hops]

theorem i2cReadBits_i2cShift (is : List Nat) (s : State) :
    (i2cReadBits is s).i2cShift = putBits is (answers is.length s) s.i2cShift := by
  induction is generalizing s with
  | nil => simp [i2cReadBits, putBits]
  | cons i is ih =>
    rw [i2cReadBits]
    simp only [sample_eq, performAll_eq, perform_eq_after, nextAnswer_after, takeAnswer_after, after_after, halfDelay]
    rw [ih]
    simp only [List.length_cons, answers, putBits, after_i2cShift, takeAnswer_i2cShift]
    congr 1
    rw [← answers_settled, ← answers_settled is.length (takeAnswer s)]
    exact answers_after _ _ (settled (takeAnswer s))

/-- `i2c_read(a)` (R235): the eight answers, most significant first; 47 micro-operations; nothing else persistent. -/
theorem i2cRead_spec (a : Bool) (s : State) :
    (i2cRead a s).1 = BitVec.ofNat 8 (msbValue (answers 8 s)) ∧
      settled (i2cRead a s).2 =
        after (waveRead s.i2cHalfUs.toNat a (answers 8 s)) (takeAnswers 8 (settled s)) := by
  have l : msbFirst.length = 8 := rfl
  generalize hv : perform (.release .sda) { s with i2cShift := 0, i2cBitcnt := 0 } = v
  have hvs : settled v = after [.release .sda] (settled s) := by rw [← hv, perform_eq_after]; rfl
  have hva : answers 8 v = answers 8 s := by rw [← answers_settled, hvs, answers_after, answers_settled]
  have hvT : v.i2cHalfUs = s.i2cHalfUs := by simpa using congrArg State.i2cHalfUs hvs
  have hb := i2cReadBits_settled msbFirst v
  rw [l, hvs, takeAnswers_after, after_after, hva, hvT] at hb
  constructor
  · have h := i2cReadBits_i2cShift msbFirst v
    have h0 : v.i2cShift = 0 := by rw [← hv]; rfl
    rw [l, hva, h0] at h
    simp only [i2cRead, hv]
    exact h.trans (putBits_msb _ _ _ _ _ _ _ _)
  · simp only [i2cRead, hv, performAll_eq]
    have hT : (i2cReadBits msbFirst v).i2cHalfUs = s.i2cHalfUs := by simpa using congrArg State.i2cHalfUs hb
    rw [hT]
    have hs : ∀ (x : State) (k : BitVec 4), settled { x with i2cBitcnt := k } = settled x := fun _ _ => rfl
    rw [hs, settled_after, hb, after_after]
    rfl

@[simp] theorem i2cRead_halfUs (a : Bool) (s : State) : (i2cRead a s).2.i2cHalfUs = s.i2cHalfUs := by
  simpa using congrArg State.i2cHalfUs (i2cRead_spec a s).2

theorem i2cRead_answers (n : Nat) (a : Bool) (s : State) :
    answers n (i2cRead a s).2 = answers n (takeAnswers 8 s) := by
  rw [← answers_settled, (i2cRead_spec a s).2, answers_after, ← settled_takeAnswers, answers_settled]

/-! ### The bounded wait (R236) -/

theorem i2cWaitPoll_spec (s : State) :
    (i2cWaitPoll s).1 = !nextAnswer s ∧
      settled (i2cWaitPoll s).2 =
        after (if nextAnswer s then [.sample .sda true, .delayMs 1] else [.sample .sda false]) (takeAnswer (settled s)) := by
  have h : nextAnswer { s with i2cWaitcnt := s.i2cWaitcnt + 1 } = nextAnswer s := rfl
  have e : settled (takeAnswer { s with i2cWaitcnt := s.i2cWaitcnt + 1 }) = takeAnswer (settled s) := by
    rw [settled_takeAnswer]; rfl
  cases hn : nextAnswer s
  · simp only [i2cWaitPoll, sample_eq, h, hn, Bool.false_eq_true, if_false, settled_after, e, Bool.not_false, and_self]
  · simp only [i2cWaitPoll, sample_eq, h, hn, if_true, perform_eq_after, settled_after, e, after_after, Bool.not_true,
      true_and]
    rfl

/-- Polls of the wait answered by 0 after `k` failed ones. -/
theorem i2cWaitPolls_hit (k n : Nat) (s : State) (hk : k < n)
    (h : answers (k + 1) s = List.replicate k true ++ [false]) :
    (pollTimes i2cWaitPoll n s).1 = true ∧
      settled (pollTimes i2cWaitPoll n s).2 =
        after (waveWaitFails k ++ [.sample .sda false]) (takeAnswers (k + 1) (settled s)) := by
  induction k generalizing n s with
  | zero =>
    obtain ⟨n, rfl⟩ : ∃ m, n = m + 1 := ⟨n - 1, by omega⟩
    have h0 : nextAnswer s = false := by simpa [answers] using h
    have sp := i2cWaitPoll_spec s
    rw [h0] at sp
    simp only [pollTimes, sp.1, Bool.not_false, if_true, sp.2, true_and]
    simp [waveWaitFails, takeAnswers]
  | succ k ih =>
    obtain ⟨n, rfl⟩ : ∃ m, n = m + 1 := ⟨n - 1, by omega⟩
    have h2 : nextAnswer s = true ∧ answers (k + 1) (takeAnswer s) = List.replicate k true ++ [false] := by
      rw [answers, List.replicate_succ, List.cons_append] at h
      exact List.cons_eq_cons.mp h
    have sp := i2cWaitPoll_spec s
    rw [h2.1] at sp
    have hn : answers (k + 1) (i2cWaitPoll s).2 = List.replicate k true ++ [false] := by
      rw [← answers_settled, sp.2, answers_after, ← settled_takeAnswer, answers_settled]; exact h2.2
    simp only [pollTimes, sp.1, Bool.not_true, Bool.false_eq_true, if_false]
    refine ⟨(ih n _ (by omega) hn).1, ?_⟩
    rw [(ih n _ (by omega) hn).2, sp.2, takeAnswers_after, after_after]
    simp [waveWaitFails, takeAnswers]

/-- Polls of the wait that all fail. -/
theorem i2cWaitPolls_miss (n : Nat) (s : State) (h : answers n s = List.replicate n true) :
    (pollTimes i2cWaitPoll n s).1 = false ∧
      settled (pollTimes i2cWaitPoll n s).2 = after (waveWaitFails n) (takeAnswers n (settled s)) := by
  induction n generalizing s with
  | zero => simp [pollTimes, waveWaitFails, after_nil, takeAnswers]
  | succ n ih =>
    have h2 : nextAnswer s = true ∧ answers n (takeAnswer s) = List.replicate n true := by
      rw [answers, List.replicate_succ] at h
      exact List.cons_eq_cons.mp h
    have sp := i2cWaitPoll_spec s
    rw [h2.1] at sp
    have hn : answers n (i2cWaitPoll s).2 = List.replicate n true := by
      rw [← answers_settled, sp.2, answers_after, ← settled_takeAnswer, answers_settled]; exact h2.2
    simp only [pollTimes, sp.1, Bool.not_true, Bool.false_eq_true, if_false]
    refine ⟨(ih _ hn).1, ?_⟩
    rw [(ih _ hn).2, sp.2, takeAnswers_after, after_after]
    simp [waveWaitFails, takeAnswers]

/-- `i2c_wait` that succeeds after `k` failed polls, `k < 500` (R236). -/
theorem i2cWait_hit (k : Nat) (s : State) (hk : k < 500) (h : answers (k + 1) s = List.replicate k true ++ [false]) :
    (i2cWait s).1 = true ∧
      settled (i2cWait s).2 = after (waveWait k true) (takeAnswers (k + 1) (settled s)) := by
  generalize hv : perform (.release .sda) { s with i2cWaitcnt := 0 } = v
  have hvs : settled v = after [.release .sda] (settled s) := by rw [← hv, perform_eq_after]; rfl
  have hva : answers (k + 1) v = List.replicate k true ++ [false] := by
    rw [← answers_settled, hvs, answers_after, answers_settled, h]
  have sp := i2cWaitPolls_hit k Config.i2cWaitLimit v hk hva
  rw [hvs, takeAnswers_after, after_after] at sp
  simp only [i2cWait, hv]
  exact sp

/-- `i2c_wait` whose 500 polls all fail (R236). -/
theorem i2cWait_miss (s : State) (h : answers 500 s = List.replicate 500 true) :
    (i2cWait s).1 = false ∧ settled (i2cWait s).2 = after (waveWait 500 false) (takeAnswers 500 (settled s)) := by
  generalize hv : perform (.release .sda) { s with i2cWaitcnt := 0 } = v
  have hvs : settled v = after [.release .sda] (settled s) := by rw [← hv, perform_eq_after]; rfl
  have hva : answers 500 v = List.replicate 500 true := by
    rw [← answers_settled, hvs, answers_after, answers_settled, h]
  have sp := i2cWaitPolls_miss Config.i2cWaitLimit v hva
  rw [hvs, takeAnswers_after, after_after] at sp
  simp only [i2cWait, hv]
  refine ⟨sp.1, sp.2.trans ?_⟩
  simp [waveWait, Config.i2cWaitLimit]

end Sys2Proof.Machine
end

