-- ==== Sys2Proof/Laws/RegSensor.lean ====
section
/-! SUPPORT. What each transaction of unit RS does, said once, for every way it can end (spec 44_regsensor.md R272, R273,
R276). -/

namespace Sys2Proof.Machine

/-! ### The oracle's answers, split -/

theorem gives_nil (s : State) : gives s [] := rfl

theorem gives_cons (s : State) (a : Bool) (as : List Bool) :
    gives s (a :: as) ↔ nextAnswer s = a ∧ gives (takeAnswer s) as := by
  simp [gives, answers]

theorem gives_append (s : State) (xs ys : List Bool) :
    gives s (xs ++ ys) ↔ gives s xs ∧ gives (takeAnswers xs.length s) ys := by
  induction xs generalizing s with
  | nil => simp [gives_nil, takeAnswers]
  | cons x xs ih => simp [gives_cons, ih, takeAnswers, and_assoc]

/-- The oracle's answers do not depend on what else has happened to the state. -/
theorem gives_congr {s t : State} {ops : List MicroOp} (h : settled s = after ops (settled t)) (as : List Bool) :
    gives s as ↔ gives t as := by
  unfold gives
  rw [← answers_settled, h, answers_after, answers_settled]

theorem gives_of_script (as rest : List Bool) (s : State) (h : s.script = as ++ rest) : gives s as :=
  answers_script as rest s h

/-! ### Transactions -/

/-- The head of a transaction (R122): start, then the byte; acknowledged when the one answer is 0. -/
theorem rsCommand_spec (cmd : Byte) (s : State) :
    (rsCommand cmd s).1 = !nextAnswer s ∧
      settled (rsCommand cmd s).2 =
        after (waveStart s.i2cHalfUs.toNat ++ waveWrite s.i2cHalfUs.toNat cmd (nextAnswer s)) (takeAnswer (settled s)) := by
  have h := i2cWrite_spec cmd (i2cStart s)
  simp only [i2cStart_eq, nextAnswer_after, after_i2cHalfUs, settled_after, takeAnswer_after, after_after] at h
  rw [rsCommand, i2cStart_eq]
  exact h

@[simp] theorem rsCommand_halfUs (cmd : Byte) (s : State) : (rsCommand cmd s).2.i2cHalfUs = s.i2cHalfUs := by
  simpa using congrArg State.i2cHalfUs (rsCommand_spec cmd s).2

@[simp] theorem rsCommand_rsStatus (cmd : Byte) (s : State) : (rsCommand cmd s).2.rsStatus = s.rsStatus := by
  simpa using congrArg State.rsStatus (rsCommand_spec cmd s).2

@[simp] theorem rsCommand_par (cmd : Byte) (s : State) : (rsCommand cmd s).2.par = s.par := by
  simpa using congrArg State.par (rsCommand_spec cmd s).2

theorem settled_i2cStop (s : State) : settled (i2cStop s) = after (waveStop s.i2cHalfUs.toNat) (settled s) := by
  rw [i2cStop_eq, settled_after]

/-- A measurement read whose command byte is not acknowledged (R273). -/
theorem rsReadMeasurement_noAck (cmd : Byte) (store : BitVec 16 → State → State) (s : State) (h : nextAnswer s = true) :
    (rsReadMeasurement cmd store s).1 = .noAck ∧
      settled (rsReadMeasurement cmd store s).2 =
        after (waveRefused s.i2cHalfUs.toNat cmd) (takeAnswer (settled s)) := by
  have c := rsCommand_spec cmd s
  rw [h] at c
  simp only [rsReadMeasurement, c.1, Bool.not_true, Bool.false_eq_true, if_false, true_and]
  rw [settled_i2cStop, c.2, after_after, rsCommand_halfUs, waveRefused]

/-- A measurement read whose wait expires (R273). -/
theorem rsReadMeasurement_expired (cmd : Byte) (store : BitVec 16 → State → State) (s : State)
    (h : gives s (false :: List.replicate 500 true)) :
    (rsReadMeasurement cmd store s).1 = .waitTimeout ∧
      settled (rsReadMeasurement cmd store s).2 =
        after (waveMeasureExpired s.i2cHalfUs.toNat cmd) (takeAnswers 501 (settled s)) := by
  rw [gives_cons] at h
  have c := rsCommand_spec cmd s
  rw [h.1] at c
  have g : answers 500 (rsCommand cmd s).2 = List.replicate 500 true := by
    rw [← answers_settled, c.2, answers_after, ← settled_takeAnswer, answers_settled]
    have h2 := h.2
    unfold gives at h2
    rwa [List.length_replicate] at h2
  have w := i2cWait_miss _ g
  have hT : (i2cWait (rsCommand cmd s).2).2.i2cHalfUs = s.i2cHalfUs := by
    have := congrArg State.i2cHalfUs w.2
    simpa using this
  simp only [rsReadMeasurement, c.1, w.1, Bool.not_false, Bool.false_eq_true, if_true, if_false, true_and]
  rw [settled_i2cStop, w.2, c.2, hT, takeAnswers_after, after_after, after_after, waveMeasureExpired]
  rw [show takeAnswers 501 (settled s) = takeAnswers 500 (takeAnswers 1 (settled s)) from
    takeAnswers_add 1 500 _]
  exact congrArg _ (congrArg (takeAnswers 500) rfl)

/-- A measurement read that succeeds: acknowledged, `k < 500` failed polls, then the two bytes (R273). -/
theorem rsReadMeasurement_ok (cmd : Byte) (store : BitVec 16 → State → State) (s : State) (k : Nat) (hi lo : List Bool)
    (hk : k < 500) (hh : hi.length = 8) (hl : lo.length = 8)
    (h : gives s (false :: (List.replicate k true ++ [false] ++ hi ++ lo)))
    (hstore : ∀ v t, settled (store v t) = store v (settled t) ∧ (store v t).i2cHalfUs = t.i2cHalfUs) :
    (rsReadMeasurement cmd store s).1 = .ok ∧
      ∃ u, settled u = after (waveStart s.i2cHalfUs.toNat ++ waveWrite s.i2cHalfUs.toNat cmd false ++ waveWait k true ++
              waveRead s.i2cHalfUs.toNat true hi ++ waveRead s.i2cHalfUs.toNat false lo)
            (takeAnswers (k + 18) (settled s)) ∧
        settled (rsReadMeasurement cmd store s).2 = after (waveStop s.i2cHalfUs.toNat)
          (store (word16 (BitVec.ofNat 8 (msbValue hi)) (BitVec.ofNat 8 (msbValue lo))) (settled u)) := by
  rw [gives_cons, gives_append, gives_append] at h
  obtain ⟨h0, ⟨h1, h2⟩, h3⟩ := h
  have len1 : (List.replicate k true ++ [false]).length = k + 1 := by simp
  rw [len1] at h2
  rw [show (List.replicate k true ++ [false] ++ hi).length = k + 1 + 8 by simp [hh]] at h3
  have c := rsCommand_spec cmd s
  rw [h0] at c
  have g1 : answers (k + 1) (rsCommand cmd s).2 = List.replicate k true ++ [false] := by
    rw [← answers_settled, c.2, answers_after, ← settled_takeAnswer, answers_settled]
    unfold gives at h1; rw [len1] at h1; exact h1
  have w := i2cWait_hit k _ hk g1
  rw [c.2, takeAnswers_after, after_after] at w
  generalize hw : i2cWait (rsCommand cmd s).2 = W at w
  have hTw : W.2.i2cHalfUs = s.i2cHalfUs := by simpa using congrArg State.i2cHalfUs w.2
  have g2 : answers 8 W.2 = hi := by
    rw [← answers_settled, w.2, answers_after, ← settled_takeAnswer, ← settled_takeAnswers, answers_settled]
    unfold gives at h2; rw [hh] at h2; exact h2
  have r1 := i2cRead_spec true W.2
  rw [g2, hTw, w.2, takeAnswers_after, after_after] at r1
  have hTr : (i2cRead true W.2).2.i2cHalfUs = s.i2cHalfUs := by simp [hTw]
  have g3 : answers 8 (i2cRead true W.2).2 = lo := by
    rw [i2cRead_answers, ← answers_settled, settled_takeAnswers, w.2, takeAnswers_after, answers_after,
      ← settled_takeAnswer, ← settled_takeAnswers, ← settled_takeAnswers, answers_settled, ← takeAnswers_add]
    unfold gives at h3; rw [hl] at h3; exact h3
  have r2 := i2cRead_spec false (i2cRead true W.2).2
  rw [g3, hTr, r1.2, takeAnswers_after, after_after] at r2
  have e : rsReadMeasurement cmd store s =
      (.ok, i2cStop (store (word16 (i2cRead true W.2).1 (i2cRead false (i2cRead true W.2).2).1)
        (i2cRead false (i2cRead true W.2).2).2)) := by
    simp only [rsReadMeasurement, c.1, hw, w.1, Bool.not_false, if_true]
  refine ⟨by rw [e], (i2cRead false (i2cRead true W.2).2).2, ?_, ?_⟩
  · rw [r2.2]
    rw [show takeAnswers 8 (takeAnswers 8 (takeAnswers (k + 1) (takeAnswer (settled s)))) =
        takeAnswers (k + 18) (settled s) by
      rw [show k + 18 = 1 + (k + 1 + (8 + 8)) by omega, takeAnswers_add 1, takeAnswers_add (k + 1), takeAnswers_add 8]; rfl]
  · rw [e]
    simp only [settled_i2cStop, (hstore _ _).2, i2cRead_halfUs, hTw, (hstore _ _).1, r1.1, r2.1]

/-- A status read whose command byte is not acknowledged (R273). -/
theorem rsReadStatus_noAck (s : State) (h : nextAnswer s = true) :
    (rsReadStatus s).1 = .noAck ∧
      settled (rsReadStatus s).2 = after (waveRefused s.i2cHalfUs.toNat 0x07) (takeAnswer (settled s)) := by
  have c := rsCommand_spec Config.rsReadRegister s
  rw [h] at c
  simp only [rsReadStatus, c.1, Bool.not_true, Bool.false_eq_true, if_false, true_and]
  rw [settled_i2cStop, c.2, after_after, rsCommand_halfUs, waveRefused]
  rfl

/-- A status read that succeeds: one byte, and it replaces the cached register (R273). -/
theorem rsReadStatus_ok (s : State) (bits : List Bool) (hb : bits.length = 8) (h : gives s (false :: bits)) :
    (rsReadStatus s).1 = .ok ∧
      settled (rsReadStatus s).2 =
        { after (waveStatusRead s.i2cHalfUs.toNat bits) (takeAnswers 9 (settled s)) with
          rsStatus := BitVec.ofNat 8 (msbValue bits) } := by
  rw [gives_cons] at h
  have c := rsCommand_spec Config.rsReadRegister s
  rw [h.1] at c
  have g : answers 8 (rsCommand Config.rsReadRegister s).2 = bits := by
    rw [← answers_settled, c.2, answers_after, ← settled_takeAnswer, answers_settled, ← hb]
    exact h.2
  have r := i2cRead_spec false (rsCommand Config.rsReadRegister s).2
  rw [g, rsCommand_halfUs, c.2, takeAnswers_after, after_after] at r
  have hT : (i2cRead false (rsCommand Config.rsReadRegister s).2).2.i2cHalfUs = s.i2cHalfUs := by simp
  unfold rsReadStatus
  generalize rsCommand Config.rsReadRegister s = w at c r hT
  obtain ⟨w1, w2⟩ := w
  dsimp only at c r hT ⊢
  generalize i2cRead false w2 = d at r hT ⊢
  obtain ⟨d1, d2⟩ := d
  dsimp only at r hT ⊢
  have hs : ∀ v, settled { d2 with rsStatus := v } = { settled d2 with rsStatus := v } := fun _ => rfl
  simp only [c.1, Bool.not_false, if_true, true_and]
  rw [settled_i2cStop, hs, r.1, r.2, show takeAnswers 9 (settled s) = takeAnswers 8 (takeAnswer (settled s)) from rfl,
    waveStatusRead, ← after_after _ (waveStop _), hT]
  rfl

/-- A register write whose command byte is not acknowledged (R276). -/
theorem rsWritereg_noAck (s : State) (h : nextAnswer s = true) :
    (rsWritereg s).1 = .noAck ∧
      settled (rsWritereg s).2 = after (waveRefused s.i2cHalfUs.toNat 0x06) (takeAnswer (settled s)) := by
  have c := rsCommand_spec Config.rsWriteRegister s
  rw [h] at c
  simp only [rsWritereg, c.1, Bool.not_true, Bool.false_eq_true, if_false, true_and]
  rw [settled_i2cStop, c.2, after_after, rsCommand_halfUs, waveRefused]
  rfl

/-- A register write whose command byte is acknowledged, and whose flags byte answers `a` (R276). -/
theorem rsWritereg_sent (s : State) (a : Bool) (h : gives s [false, a]) :
    (rsWritereg s).1 = (if a then .noAck else .ok) ∧
      settled (rsWritereg s).2 =
        after (waveRegisterWrite s.i2cHalfUs.toNat (s.rsStatus &&& 0x07) a) (takeAnswers 2 (settled s)) := by
  rw [gives_cons, gives_cons] at h
  have c := rsCommand_spec Config.rsWriteRegister s
  rw [h.1] at c
  have g : nextAnswer (rsCommand Config.rsWriteRegister s).2 = a := by
    rw [← nextAnswer_settled, c.2, nextAnswer_after, ← settled_takeAnswer, nextAnswer_settled]
    exact h.2.1
  have r := i2cWrite_spec (sentFlags s.rsStatus) (rsCommand Config.rsWriteRegister s).2
  rw [g, rsCommand_halfUs, c.2, takeAnswer_after, after_after] at r
  simp only [rsWritereg, c.1, Bool.not_false, if_true, rsCommand_rsStatus, r.1]
  refine ⟨by cases a <;> rfl, ?_⟩
  rw [settled_i2cStop, r.2, after_after, i2cWrite_halfUs, rsCommand_halfUs, waveRegisterWrite]
  rfl

end Sys2Proof.Machine
end

