-- ==== Sys2Proof/Laws/Commands.lean ====
section
/-! SUPPORT. From what the body of a command does to what the command does: the acceptance at its start and the response at
its end, said once (spec 10_state.md R23, 00_scope.md R16). -/

namespace Sys2Proof.Machine

/-! ### Acceptance and the oracle -/

theorem takeAnswer_accept (s : State) : takeAnswer (accept s) = accept (takeAnswer s) := by
  cases h : s.script <;> simp [takeAnswer, accept, h]

theorem takeAnswers_accept (n : Nat) (s : State) : takeAnswers n (accept s) = accept (takeAnswers n s) := by
  induction n generalizing s with
  | zero => rfl
  | succ n ih => simp only [takeAnswers, takeAnswer_accept, ih]

theorem takeAnswer_beginWire (s : State) : takeAnswer (beginWire s) = beginWire (takeAnswer s) := by
  cases h : s.script <;> simp [takeAnswer, beginWire, h]

theorem takeAnswers_beginWire (n : Nat) (s : State) : takeAnswers n (beginWire s) = beginWire (takeAnswers n s) := by
  induction n generalizing s with
  | zero => rfl
  | succ n ih => simp only [takeAnswers, takeAnswer_beginWire, ih]

@[simp] theorem nextAnswer_accept (s : State) : nextAnswer (accept s) = nextAnswer s := rfl

@[simp] theorem nextAnswer_beginWire (s : State) : nextAnswer (beginWire s) = nextAnswer s := rfl

theorem answers_accept (n : Nat) (s : State) : answers n (accept s) = answers n s := by
  induction n generalizing s with
  | zero => rfl
  | succ n ih => simp only [answers, nextAnswer_accept, takeAnswer_accept, ih]

@[simp] theorem gives_accept (s : State) (as : List Bool) : gives (accept s) as ↔ gives s as := by
  unfold gives; rw [answers_accept]

theorem settled_accept (s : State) : settled (accept s) = accept (settled s) := rfl

/-! ### Response -/

/-- A body that runs `ops` on the accepted state, taking `n` answers, and then responds: the command's whole effect. -/
theorem respond_of_body {s u : State} {ops : List MicroOp} {n : Nat} (st : Status) (data : BitVec 64)
    (h : settled u = after ops (takeAnswers n (accept (settled s)))) :
    settled (respond st data u) = settled (answered st data (ran ops n s)) := by
  rw [settled_respond, h, takeAnswers_accept, ← settled_takeAnswers]
  rfl

/-- The same for a body that ends waiting. -/
theorem wait_of_body {s u : State} {ops : List MicroOp} {n : Nat} (pos : Seq)
    (h : settled u = after ops (takeAnswers n (accept (settled s)))) :
    settled { u with seq := pos } = settled (waitingAt pos (ran ops n s)) := by
  have e : settled { u with seq := pos } = { settled u with seq := pos } := rfl
  rw [e, h, takeAnswers_accept, ← settled_takeAnswers]
  rfl

/-- The same for a wire constant, which ends without a response. -/
theorem ran_of_wire {s u : State} {ops : List MicroOp} {n : Nat}
    (h : settled u = after ops (takeAnswers n (beginWire (settled s)))) : settled u = settled (ran ops n s) := by
  rw [h, takeAnswers_beginWire, ← settled_takeAnswers]
  rfl

end Sys2Proof.Machine
end

