-- ==== Sys2Proof/Laws/Decode.lean ====
section
/-! SUPPORT. The fields of an encoded word read back (spec 30_encoding.md R100, R101), each said once. -/

namespace Sys2Proof

theorem unitOf_commandWord (u o : BitVec 4) (a : BitVec 24) : unitOf (commandWord u o a) = u := by
  apply BitVec.eq_of_getLsbD_eq
  intro i hi
  rw [unitOf, BitVec.getLsbD_extractLsb']
  show (decide (i < 4) && (u ++ o ++ a : BitVec (4 + 4 + 24)).getLsbD (28 + i)) = _
  rw [BitVec.getLsbD_append, BitVec.getLsbD_append, if_neg (by omega), if_neg (by omega),
    show 28 + i - 24 - 4 = i by omega]
  simp [hi]

theorem opOf_commandWord (u o : BitVec 4) (a : BitVec 24) : opOf (commandWord u o a) = o := by
  apply BitVec.eq_of_getLsbD_eq
  intro i hi
  rw [opOf, BitVec.getLsbD_extractLsb']
  show (decide (i < 4) && (u ++ o ++ a : BitVec (4 + 4 + 24)).getLsbD (24 + i)) = _
  rw [BitVec.getLsbD_append, BitVec.getLsbD_append, if_neg (by omega), if_pos (by omega),
    show 24 + i - 24 = i by omega]
  simp [hi]

theorem argOf_commandWord (u o : BitVec 4) (a : BitVec 24) : argOf (commandWord u o a) = a := by
  apply BitVec.eq_of_getLsbD_eq
  intro i hi
  rw [argOf, BitVec.getLsbD_extractLsb']
  show (decide (i < 24) && (u ++ o ++ a : BitVec (4 + 4 + 24)).getLsbD (0 + i)) = _
  rw [BitVec.getLsbD_append, if_pos (by omega), Nat.zero_add]
  simp [hi]

/-- A word is its three fields. -/
theorem commandWord_fields (w : Word) : commandWord (unitOf w) (opOf w) (argOf w) = w := by
  apply BitVec.eq_of_getLsbD_eq
  intro i hi
  show (unitOf w ++ opOf w ++ argOf w : BitVec (4 + 4 + 24)).getLsbD i = _
  rw [BitVec.getLsbD_append, BitVec.getLsbD_append, unitOf, opOf, argOf]
  split
  · simp; omega
  · split
    · rw [BitVec.getLsbD_extractLsb', show 24 + (i - 24) = i by omega]; simp; omega
    · rw [BitVec.getLsbD_extractLsb', show 28 + (i - 24 - 4) = i by omega]; simp; omega

theorem bitOperand_bitArg (b : Bool) (f : Bool → Instr) : bitOperand (bitArg b) f = .ok (f b) := by
  cases b <;> simp [bitOperand, bitArg]

theorem byteOperand_setWidth (v : Byte) (f : Byte → Instr) : byteOperand (v.setWidth 24) f = .ok (f v) := by
  have h1 : (v.setWidth 24).extractLsb' 8 16 = 0 := by ext i hi; simp
  have h2 : (v.setWidth 24).extractLsb' 0 8 = v := by ext i hi; simp [BitVec.getLsbD_eq_getElem hi]; intro; omega
  simp only [byteOperand, h1, h2, if_true]

theorem resOperand_setWidth (v : BitVec 2) (f : BitVec 2 → Instr) : resOperand (v.setWidth 24) f = .ok (f v) := by
  have h1 : (v.setWidth 24).extractLsb' 2 22 = 0 := by ext i hi; simp
  have h2 : (v.setWidth 24).extractLsb' 0 2 = v := by ext i hi; simp [BitVec.getLsbD_eq_getElem hi]; intro; omega
  simp only [resOperand, h1, h2, if_true]

/-! ### What each operand form can answer -/

theorem noOperand_ok {a : BitVec 24} {i j : Instr} (h : noOperand a i = .ok j) : a = 0 ∧ j = i := by
  unfold noOperand at h; split at h <;> simp_all

theorem bitOperand_ok {a : BitVec 24} {f : Bool → Instr} {j : Instr} (h : bitOperand a f = .ok j) :
    ∃ b, a = bitArg b ∧ j = f b := by
  unfold bitOperand at h
  split at h
  · rename_i h0
    refine ⟨a.getLsbD 0, ?_, by simpa using h.symm⟩
    apply BitVec.eq_of_getLsbD_eq
    intro i hi
    rcases Nat.eq_zero_or_pos i with rfl | hp
    · cases a.getLsbD 0 <;> rfl
    · have := congrArg (fun x => x.getLsbD (i - 1)) h0
      rw [BitVec.getLsbD_extractLsb', show 1 + (i - 1) = i by omega] at this
      have e : a.getLsbD i = false := by simpa [show i - 1 < 23 by omega] using this
      rw [e]; cases a.getLsbD 0 <;> simp [bitArg]; omega
  · cases h

theorem byteOperand_ok {a : BitVec 24} {f : Byte → Instr} {j : Instr} (h : byteOperand a f = .ok j) :
    ∃ v, a = v.setWidth 24 ∧ j = f v := by
  unfold byteOperand at h
  split at h
  · rename_i h0
    refine ⟨a.extractLsb' 0 8, ?_, by simpa using h.symm⟩
    apply BitVec.eq_of_getLsbD_eq
    intro i hi
    by_cases hp : i < 8
    · simp [hi, hp]
    · have := congrArg (fun x => x.getLsbD (i - 8)) h0
      rw [BitVec.getLsbD_extractLsb', show 8 + (i - 8) = i by omega] at this
      have e : a.getLsbD i = false := by simpa [show i - 8 < 16 by omega] using this
      rw [e]; simp [hp]
  · cases h

theorem resOperand_ok {a : BitVec 24} {f : BitVec 2 → Instr} {j : Instr} (h : resOperand a f = .ok j) :
    ∃ v, a = v.setWidth 24 ∧ j = f v := by
  unfold resOperand at h
  split at h
  · rename_i h0
    refine ⟨a.extractLsb' 0 2, ?_, by simpa using h.symm⟩
    apply BitVec.eq_of_getLsbD_eq
    intro i hi
    by_cases hp : i < 2
    · simp [hi, hp]
    · have := congrArg (fun x => x.getLsbD (i - 2)) h0
      rw [BitVec.getLsbD_extractLsb', show 2 + (i - 2) = i by omega] at this
      have e : a.getLsbD i = false := by simpa [show i - 2 < 22 by omega] using this
      rw [e]; simp [hp]
  · cases h

end Sys2Proof
end

