-- ==== Sys2Proof/Laws/PulseWidth.lean ====
section
/-! SUPPORT. What the wait loops and the bit procedure of unit PW do, each said once (spec 45_pulsewidth.md R322, R323). -/

namespace Sys2Proof.Machine

/-- `s` with the frame register and its bit counter set. -/
def State.shifted (s : State) (f : BitVec 40) (n : BitVec 6) : State := { s with pwFrame := f, pwBitcnt := n }

/-- `s` with this script. -/
def State.scripted (s : State) (as : List Bool) : State := { s with script := as }

@[simp] theorem scripted_script (s : State) (as : List Bool) : (s.scripted as).script = as := rfl
@[simp] theorem scripted_par (s : State) (as : List Bool) : (s.scripted as).par = s.par := rfl
@[simp] theorem scripted_pwFrame (s : State) (as : List Bool) : (s.scripted as).pwFrame = s.pwFrame := rfl
@[simp] theorem scripted_pwBitcnt (s : State) (as : List Bool) : (s.scripted as).pwBitcnt = s.pwBitcnt := rfl
@[simp] theorem scripted_scripted (s : State) (as bs : List Bool) : (s.scripted as).scripted bs = s.scripted bs := rfl
@[simp] theorem shifted_script (s : State) (f : BitVec 40) (n : BitVec 6) : (s.shifted f n).script = s.script := rfl
@[simp] theorem shifted_par (s : State) (f : BitVec 40) (n : BitVec 6) : (s.shifted f n).par = s.par := rfl
@[simp] theorem shifted_pwFrame (s : State) (f : BitVec 40) (n : BitVec 6) : (s.shifted f n).pwFrame = f := rfl
@[simp] theorem shifted_pwBitcnt (s : State) (f : BitVec 40) (n : BitVec 6) : (s.shifted f n).pwBitcnt = n := rfl
@[simp] theorem shifted_shifted (s : State) (f g : BitVec 40) (n m : BitVec 6) :
    (s.shifted f n).shifted g m = s.shifted g m := rfl
@[simp] theorem settled_shifted (s : State) (f : BitVec 40) (n : BitVec 6) : settled (s.shifted f n) = settled s := rfl

theorem scripted_after (ops : List MicroOp) (s : State) (as : List Bool) :
    (after ops s).scripted as = after ops (s.scripted as) := rfl

theorem shifted_after (ops : List MicroOp) (s : State) (f : BitVec 40) (n : BitVec 6) :
    (after ops s).shifted f n = after ops (s.shifted f n) := rfl

theorem shifted_scripted (s : State) (f : BitVec 40) (n : BitVec 6) (as : List Bool) :
    (s.shifted f n).scripted as = (s.scripted as).shifted f n := rfl

theorem takeAnswer_scripted (s : State) (a : Bool) (as : List Bool) : takeAnswer (s.scripted (a :: as)) = s.scripted as := rfl

theorem nextAnswer_scripted (s : State) (a : Bool) (as : List Bool) : nextAnswer (s.scripted (a :: as)) = a := rfl

/-- One turn of a wait loop (R322): one answer; left on level `v`, else one poll delay. -/
theorem pwWaitTurn_eq (v : Bool) (s : State) :
    pwWaitTurn v s =
      if nextAnswer s = v then (true, after [.sample .pwd v] (takeAnswer s))
      else (false, after [.sample .pwd (!v), .delayUs s.par.pwPollUs] (takeAnswer s)) := by
  simp only [pwWaitTurn, sample_eq]
  by_cases h : nextAnswer s = v
  · simp [h]
  · have h' : nextAnswer s = !v := by cases v <;> simp_all
    have hn : ¬ ((!v) = v) := by cases v <;> simp
    rw [h', if_neg hn, if_neg hn, perform_eq_after, after_after]
    rfl

/-- A wait loop that sees level `v` after `k` polls that do not, within its turns. -/
theorem pollTimes_pwWait_hit (v : Bool) (k n : Nat) (s : State) (hk : k < n)
    (h : answers (k + 1) s = List.replicate k (!v) ++ [v]) :
    pollTimes (pwWaitTurn v) n s =
      (true, after (wavePwFails s.par (!v) k ++ [.sample .pwd v]) (takeAnswers (k + 1) s)) := by
  induction k generalizing n s with
  | zero =>
    obtain ⟨n, rfl⟩ : ∃ m, n = m + 1 := ⟨n - 1, by omega⟩
    have h0 : nextAnswer s = v := by simpa [answers] using h
    simp [pollTimes, pwWaitTurn_eq, h0, takeAnswers, wavePwFails]
  | succ k ih =>
    obtain ⟨n, rfl⟩ : ∃ m, n = m + 1 := ⟨n - 1, by omega⟩
    have h2 : nextAnswer s = (!v) ∧ answers (k + 1) (takeAnswer s) = List.replicate k (!v) ++ [v] := by
      rw [answers, List.replicate_succ, List.cons_append] at h
      exact List.cons_eq_cons.mp h
    have hn : ¬ ((!v) = v) := by cases v <;> simp
    rw [pollTimes]
    simp only [pwWaitTurn_eq, h2.1, if_neg hn, Bool.false_eq_true, if_false]
    rw [ih n _ (by omega) (by rw [answers_after]; exact h2.2), takeAnswers_after, after_after]
    simp [wavePwFails, takeAnswers]

/-- A wait loop that never sees level `v` in its turns. -/
theorem pollTimes_pwWait_miss (v : Bool) (n : Nat) (s : State) (h : answers n s = List.replicate n (!v)) :
    pollTimes (pwWaitTurn v) n s = (false, after (wavePwFails s.par (!v) n) (takeAnswers n s)) := by
  induction n generalizing s with
  | zero => simp [pollTimes, wavePwFails, after_nil, takeAnswers]
  | succ n ih =>
    have h2 : nextAnswer s = (!v) ∧ answers n (takeAnswer s) = List.replicate n (!v) := by
      rw [answers, List.replicate_succ] at h
      exact List.cons_eq_cons.mp h
    have hn : ¬ ((!v) = v) := by cases v <;> simp
    rw [pollTimes]
    simp only [pwWaitTurn_eq, h2.1, if_neg hn, Bool.false_eq_true, if_false]
    rw [ih _ (by rw [answers_after]; exact h2.2), takeAnswers_after, after_after]
    simp [wavePwFails, takeAnswers]

/-- The turns a `loop[LIMIT]` may take (R17; without a limit, the model's own bound, log 3). -/
theorem poll_eq (body : State → Bool × State) (limit : Option Nat) (s : State) :
    poll body limit s =
      let r := pollTimes body (limit.getD (max 1 s.script.length)) s
      (if r.1 then .done else if limit.isSome then .limit else .waiting, r.2) := by
  cases limit <;> rfl

/-- A scripted answer of level `v` after `k` others is seen, whatever the limit allows. -/
theorem poll_pwWait_hit (v : Bool) (k : Nat) (s : State) (rest : List Bool)
    (hk : withinLimit s.par.pwPollLimit k = true) (h : s.script = List.replicate k (!v) ++ v :: rest) :
    poll (pwWaitTurn v) s.par.pwPollLimit s =
      (.done, after (wavePwFails s.par (!v) k ++ [.sample .pwd v]) (s.scripted rest)) := by
  have h' : s.script = (List.replicate k (!v) ++ [v]) ++ rest := by simp [h]
  have ha := answers_script _ rest s h'
  have ht := takeAnswers_script _ rest s h'
  rw [List.length_append, List.length_replicate, List.length_singleton] at ha ht
  have hn : k < s.par.pwPollLimit.getD (max 1 s.script.length) := by
    cases hl : s.par.pwPollLimit with
    | none => simp [h]
    | some n => simpa [hl, withinLimit] using hk
  rw [poll_eq, pollTimes_pwWait_hit v k _ s hn ha, ht]
  rfl

/-- The end of a bit (R322, R323): one answer, shifted into the frame, and counted. -/
theorem pwDecodeBit_eq (s : State) :
    pwDecodeBit s =
      (after [.delayUs s.par.pwTDecodeUs, .sample .pwd (nextAnswer s)] (takeAnswer s)).shifted
        (shiftIn s.pwFrame (nextAnswer s)) (s.pwBitcnt + 1) := by
  simp [pwDecodeBit, sample_eq, perform_eq_after, nextAnswer_after, takeAnswer_after, after_after, State.shifted]

/-- The second loop of a bit, left by its break, and the end of the bit. -/
theorem pwHighPhase_done {s t : State} (h : poll (pwWaitTurn false) s.par.pwPollLimit s = (.done, t)) :
    pwHighPhase s = (.done, pwDecodeBit t) := by
  rw [pwHighPhase, h]

/-- The first loop of a bit, left by its break, and the rest of the bit. -/
theorem pwBit_done {s t : State} (h : poll (pwWaitTurn true) s.par.pwPollLimit s = (.done, t)) :
    pwBit s = pwHighPhase t := by
  rw [pwBit, h]

/-- A whole `pw_bit` on a pulse within the limits (R322). -/
theorem pwBit_pulse (u : PwPulse) (s : State) (rest : List Bool)
    (hl : withinLimit s.par.pwPollLimit u.lows = true) (hh : withinLimit s.par.pwPollLimit u.highs = true)
    (h : s.script = u.answers ++ rest) :
    pwBit s =
      (.done, (after (wavePwBit s.par u) (s.scripted rest)).shifted (shiftIn s.pwFrame u.bit) (s.pwBitcnt + 1)) := by
  have e1 := poll_pwWait_hit true u.lows s (List.replicate u.highs true ++ false :: u.bit :: rest) hl
    (by simp [h, PwPulse.answers])
  have e2 := poll_pwWait_hit false u.highs
    (after (wavePwFails s.par false u.lows ++ [.sample .pwd true])
      (s.scripted (List.replicate u.highs true ++ false :: u.bit :: rest))) (u.bit :: rest) hh rfl
  rw [pwBit_done e1, Bool.not_true, pwHighPhase_done e2, scripted_after, scripted_scripted, pwDecodeBit_eq]
  simp only [nextAnswer_after, takeAnswer_after, nextAnswer_scripted, takeAnswer_scripted, after_after, after_par,
    after_pwFrame, after_pwBitcnt, scripted_par, scripted_pwFrame, scripted_pwBitcnt]
  simp [wavePwBit]

/-- The bits of a frame, one pulse each (R323). -/
theorem pwBits_pulses (us : List PwPulse) (n : Nat) (s : State) (rest : List Bool)
    (hu : ∀ u ∈ us, withinLimit s.par.pwPollLimit u.lows = true ∧ withinLimit s.par.pwPollLimit u.highs = true)
    (h : s.script = us.flatMap PwPulse.answers ++ rest) :
    pwBits (us.length + n) s =
      pwBits n ((after (us.flatMap (wavePwBit s.par)) (s.scripted rest)).shifted
        (us.foldl (fun f u => shiftIn f u.bit) s.pwFrame) (s.pwBitcnt + BitVec.ofNat 6 us.length)) := by
  induction us generalizing s with
  | nil =>
    have e : s.scripted rest = s := by simp at h; rw [State.scripted, ← h]
    have e2 : s.shifted s.pwFrame (s.pwBitcnt + BitVec.ofNat 6 0) = s := by
      rw [BitVec.add_zero s.pwBitcnt]; rfl
    simp only [List.length_nil, Nat.zero_add, List.flatMap_nil, after_nil, List.foldl_nil, e]
    exact congrArg (pwBits n) e2.symm
  | cons u us ih =>
    have hu' := hu u (by simp)
    have e := pwBit_pulse u s (us.flatMap PwPulse.answers ++ rest) hu'.1 hu'.2 (by simp [h])
    rw [show (u :: us).length + n = (us.length + n) + 1 by simp; omega, pwBits, e]
    change pwBits (us.length + n) ((after _ (s.scripted _)).shifted _ _) = _
    rw [ih ((after (wavePwBit s.par u) (s.scripted (us.flatMap PwPulse.answers ++ rest))).shifted
      (shiftIn s.pwFrame u.bit) (s.pwBitcnt + 1)) (fun v hv => hu v (by simp [hv])) rfl]
    have hb : s.pwBitcnt + 1 + BitVec.ofNat 6 us.length = s.pwBitcnt + BitVec.ofNat 6 (us.length + 1) := by
      rw [BitVec.add_assoc, BitVec.ofNat_add, BitVec.add_comm (1 : BitVec 6)]
      rfl
    simp only [shifted_par, after_par, scripted_par, shifted_pwFrame, shifted_pwBitcnt, shifted_scripted, scripted_after,
      scripted_scripted, shifted_after, shifted_shifted, after_after, after_pwFrame, after_pwBitcnt, List.flatMap_cons,
      List.foldl_cons, List.length_cons, hb]

end Sys2Proof.Machine
end

