-- ==== Sys2Proof/Laws/Frame.lean ====
section
/-! SUPPORT. What every procedure does to the lines, the time and the oracle, said once: it performs some micro-operations on
its own lines, in order, each sample on a line the block has released and answered by the oracle's next answer, and leaves
the parameters alone (spec 00_scope.md R12 to R14, 10_state.md R24, R27, R42). -/

namespace Sys2Proof.Machine

/-! ### The oracle looks at two fields only -/

theorem takeAnswer_oracle {s t : State} (h : s.script = t.script) (k : s.freeCount = t.freeCount) :
    (takeAnswer s).script = (takeAnswer t).script ∧ (takeAnswer s).freeCount = (takeAnswer t).freeCount := by
  cases e : t.script <;> simp [takeAnswer, h, e, k]

theorem takeAnswers_oracle (n : Nat) {s t : State} (h : s.script = t.script) (k : s.freeCount = t.freeCount) :
    (takeAnswers n s).script = (takeAnswers n t).script ∧ (takeAnswers n s).freeCount = (takeAnswers n t).freeCount := by
  induction n generalizing s t with
  | zero => exact ⟨h, k⟩
  | succ n ih => exact ih (takeAnswer_oracle h k).1 (takeAnswer_oracle h k).2

theorem answers_oracle (n : Nat) {s t : State} (h : s.script = t.script) (k : s.freeCount = t.freeCount) :
    answers n s = answers n t := by
  induction n generalizing s t with
  | zero => rfl
  | succ n ih =>
    simp only [answers, nextAnswer_congr h k]
    rw [ih (takeAnswer_oracle h k).1 (takeAnswer_oracle h k).2]

/-! ### Lists of micro-operations -/

theorem answersIn_append (xs ys : List MicroOp) : answersIn (xs ++ ys) = answersIn xs ++ answersIn ys := by
  induction xs with
  | nil => rfl
  | cons x xs ih => cases x <;> simp [answersIn, ih]

theorem samplesReleased_append (xs ys : List MicroOp) (p : Pins) :
    samplesReleased (xs ++ ys) p = (samplesReleased xs p && samplesReleased ys (pinsAfter xs p)) := by
  induction xs generalizing p with
  | nil => simp [samplesReleased, pinsAfter]
  | cons x xs ih => simp [samplesReleased, pinsAfter, ih, Bool.and_assoc]

theorem onlyLines_append (ls : List Line) (xs ys : List MicroOp) :
    onlyLines ls (xs ++ ys) = (onlyLines ls xs && onlyLines ls ys) := by
  simp [onlyLines]

/-! ### The relation -/

/-- From `s` to `t` the block performed micro-operations on the lines `ls`, and the oracle answered their samples; `t` may
differ from `s` in other fields, but not in the parameters. With `r`, every sample came on a released line. -/
def Did (r : Bool) (ls : List Line) (s t : State) : Prop :=
  ∃ ops, t.trace = s.trace ++ ops ∧ t.pins = pinsAfter ops s.pins ∧ t.time = s.time + usOf ops ∧
    gives s (answersIn ops) ∧ t.script = (takeAnswers (answersIn ops).length s).script ∧
    t.freeCount = (takeAnswers (answersIn ops).length s).freeCount ∧ onlyLines ls ops = true ∧
    (r = true → samplesReleased ops s.pins = true) ∧ t.par = s.par

theorem Did.refl {r : Bool} (ls : List Line) (s : State) : Did r ls s s :=
  ⟨[], by simp, rfl, rfl, rfl, rfl, rfl, rfl, fun _ => rfl, rfl⟩

theorem Did.trans {r : Bool} {ls : List Line} {s t u : State} (h : Did r ls s t) (k : Did r ls t u) : Did r ls s u := by
  obtain ⟨xs, t1, p1, m1, g1, s1, f1, l1, r1, a1⟩ := h
  obtain ⟨ys, t2, p2, m2, g2, s2, f2, l2, r2, a2⟩ := k
  have o := takeAnswers_oracle (answersIn ys).length s1 f1
  refine ⟨xs ++ ys, by rw [t2, t1, List.append_assoc], by rw [p2, p1, pinsAfter_append],
    by rw [m2, m1, usOf_append, Nat.add_assoc], ?_, ?_, ?_, by rw [onlyLines_append, l1, l2]; rfl,
    fun e => by rw [samplesReleased_append, r1 e, ← p1, r2 e]; rfl, a2.trans a1⟩
  · rw [answersIn_append, gives_append]
    refine ⟨g1, ?_⟩
    unfold gives at g2 ⊢
    rw [← answers_oracle _ s1 f1]; exact g2
  · rw [answersIn_append, List.length_append, takeAnswers_add, ← o.1]; exact s2
  · rw [answersIn_append, List.length_append, takeAnswers_add, ← o.2]; exact f2

theorem Did.of_true {r : Bool} {ls : List Line} {s t : State} (h : Did true ls s t) : Did r ls s t := by
  obtain ⟨ops, h1, h2, h3, h4, h5, h6, h7, h8, h9⟩ := h
  exact ⟨ops, h1, h2, h3, h4, h5, h6, h7, fun _ => h8 rfl, h9⟩

/-- A change of other fields only. -/
theorem Did.upd {r : Bool} {ls : List Line} {s t : State}
    (h : (t.trace, t.pins, t.time, t.script, t.freeCount, t.par) =
      (s.trace, s.pins, s.time, s.script, s.freeCount, s.par)) : Did r ls s t := by
  simp only [Prod.mk.injEq] at h
  obtain ⟨h1, h2, h3, h4, h5, h6⟩ := h
  exact ⟨[], by simp [h1], h2, h3, rfl, h4, h5, rfl, fun _ => rfl, h6⟩

theorem Did.ret {r : Bool} {ls : List Line} (data : BitVec 64) (s : State) : Did r ls s (Machine.ret data s) := .upd rfl

theorem Did.raise {r : Bool} {ls : List Line} (st : Status) (data : BitVec 64) (s : State) : Did r ls s (Machine.raise st data s) :=
  .upd rfl

theorem Did.respond {r : Bool} {ls : List Line} (st : Status) (data : BitVec 64) (s : State) :
    Did r ls s (Machine.respond st data s) := .upd rfl

theorem Did.release {r : Bool} {ls : List Line} (s : State) : Did r ls s (rsRelease s) := .upd rfl

theorem Did.status {r : Bool} {ls : List Line} (v : Byte) (s : State) : Did r ls s { s with rsStatus := v } := .upd rfl

theorem Did.cleared {r : Bool} {ls : List Line} (s : State) : Did r ls s { s with rsStatus := 0, rsRawTemp := 0, rsRawHum := 0 } :=
  .upd rfl

/-- Micro-operations without a sample. -/
theorem Did.after {r : Bool} {ls : List Line} {ops : List MicroOp} (s : State) (hl : onlyLines ls ops = true)
    (ha : answersIn ops = []) (hr : r = true → samplesReleased ops s.pins = true) : Did r ls s (after ops s) :=
  ⟨ops, rfl, rfl, rfl, by rw [ha]; rfl, by rw [ha]; rfl, by rw [ha]; rfl, hl, hr, rfl⟩

/-- Micro-operations whose one sample takes the oracle's next answer. -/
theorem Did.after_one {r : Bool} {ls : List Line} {ops : List MicroOp} (s : State) (hl : onlyLines ls ops = true)
    (ha : answersIn ops = [nextAnswer s]) (hr : r = true → samplesReleased ops s.pins = true) :
    Did r ls s (Machine.after ops (takeAnswer s)) :=
  ⟨ops, by simp, by simp, by simp, by rw [ha]; rfl, by rw [ha]; rfl, by rw [ha]; rfl, hl, hr, by simp⟩

/-! ### Unit OW -/

theorem owReset_did (s : State) : Did true [.owdq] s (owReset s).2 := by
  rw [owReset_eq]; exact .after_one s rfl rfl (fun _ => by simp [waveOwReset, samplesReleased, MicroOp.onPins, Pins.get, Pins.set])

theorem owRbit_did (s : State) : Did true [.owdq] s (owRbit s).2 := by
  rw [owRbit_eq]; exact .after_one s rfl rfl (fun _ => by simp [waveOwRead, samplesReleased, MicroOp.onPins, Pins.get, Pins.set])

theorem owWbit_did (b : Bool) (s : State) : Did true [.owdq] s (owWbit b s) := by
  rw [owWbit_eq]; exact .after s rfl rfl fun _ => rfl

theorem owWriteBits_did (is : List Nat) (s : State) : Did true [.owdq] s (owWriteBits is s) := by
  induction is generalizing s with
  | nil => exact .refl _ s
  | cons i is ih =>
    rw [owWriteBits]
    exact (owWbit_did (s.owShift.getLsbD i) s).trans ((Did.upd (by rfl)).trans (ih _))

theorem owWbyte_did (v : Byte) (s : State) : Did true [.owdq] s (owWbyte v s) :=
  (Did.upd (by rfl)).trans (owWriteBits_did lsbFirst { s with owShift := v, owBitcnt := 0 })

theorem owReadBits_did (is : List Nat) (s : State) : Did true [.owdq] s (owReadBits is s) := by
  induction is generalizing s with
  | nil => exact .refl _ s
  | cons i is ih =>
    rw [owReadBits]
    exact (owRbit_did s).trans ((Did.upd (by rfl)).trans (ih _))

theorem owRbyte_did (s : State) : Did true [.owdq] s (owRbyte s).2 :=
  (Did.upd (by rfl)).trans (owReadBits_did lsbFirst { s with owShift := 0, owBitcnt := 0 })

theorem owReadRomBytes_did (ks : List Nat) (d : BitVec 64) (s : State) : Did true [.owdq] s (owReadRomBytes ks d s).2 := by
  induction ks generalizing d s with
  | nil => exact .refl _ s
  | cons k ks ih => exact (owRbyte_did s).trans (ih _ _)

/-- A polling loop whose every turn does so, does so. -/
theorem pollTimes_did {r : Bool} {ls : List Line} {body : State → Bool × State} (h : ∀ s, Did r ls s (body s).2) (n : Nat) (s : State) :
    Did r ls s (pollTimes body n s).2 :=
  pollTimes_induct (P := Did r ls) (Did.refl ls) (fun k => k.trans (h _)) n s

theorem poll_did {r : Bool} {ls : List Line} {body : State → Bool × State} (h : ∀ s, Did r ls s (body s).2) (limit : Option Nat)
    (s : State) : Did r ls s (poll body limit s).2 := by
  rw [poll_eq]; exact pollTimes_did h _ s

theorem owRawtempEnd_did (st : Status) (s : State) : Did true [.owdq] s (owRawtempEnd st s) := by
  unfold owRawtempEnd
  split
  · exact .refl _ s
  · dsimp only
    split
    · exact owReset_did s
    · exact (owReset_did s).trans ((owWbyte_did _ _).trans ((owWbyte_did _ _).trans ((owRbyte_did _).trans (owRbyte_did _))))

theorem owConvertEnd_did (st : Status) (s : State) : Did true [.owdq] s (owConvertEnd st s) := by
  cases st <;> exact .refl _ s

theorem afterConvert_did (u : ConvUser) (st : Status) (s : State) : Did true [.owdq] s (afterConvert u st s) := by
  cases u
  · exact owConvertEnd_did st s
  · exact owRawtempEnd_did st s
  · exact owRawtempEnd_did st s

theorem owConvertPoll_did (u : ConvUser) (s : State) : Did true [.owdq] s (owConvertPoll u s) := by
  have h := poll_did owRbit_did s.par.owConvPollLimit s
  unfold owConvertPoll
  dsimp only
  split
  · exact h.trans (afterConvert_did u .ok _)
  · exact h.trans (afterConvert_did u .pollTimeout _)
  · exact h

theorem owConvert_did (u : ConvUser) (s : State) : Did true [.owdq] s (owConvert u s) := by
  unfold owConvert
  dsimp only
  split
  · exact (owReset_did s).trans (afterConvert_did u .noPresence _)
  · exact (owReset_did s).trans ((owWbyte_did _ _).trans ((owWbyte_did _ _).trans (owConvertPoll_did u _)))

/-! ### Unit I2C -/

theorem i2cStart_did (s : State) : Did true [.sda, .scl] s (i2cStart s) := by
  rw [i2cStart_eq]; exact .after s rfl rfl fun _ => rfl

theorem i2cStop_did (s : State) : Did true [.sda, .scl] s (i2cStop s) := by
  rw [i2cStop_eq]; exact .after s rfl rfl fun _ => rfl

theorem i2cReset_did (s : State) : Did true [.sda, .scl] s (i2cReset s) := by
  rw [i2cReset_eq]; exact .after s rfl rfl fun _ => rfl

theorem i2cWriteBits_did (is : List Nat) (s : State) : Did true [.sda, .scl] s (i2cWriteBits is s) := by
  induction is generalizing s with
  | nil => exact .refl _ s
  | cons i is ih =>
    rw [i2cWriteBits, performAll_eq]
    exact (Did.after (ops := i2cBitOut s.i2cHalfUs.toNat (s.i2cShift.getLsbD i)) s rfl rfl (fun _ => rfl)).trans
      ((Did.upd (by rfl)).trans (ih _))

theorem i2cWrite_did (v : Byte) (s : State) : Did true [.sda, .scl] s (i2cWrite v s).2 := by
  refine Did.trans (Did.upd (by rfl)) ((i2cWriteBits_did msbFirst { s with i2cShift := v, i2cBitcnt := 0 }).trans ?_)
  simp only [i2cWrite, sample_eq, performAll_eq, perform_eq_after, nextAnswer_after, takeAnswer_after, after_after]
  refine .after_one _ rfl rfl ?_
  simp [samplesReleased, halfDelay, MicroOp.onPins, Pins.get, Pins.set]

/-- The bits of a read come while `SDA` is released. -/
theorem i2cReadBits_did (is : List Nat) (s : State) (h : s.pins.sda.oe = false) :
    Did true [.sda, .scl] s (i2cReadBits is s) ∧ (i2cReadBits is s).pins.sda.oe = false := by
  induction is generalizing s with
  | nil => exact ⟨.refl _ s, h⟩
  | cons i is ih =>
    rw [i2cReadBits]
    simp only [sample_eq, performAll_eq, perform_eq_after, nextAnswer_after, takeAnswer_after, after_after]
    obtain ⟨d, e⟩ := ih { after ([halfDelay s, .drive .scl true, halfDelay s] ++ [.sample .sda (nextAnswer s)] ++
        [.drive .scl false]) (takeAnswer s) with
      i2cShift := putBit (takeAnswer s).i2cShift i (nextAnswer s), i2cBitcnt := BitVec.ofNat 4 (8 - i) } (by
        simpa [halfDelay, pinsAfter, MicroOp.onPins, Pins.set] using h)
    refine ⟨Did.trans ?_ d, e⟩
    refine Did.after_one s rfl rfl ?_
    simp [samplesReleased, halfDelay, MicroOp.onPins, Pins.get, Pins.set, h]

theorem i2cRead_did (a : Bool) (s : State) : Did true [.sda, .scl] s (i2cRead a s).2 := by
  have h1 : Did true [.sda, .scl] s (perform (.release .sda) { s with i2cShift := 0, i2cBitcnt := 0 }) := by
    rw [perform_eq_after]; exact Did.after (ops := [.release .sda]) s rfl rfl fun _ => rfl
  refine h1.trans ((i2cReadBits_did msbFirst _ rfl).1.trans ?_)
  simp only [i2cRead, performAll_eq]
  exact Did.after (ops := i2cAckOut _ a) _ (by cases a <;> rfl) rfl fun _ => rfl

theorem i2cWaitPoll_did (s : State) (h : s.pins.sda.oe = false) :
    Did true [.sda, .scl] s (i2cWaitPoll s).2 ∧ (i2cWaitPoll s).2.pins.sda.oe = false := by
  have d : Did true [.sda, .scl] s (after [.sample .sda (nextAnswer s)] (takeAnswer { s with i2cWaitcnt := s.i2cWaitcnt + 1 })) :=
    Did.trans (Did.upd (by rfl)) (Did.after_one (ops := [.sample .sda (nextAnswer s)]) { s with i2cWaitcnt := s.i2cWaitcnt + 1 }
      rfl rfl (by simp [samplesReleased, Pins.get, h]))
  have e : (after [.sample .sda (nextAnswer s)] (takeAnswer { s with i2cWaitcnt := s.i2cWaitcnt + 1 })).pins.sda.oe = false := by
    simpa [pinsAfter, MicroOp.onPins] using h
  have hn : nextAnswer { s with i2cWaitcnt := s.i2cWaitcnt + 1 } = nextAnswer s := rfl
  simp only [i2cWaitPoll, sample_eq, hn]
  split
  · refine ⟨d.trans ?_, e⟩
    rw [perform_eq_after]; exact .after _ rfl rfl fun _ => rfl
  · exact ⟨d, e⟩

theorem i2cWait_did (s : State) : Did true [.sda, .scl] s (i2cWait s).2 := by
  have h1 : Did true [.sda, .scl] s (perform (.release .sda) { s with i2cWaitcnt := 0 }) := by
    rw [perform_eq_after]; exact Did.after (ops := [.release .sda]) s rfl rfl fun _ => rfl
  refine h1.trans ?_
  have h := pollTimes_induct (body := i2cWaitPoll)
    (P := fun a b => a.pins.sda.oe = false → Did true [.sda, .scl] a b ∧ b.pins.sda.oe = false)
    (fun a ha => ⟨.refl _ a, ha⟩)
    (fun k ha => ⟨(k ha).1.trans (i2cWaitPoll_did _ (k ha).2).1, (i2cWaitPoll_did _ (k ha).2).2⟩)
    Config.i2cWaitLimit (perform (.release .sda) { s with i2cWaitcnt := 0 })
  exact (h rfl).1

/-! ### Unit RS -/

theorem rsCommand_did (cmd : Byte) (s : State) : Did true [.sda, .scl] s (rsCommand cmd s).2 :=
  (i2cStart_did s).trans (i2cWrite_did cmd _)

theorem rsReadMeasurement_did (cmd : Byte) (store : BitVec 16 → State → State) (s : State)
    (hs : ∀ v t, Did true [.sda, .scl] t (store v t)) : Did true [.sda, .scl] s (rsReadMeasurement cmd store s).2 := by
  unfold rsReadMeasurement
  dsimp only
  split
  · split
    · exact (rsCommand_did cmd s).trans ((i2cWait_did _).trans ((i2cRead_did _ _).trans ((i2cRead_did _ _).trans
        ((hs _ _).trans (i2cStop_did _)))))
    · exact (rsCommand_did cmd s).trans ((i2cWait_did _).trans (i2cStop_did _))
  · exact (rsCommand_did cmd s).trans (i2cStop_did _)

theorem rsReadTemp_did (s : State) : Did true [.sda, .scl] s (rsReadTemp s).2 :=
  rsReadMeasurement_did _ _ s fun _ _ => Did.upd (by rfl)

theorem rsReadHum_did (s : State) : Did true [.sda, .scl] s (rsReadHum s).2 :=
  rsReadMeasurement_did _ _ s fun _ _ => Did.upd (by rfl)

theorem rsReadStatus_did (s : State) : Did true [.sda, .scl] s (rsReadStatus s).2 := by
  unfold rsReadStatus
  dsimp only
  split
  · exact (rsCommand_did _ s).trans ((i2cRead_did false _).trans ((Did.status _ _).trans (i2cStop_did _)))
  · exact (rsCommand_did _ s).trans (i2cStop_did _)

theorem rsWritereg_did (s : State) : Did true [.sda, .scl] s (rsWritereg s).2 := by
  unfold rsWritereg
  dsimp only
  split
  · exact (rsCommand_did _ s).trans ((i2cWrite_did _ _).trans (i2cStop_did _))
  · exact (rsCommand_did _ s).trans (i2cStop_did _)

theorem rsUpdateBody_did (s : State) : Did true [.sda, .scl] s (rsUpdateBody s) := by
  unfold rsUpdateBody
  dsimp only
  split
  · exact (rsReadTemp_did s).trans ((rsReadHum_did _).trans ((Did.release _).trans (Did.respond _ _ _)))
  · exact (rsReadTemp_did s).trans ((Did.release _).trans (Did.respond _ _ _))

theorem rsResetBody_did (s : State) : Did true [.sda, .scl] s (rsResetBody s) := by
  have h : ∀ t : State, Did true [.sda, .scl] t (rsRelease (perform (.delayMs (i2cStop t).par.rsTPowerupMs)
      { i2cStop t with rsStatus := 0, rsRawTemp := 0, rsRawHum := 0 })) := fun t => by
    rw [perform_eq_after]
    exact (i2cStop_did t).trans ((Did.cleared _).trans (Did.trans (.after _ rfl rfl (fun _ => rfl)) (Did.release _)))
  have c := rsCommand_did Config.rsResetDevice s
  unfold rsResetBody
  generalize rsCommand Config.rsResetDevice s = w at c
  dsimp only
  split
  · exact (c.trans (h w.2)).trans (Did.ret _ _)
  · exact (c.trans (h w.2)).trans (Did.raise _ _ _)

theorem guardedBody_did (g : Guarded) (s : State) : Did true [.sda, .scl] s (guardedBody g s) := by
  have h : ∀ k b, Did true [.sda, .scl] s (rsSetFlagBody k b s) := fun k b =>
    (Did.status _ _).trans ((rsWritereg_did _).trans ((Did.release _).trans (Did.respond _ _ _)))
  cases g
  · exact rsUpdateBody_did s
  · exact rsResetBody_did s
  · exact (rsReadStatus_did s).trans ((Did.release _).trans (Did.respond _ _ _))
  · exact h _ _
  · exact h _ _
  · exact h _ _
  · exact (i2cReset_did s).trans ((Did.release _).trans (Did.ret _ _))

/-- The spin of the guard performs nothing and changes nothing (R272). -/
theorem rsAcquire_state (s : State) : (rsAcquire s).2 = s := by
  have h : ∀ n t, (pollTimes (fun t => (t.rsReady, t)) n t).2 = t := by
    intro n
    induction n with
    | zero => intro t; rfl
    | succ n ih => intro t; simp only [pollTimes]; split <;> simp [ih]
  rw [rsAcquire, poll_eq]; exact h _ s

theorem rsGuarded_did (g : Guarded) (s : State) : Did true [.sda, .scl] s (rsGuarded g s) := by
  unfold rsGuarded
  dsimp only
  rw [rsAcquire_state]
  split
  · exact (Did.upd (by rfl)).trans (guardedBody_did g { s with rsReady := false })
  · exact .upd (by rfl)
  · exact .upd (by rfl)

/-! ### Unit PW: the samples come on a released line if the line is released at the start -/

theorem pwWaitTurn_did {r : Bool} (v : Bool) (s : State) (h : r = true → s.pins.pwd.oe = false) :
    Did r [.pwd] s (pwWaitTurn v s).2 ∧ (pwWaitTurn v s).2.pins = s.pins := by
  rw [pwWaitTurn_eq]
  split
  · rename_i e
    exact ⟨.after_one s rfl (by rw [e]; rfl) (fun hr => by simp [samplesReleased, Pins.get, h hr]),
      by simp [pinsAfter, MicroOp.onPins]⟩
  · rename_i e
    have e' : nextAnswer s = !v := by cases v <;> simp_all
    exact ⟨.after_one s rfl (by rw [e']; rfl) (fun hr => by simp [samplesReleased, Pins.get, h hr]),
      by simp [pinsAfter, MicroOp.onPins]⟩

theorem poll_pwWait_did {r : Bool} (v : Bool) (limit : Option Nat) (s : State) (h : r = true → s.pins.pwd.oe = false) :
    Did r [.pwd] s (poll (pwWaitTurn v) limit s).2 ∧ (poll (pwWaitTurn v) limit s).2.pins = s.pins := by
  rw [poll_eq]
  exact pollTimes_induct (body := pwWaitTurn v)
    (P := fun a b => (r = true → a.pins.pwd.oe = false) → Did r [.pwd] a b ∧ b.pins = a.pins)
    (fun a _ => ⟨.refl _ a, rfl⟩)
    (fun k ha =>
      have w := pwWaitTurn_did v _ (fun hr => (k ha).2 ▸ ha hr)
      ⟨(k ha).1.trans w.1, w.2.trans (k ha).2⟩) _ s h

theorem pwDecodeBit_did {r : Bool} (s : State) (h : r = true → s.pins.pwd.oe = false) :
    Did r [.pwd] s (pwDecodeBit s) ∧ (pwDecodeBit s).pins = s.pins := by
  rw [pwDecodeBit_eq]
  exact ⟨Did.after_one s rfl rfl (fun hr => by simp [samplesReleased, MicroOp.onPins, Pins.get, h hr]),
    by simp [State.shifted, pinsAfter, MicroOp.onPins]⟩

theorem pwHighPhase_did {r : Bool} (s : State) (h : r = true → s.pins.pwd.oe = false) :
    Did r [.pwd] s (pwHighPhase s).2 ∧ (pwHighPhase s).2.pins = s.pins := by
  have p := poll_pwWait_did false s.par.pwPollLimit s h
  have d := pwDecodeBit_did (r := r) (poll (pwWaitTurn false) s.par.pwPollLimit s).2 (fun hr => p.2 ▸ h hr)
  unfold pwHighPhase
  dsimp only
  split
  · exact ⟨p.1.trans d.1, d.2.trans p.2⟩
  · exact p
  · exact p

theorem pwBit_did {r : Bool} (s : State) (h : r = true → s.pins.pwd.oe = false) :
    Did r [.pwd] s (pwBit s).2 ∧ (pwBit s).2.pins = s.pins := by
  have p := poll_pwWait_did true s.par.pwPollLimit s h
  have d := pwHighPhase_did (r := r) (poll (pwWaitTurn true) s.par.pwPollLimit s).2 (fun hr => p.2 ▸ h hr)
  unfold pwBit
  dsimp only
  split
  · exact ⟨p.1.trans d.1, d.2.trans p.2⟩
  · exact p
  · exact p

theorem pwBits_did {r : Bool} (n : Nat) (s : State) (h : r = true → s.pins.pwd.oe = false) :
    Did r [.pwd] s (pwBits n s).2 ∧ (pwBits n s).2.pins = s.pins := by
  induction n generalizing s with
  | zero => exact ⟨.refl _ s, rfl⟩
  | succ n ih =>
    have p := pwBit_did s h
    have d := ih (pwBit s).2 (fun hr => p.2 ▸ h hr)
    rw [pwBits]
    split
    · exact ⟨p.1.trans d.1, d.2.trans p.2⟩
    · exact p
    · exact p

theorem pwFinish_did {r : Bool} (q : Poll × State) : Did r [.pwd] q.2 (pwFinish q) ∧ (pwFinish q).pins = q.2.pins := by
  unfold pwFinish
  split
  · unfold pwCheck
    split <;> exact ⟨.upd (by rfl), rfl⟩
  · exact ⟨.upd (by rfl), rfl⟩
  · exact ⟨.refl _ _, rfl⟩

theorem pwSample_did (s : State) : Did true [.pwd] s (pwSample s) ∧ (pwSample s).pins.pwd.oe = false := by
  have h1 : Did true [.pwd] s { performAll (pwStartOps s.par) s with pwFrame := 0, pwBitcnt := 0 } := by
    rw [performAll_eq]; exact Did.after (ops := pwStartOps s.par) s rfl rfl fun _ => rfl
  have b := pwBits_did (r := true) Config.pwNbits { performAll (pwStartOps s.par) s with pwFrame := 0, pwBitcnt := 0 }
    fun _ => rfl
  have f := pwFinish_did (r := true)
    (pwBits Config.pwNbits { performAll (pwStartOps s.par) s with pwFrame := 0, pwBitcnt := 0 })
  exact ⟨h1.trans (b.1.trans f.1), by rw [pwSample, f.2, b.2]; rfl⟩

theorem pwRest_did {r : Bool} (q : Poll × State) (h : r = true → q.2.pins.pwd.oe = false) :
    Did r [.pwd] q.2 (pwRest q).2 ∧ (pwRest q).2.pins = q.2.pins := by
  unfold pwRest
  split
  · exact pwBits_did _ _ h
  · exact ⟨.refl _ _, rfl⟩
  · exact ⟨.refl _ _, rfl⟩

theorem pwResumeLow_did {r : Bool} (s : State) (h : r = true → s.pins.pwd.oe = false) :
    Did r [.pwd] s (pwResumeLow s) ∧ (pwResumeLow s).pins = s.pins := by
  have b := pwBit_did s h
  have e := pwRest_did (r := r) (pwBit s) (fun hr => b.2 ▸ h hr)
  have f := pwFinish_did (r := r) (pwRest (pwBit s))
  exact ⟨b.1.trans (e.1.trans f.1), f.2.trans (e.2.trans b.2)⟩

theorem pwResumeHigh_did {r : Bool} (s : State) (h : r = true → s.pins.pwd.oe = false) :
    Did r [.pwd] s (pwResumeHigh s) ∧ (pwResumeHigh s).pins = s.pins := by
  have b := pwHighPhase_did s h
  have e := pwRest_did (r := r) (pwHighPhase s) (fun hr => b.2 ▸ h hr)
  have f := pwFinish_did (r := r) (pwRest (pwHighPhase s))
  exact ⟨b.1.trans (e.1.trans f.1), f.2.trans (e.2.trans b.2)⟩

/-! ### A waiting command that goes on -/

/-- Whatever a step of a busy block does, it is performed on the lines of the command that waits, and, where `PWD` is
released, with every sample on a released line. -/
theorem resume_did {r : Bool} {s t : State} {i : Instr} (h : r = true → s.pins.pwd.oe = false)
    (c : s.seq.command = some i) (k : resume s.seq s = .next t) : Did r (linesOf i.unit) s t := by
  cases e : s.seq with
  | idle => rw [e] at k; cases k
  | convPoll u =>
    rw [e] at k c
    cases k
    cases u <;> cases c <;> exact (owConvertPoll_did _ s).of_true
  | pwLow => rw [e] at k c; cases k; cases c; exact (pwResumeLow_did s h).1
  | pwHigh => rw [e] at k c; cases k; cases c; exact (pwResumeHigh_did s h).1
  | rsSpin g =>
    rw [e] at k c
    cases k
    cases g <;> cases c <;> exact (rsGuarded_did _ s).of_true

end Sys2Proof.Machine
end

