-- ==== Sys2Proof/Laws/PerInstr.lean ====
section
/-! SUPPORT. Made per instruction: its encoding selects its row of spec/opcode_table.json, `bits & mask = match` (spec
30_encoding.md R103). -/

namespace Sys2Proof.Laws

open Sys2Proof

/-- A command word masked, by fields: enough to compare a row of R103 with a word the encoder makes. -/
theorem commandWord_and (u o u' o' : BitVec 4) (a a' : BitVec 24) :
    commandWord u o a &&& commandWord u' o' a' = commandWord (u &&& u') (o &&& o') (a &&& a') := by
  apply BitVec.eq_of_getLsbD_eq
  intro i hi
  show ((u ++ o ++ a : BitVec (4 + 4 + 24)) &&& (u' ++ o' ++ a' : BitVec (4 + 4 + 24))).getLsbD i =
    ((u &&& u') ++ (o &&& o') ++ (a &&& a') : BitVec (4 + 4 + 24)).getLsbD i
  rw [BitVec.getLsbD_and]
  simp only [BitVec.getLsbD_append]
  split
  · simp
  · split <;> simp

theorem setWidth_and_high (n : Nat) (v : BitVec n) (m : BitVec 24) (h : ∀ i, i < n → m.getLsbD i = false) :
    v.setWidth 24 &&& m = 0 := by
  apply BitVec.eq_of_getLsbD_eq
  intro i hi
  by_cases hn : i < n
  · simp [h i hn]
  · simp [BitVec.getLsbD_of_ge v i (by omega)]

/-- A row with an operand of `n` bits: the mask clears exactly the operand. -/
theorem selects_operand (n : Nat) (v : BitVec n) (u o : BitVec 4) (m : BitVec 24) (h : ∀ i, i < n → m.getLsbD i = false) :
    (commandWord u o (v.setWidth 24) &&& commandWord 15 15 m == commandWord u o 0) = true := by
  rw [commandWord_and, setWidth_and_high n v m h]
  have e : ∀ x : BitVec 4, x &&& 15 = x := by decide
  rw [e u, e o]
  simp

end Sys2Proof.Laws

namespace Sys2Proof.Laws.TableRow

open Sys2Proof

/-- What the family says of an instruction. -/
def Statement (i : Instr) : Prop := i.row.selects (encode i) = true

theorem owReset : Statement .owReset := rfl

theorem owWbit (b : Bool) : Statement (.owWbit b) := by cases b <;> rfl

theorem owRbit : Statement .owRbit := rfl

theorem owWbyte (v : Byte) : Statement (.owWbyte v) :=
  selects_operand 8 v 0 3 0xFFFF00 (by decide)

theorem owRbyte : Statement .owRbyte := rfl

theorem owSetres (res : BitVec 2) : Statement (.owSetres res) :=
  selects_operand 2 res 0 5 0xFFFFFC (by decide)

theorem owConvert : Statement .owConvert := rfl

theorem owRawtemp : Statement .owRawtemp := rfl

theorem owGettemp : Statement .owGettemp := rfl

theorem owReadrom : Statement .owReadrom := rfl

theorem i2cStart : Statement .i2cStart := rfl

theorem i2cStop : Statement .i2cStop := rfl

theorem i2cWrite (v : Byte) : Statement (.i2cWrite v) :=
  selects_operand 8 v 1 2 0xFFFF00 (by decide)

theorem i2cRead (a : Bool) : Statement (.i2cRead a) := by cases a <;> rfl

theorem i2cWait : Statement .i2cWait := rfl

theorem i2cReset : Statement .i2cReset := rfl

theorem i2cSetfreq (hz : BitVec 24) : Statement (.i2cSetfreq hz) := by
  have h := selects_operand 24 hz 1 6 0x000000 (by decide)
  rwa [BitVec.setWidth_eq] at h

theorem rsGettemp : Statement .rsGettemp := rfl

theorem rsGethum : Statement .rsGethum := rfl

theorem rsChkbat : Statement .rsChkbat := rfl

theorem rsSetheater (b : Bool) : Statement (.rsSetheater b) := by cases b <;> rfl

theorem rsSetres (b : Bool) : Statement (.rsSetres b) := by cases b <;> rfl

theorem rsSetotp (b : Bool) : Statement (.rsSetotp b) := by cases b <;> rfl

theorem rsSetscale (b : Bool) : Statement (.rsSetscale b) := by cases b <;> rfl

theorem rsUpdate : Statement .rsUpdate := rfl

theorem rsReset : Statement .rsReset := rfl

theorem rsConnreset : Statement .rsConnreset := rfl

theorem pwSample : Statement .pwSample := rfl

theorem pwGet : Statement .pwGet := rfl

theorem owdevReadRom : Statement .owdevReadRom := rfl

theorem owdevConvert : Statement .owdevConvert := rfl

theorem owdevReadScratchpad : Statement .owdevReadScratchpad := rfl

theorem owdevWriteScratchpad : Statement .owdevWriteScratchpad := rfl

theorem owdevSkipRom : Statement .owdevSkipRom := rfl

theorem owcfg9bit : Statement .owcfg9bit := rfl

theorem owcfg10bit : Statement .owcfg10bit := rfl

theorem owcfg11bit : Statement .owcfg11bit := rfl

theorem owcfg12bit : Statement .owcfg12bit := rfl

theorem rsdevReadTemperature : Statement .rsdevReadTemperature := rfl

theorem rsdevReadHumidity : Statement .rsdevReadHumidity := rfl

theorem rsdevReadRegister : Statement .rsdevReadRegister := rfl

theorem rsdevWriteRegister : Statement .rsdevWriteRegister := rfl

theorem rsdevResetDevice : Statement .rsdevResetDevice := rfl

theorem rsflagResolution : Statement .rsflagResolution := rfl

theorem rsflagOtpReload : Statement .rsflagOtpReload := rfl

theorem rsflagHeater : Statement .rsflagHeater := rfl

theorem rsflagBattery : Statement .rsflagBattery := rfl

end Sys2Proof.Laws.TableRow
end

