-- ==== Sys2Proof/Tests/Slice0.lean ====
section
/-! SUPPORT. The author's own tests: the smoke test of well-formedness, one word for every row of the opcode table written
out from the spec's encoding, the worked vectors of spec/95_test_vectors.md run as one step each, and for every statement
with hypotheses a state and operands that meet them. -/

namespace Sys2Proof.Tests

open Sys2Proof Sys2Proof.Machine

/-! ### Well-formedness -/

theorem test_wf_refuses_setfreq_zero : Instr.wf (.i2cSetfreq 0) = false := by decide

theorem test_wf_takes_setfreq_bounds : Instr.wf (.i2cSetfreq 1) = true ∧ Instr.wf (.i2cSetfreq 16777215) = true := by decide

/-! ### Decoding: words written out from spec 30_encoding.md R100, R101, R103; bytes from R120 to R123 -/

/-- A command word as R100 lays it out: `UNIT` in bits 31..28, `OP` in bits 27..24, `ARG` below. -/
def cmd (unit op : BitVec 4) (arg : BitVec 24) : Code := .cmd32 (unit ++ op ++ arg)

theorem test_decode_ow :
    decode (cmd 0 0 0) = .ok .owReset ∧ decode (cmd 0 1 1) = .ok (.owWbit true) ∧
      decode (cmd 0 1 0) = .ok (.owWbit false) ∧ decode (cmd 0 2 0) = .ok .owRbit ∧
      decode (cmd 0 3 0xCC) = .ok (.owWbyte 0xCC) ∧ decode (cmd 0 4 0) = .ok .owRbyte ∧
      decode (cmd 0 5 2) = .ok (.owSetres 2) ∧ decode (cmd 0 6 0) = .ok .owConvert ∧
      decode (cmd 0 7 0) = .ok .owRawtemp ∧ decode (cmd 0 8 0) = .ok .owGettemp ∧
      decode (cmd 0 9 0) = .ok .owReadrom := by
  and_intros <;> rfl

theorem test_decode_i2c :
    decode (cmd 1 0 0) = .ok .i2cStart ∧ decode (cmd 1 1 0) = .ok .i2cStop ∧
      decode (cmd 1 2 0x03) = .ok (.i2cWrite 0x03) ∧ decode (cmd 1 3 1) = .ok (.i2cRead true) ∧
      decode (cmd 1 3 0) = .ok (.i2cRead false) ∧ decode (cmd 1 4 0) = .ok .i2cWait ∧
      decode (cmd 1 5 0) = .ok .i2cReset ∧ decode (cmd 1 6 400000) = .ok (.i2cSetfreq 400000) := by
  and_intros <;> rfl

theorem test_decode_rs :
    decode (cmd 2 0 0) = .ok .rsGettemp ∧ decode (cmd 2 1 0) = .ok .rsGethum ∧ decode (cmd 2 2 0) = .ok .rsChkbat ∧
      decode (cmd 2 3 1) = .ok (.rsSetheater true) ∧ decode (cmd 2 4 1) = .ok (.rsSetres true) ∧
      decode (cmd 2 5 1) = .ok (.rsSetotp true) ∧ decode (cmd 2 5 0) = .ok (.rsSetotp false) ∧
      decode (cmd 2 6 1) = .ok (.rsSetscale true) ∧ decode (cmd 2 7 0) = .ok .rsUpdate ∧
      decode (cmd 2 8 0) = .ok .rsReset ∧ decode (cmd 2 9 0) = .ok .rsConnreset := by
  and_intros <;> rfl

theorem test_decode_pw : decode (cmd 3 0 0) = .ok .pwSample ∧ decode (cmd 3 1 0) = .ok .pwGet := by
  and_intros <;> rfl

theorem test_decode_one_wire_bytes :
    decode (.wire8 0x33) = .ok .owdevReadRom ∧ decode (.wire8 0x44) = .ok .owdevConvert ∧
      decode (.wire8 0xBE) = .ok .owdevReadScratchpad ∧ decode (.wire8 0x4E) = .ok .owdevWriteScratchpad ∧
      decode (.wire8 0xCC) = .ok .owdevSkipRom ∧ decode (.wire8 0x1F) = .ok .owcfg9bit ∧
      decode (.wire8 0x3F) = .ok .owcfg10bit ∧ decode (.wire8 0x5F) = .ok .owcfg11bit ∧
      decode (.wire8 0x7F) = .ok .owcfg12bit := by
  and_intros <;> rfl

theorem test_decode_sensor_bytes :
    decode (.wire8 0x03) = .ok .rsdevReadTemperature ∧ decode (.wire8 0x05) = .ok .rsdevReadHumidity ∧
      decode (.wire8 0x07) = .ok .rsdevReadRegister ∧ decode (.wire8 0x06) = .ok .rsdevWriteRegister ∧
      decode (.wire8 0x1E) = .ok .rsdevResetDevice ∧ decode (.wire8 0x01) = .ok .rsflagResolution ∧
      decode (.wire8 0x02) = .ok .rsflagOtpReload ∧ decode (.wire8 0x04) = .ok .rsflagHeater ∧
      decode (.wire8 0x40) = .ok .rsflagBattery := by
  and_intros <;> rfl

/-- The table's own numbering reaches the same decoder: four bytes for a command, one for a wire constant. -/
theorem test_decode_table_words :
    decodeTableWord 32 0x160186A0 = some (.i2cSetfreq 100000) ∧ decodeTableWord 8 0x1E = some .rsdevResetDevice ∧
      decodeTableWord 32 0x40000000 = none := by
  and_intros <;> rfl

/-- R105: unit 4, an unused `OP` of each unit, a stray operand bit. -/
theorem test_decode_illegal :
    decode (cmd 4 0 0) = .error .reservedUnit ∧ decode (cmd 15 15 0xFFFFFF) = .error .reservedUnit ∧
      decode (cmd 0 10 0) = .error .unusedOp ∧ decode (cmd 1 7 0) = .error .unusedOp ∧
      decode (cmd 2 10 0) = .error .unusedOp ∧ decode (cmd 3 2 0) = .error .unusedOp ∧
      decode (cmd 0 0 1) = .error .argNotZero ∧ decode (cmd 0 3 0x100) = .error .argNotZero ∧
      decode (cmd 0 5 4) = .error .argNotZero ∧ decode (cmd 3 1 0x800000) = .error .argNotZero := by
  and_intros <;> rfl

/-! ### The vectors of spec 95_test_vectors.md, each as one step -/

/-- The parameter values the vectors of 95_test_vectors.md are worked out for (log 21). -/
def vectorParams : Params where
  owTA := 6
  owTB := 64
  owTC := 60
  owTD := 10
  owTE := 9
  owTF := 55
  owTH := 480
  owTI := 70
  owAlarm0 := 0
  owAlarm1 := 0
  owInvalidTemperature := 0x8000
  owConvPollLimit := none
  i2cHzReset := 100000
  rsTPowerupMs := 11
  rsSpinLimit := none
  pwTRel1Us := 20
  pwTRel2Us := 20
  pwTDecodeUs := 40
  pwPollUs := 1
  pwPollLimit := none

/-- The reset state under the vectors' parameters. -/
def s0 : State := State.resetWith vectorParams

/-- Answers written as digits. -/
def bits (ds : List Nat) : List Bool := ds.map (· == 1)

/-- The bits of a byte, bit 0 first (the 1-Wire order, R72). -/
def lsb (v : Byte) : List Bool := (List.range 8).map fun i => v.getLsbD i

/-- The bits of a byte, bit 7 first (the Soft-I2C and pulse-width order, R73, R74). -/
def msb (v : Byte) : List Bool := (lsb v).reverse

/-- A pulse-width frame in which every wait ends at its first poll (R322). -/
def frame (vs : List Byte) : List Bool := (vs.flatMap msb).flatMap fun b => [true, false, b]

/-- The state a step leads to, if any. -/
def stateOf (s : State) : Host.Outcome State Fault Refusal → State
  | .next t => t
  | .fault _ => s
  | .refused _ => s

/-- Whether an outcome is a next state. -/
def isNext : Host.Outcome State Fault Refusal → Bool
  | .next _ => true
  | .fault _ => false
  | .refused _ => false

theorem eq_next {s : State} {o : Host.Outcome State Fault Refusal} (h : isNext o = true) : o = .next (stateOf s o) := by
  cases o with
  | next t => rfl
  | fault f => cases h
  | refused r => cases h

/-- A script gives its own answers. -/
theorem answers_script {s : State} {as rest : List Bool} {n : Nat} (hn : as.length = n) (h : s.script = as ++ rest) :
    answers n s = as := by
  subst hn
  induction as generalizing s with
  | nil => rfl
  | cons a as ih =>
    have n : nextAnswer s = a := by simp [nextAnswer, h]
    have e : takeAnswer s = { s with script := as ++ rest } := by simp [takeAnswer, h]
    simp only [List.length_cons, answers, n, e]
    rw [ih rfl]

/-- What a vector gives: status code, data, how many samples, how many micro-operations, how many µs. -/
structure Expected where
  status : Nat
  data : Nat
  samples : Nat
  ops : Nat
  us : Nat

/-- Whether one step of `s`, given the command word `w` and the answers `as`, ends with the response, the numbers of
samples and micro-operations, and the duration `e`, and leaves what `chk` asks. -/
def runs (s : State) (w : Word) (as : List Bool) (e : Expected) (chk : State → Bool := fun _ => true) : Bool :=
  match step { s with script := as, host := [w] } with
  | .next t =>
    t.rspValid && !t.busy && t.rspStatus.code.toNat == e.status && t.rspData.toNat == e.data &&
      (answersIn t.trace).length == e.samples && t.trace.length == e.ops && t.time == s.time + e.us &&
      t.freeCount == 0 && chk t
  | .fault _ => false
  | .refused _ => false

/-- The same for a long command, without the lengths of its trace: status code, data and µs. -/
def responds (s : State) (w : Word) (as : List Bool) (status data us : Nat) (chk : State → Bool := fun _ => true) : Bool :=
  match step { s with script := as, host := [w] } with
  | .next t =>
    t.rspValid && !t.busy && t.rspStatus.code.toNat == status && t.rspData.toNat == data && t.time == s.time + us &&
      t.script.isEmpty && t.freeCount == 0 && chk t
  | .fault _ => false
  | .refused _ => false

/-- Both Soft-I2C lines as a stop condition leaves them. -/
def stopped (t : State) : Bool := t.pins.sda == ⟨true, true⟩ && t.pins.scl == ⟨true, true⟩ && t.rsReady

/-- Both Soft-I2C lines as a start condition leaves them. -/
def started (t : State) : Bool := t.pins.sda == ⟨true, false⟩ && t.pins.scl == ⟨true, false⟩

theorem test_ow_reset : runs s0 0x00000000 (bits [0]) ⟨0, 0, 1, 5, 550⟩ (·.pins.owdq == ⟨false, false⟩) = true := by decide +kernel

theorem test_ow_reset_no_device : runs s0 0x00000000 (bits [1]) ⟨1, 1, 1, 5, 550⟩ = true := by decide +kernel

theorem test_ow_wbit : runs s0 0x01000001 [] ⟨0, 0, 0, 4, 70⟩ = true ∧ runs s0 0x01000000 [] ⟨0, 0, 0, 4, 70⟩ = true := by
  decide +kernel

theorem test_ow_rbit : runs s0 0x02000000 (bits [1]) ⟨0, 1, 1, 6, 70⟩ = true := by decide +kernel

theorem test_ow_wbyte : runs s0 0x030000CC [] ⟨0, 0, 0, 32, 560⟩ = true := by decide +kernel

theorem test_ow_rbyte : runs s0 0x04000000 (bits [1, 0, 0, 0, 1, 0, 0, 1]) ⟨0, 0x91, 8, 48, 560⟩ = true := by decide +kernel

theorem test_ow_rbyte_first_is_bit_0 : runs s0 0x04000000 (bits [1, 0, 0, 0, 0, 0, 0, 0]) ⟨0, 1, 8, 48, 560⟩ = true := by
  decide +kernel

theorem test_ow_setres : responds s0 0x05000003 (bits [0]) 0 0 3350 (·.owRes == some 3) = true := by decide +kernel

theorem test_ow_setres_no_device : runs s0 0x05000003 (bits [1]) ⟨1, 1, 1, 5, 550⟩ (·.owRes == none) = true := by
  decide +kernel

theorem test_ow_convert : runs s0 0x06000000 (bits [0, 0, 0, 0, 1]) ⟨0, 0, 5, 93, 1950⟩ = true := by decide +kernel

theorem test_ow_convert_no_device : runs s0 0x06000000 (bits [1]) ⟨1, 1, 1, 5, 550⟩ = true := by decide +kernel

theorem test_ow_rawtemp : responds s0 0x07000000 (bits [0, 0, 0, 1, 0] ++ lsb 0x5E ++ lsb 0xFF) 0 0xFF5E 4670 = true := by
  decide +kernel

theorem test_ow_rawtemp_second_reset : runs s0 0x07000000 (bits [0, 1, 1]) ⟨1, 0x8000, 3, 80, 2290⟩ = true := by decide +kernel

theorem test_ow_gettemp : responds s0 0x08000000 (bits [0, 1, 0] ++ lsb 0x91 ++ lsb 0x01) 0 0x0191 4530 = true := by
  decide +kernel

/-- R200: raw 0x0191 is 25.0625 degrees, raw 0xFF5E is -10.125. -/
theorem test_ow_degrees : owDegrees 0x0191 = 401 / 16 ∧ owDegrees 0xFF5E = -162 / 16 := by
  constructor <;> rfl

theorem test_ow_readrom :
    responds s0 0x09000000 (bits [0] ++ [0x28, 0xFF, 0x4B, 0x46, 0x7F, 0xFF, 0x0C, 0x10].flatMap lsb)
      0 0x100CFF7F464BFF28 5590 = true := by
  decide +kernel

theorem test_i2c_start : runs s0 0x10000000 [] ⟨0, 0, 0, 8, 20⟩ started = true := by decide +kernel

theorem test_i2c_stop : runs s0 0x11000000 [] ⟨0, 0, 0, 6, 15⟩ stopped = true := by decide +kernel

theorem test_i2c_write : runs s0 0x12000003 (bits [0]) ⟨0, 1, 1, 46, 90⟩ (·.pins.sda == ⟨false, true⟩) = true := by
  decide +kernel

theorem test_i2c_write_no_ack : runs s0 0x12000003 (bits [1]) ⟨2, 0, 1, 46, 90⟩ (·.pins.scl == ⟨true, false⟩) = true := by
  decide +kernel

theorem test_i2c_read_ack : runs s0 0x13000001 (msb 0xA5) ⟨0, 0xA5, 8, 47, 90⟩ (·.pins.sda == ⟨false, false⟩) = true := by
  decide +kernel

theorem test_i2c_read_no_ack : runs s0 0x13000000 (msb 0x3C) ⟨0, 0x3C, 8, 47, 90⟩ (·.pins.sda == ⟨false, true⟩) = true := by
  decide +kernel

theorem test_i2c_wait : runs s0 0x14000000 (bits [1, 1, 0]) ⟨0, 1, 3, 6, 2000⟩ (·.i2cWaitcnt == 3) = true := by decide +kernel

/-- R236: the 500th poll still counts, a 501st does not come. -/
theorem test_i2c_wait_limit :
    (i2cWait { s0 with script := List.replicate 499 true ++ [false] }).1 = true ∧
      (i2cWait { s0 with script := List.replicate 500 true ++ [false] }).1 = false := by
  constructor
  · have h : answers (499 + 1) { s0 with script := List.replicate 499 true ++ [false] } = List.replicate 499 true ++ [false] :=
      answers_script (rest := []) (by rw [List.length_append, List.length_replicate]; rfl) (List.append_nil _).symm
    exact (i2cWait_hit 499 _ (by decide) h).1
  · have h : answers 500 { s0 with script := List.replicate 500 true ++ [false] } = List.replicate 500 true :=
      answers_script (rest := [false]) List.length_replicate rfl
    exact (i2cWait_miss _ h).1

theorem test_i2c_reset : runs s0 0x15000000 [] ⟨0, 0, 0, 47, 115⟩ started = true := by decide +kernel

theorem test_i2c_setfreq :
    runs s0 0x160186A0 [] ⟨0, 0, 0, 0, 0⟩ (·.i2cHalfUs == 5) = true ∧
      runs s0 0x16FFFFFF [] ⟨0, 0, 0, 0, 0⟩ (·.i2cHalfUs == 0) = true ∧
      runs s0 0x16000001 [] ⟨0, 0, 0, 0, 0⟩ (·.i2cHalfUs == 500000) = true := by
  decide +kernel

theorem test_i2c_setfreq_zero : runs s0 0x16000000 [] ⟨15, 0, 0, 0, 0⟩ (·.i2cHalfUs == 5) = true := by decide +kernel

/-- The cache of the two V-RS vectors about readings. -/
def cached : State := { s0 with rsStatus := 0x01, rsRawTemp := 0x189C, rsRawHum := 0x054B, rsScale := true }

theorem test_rs_gettemp : runs cached 0x20000000 [] ⟨0, 0x3189C, 0, 0, 0⟩ = true := by decide +kernel

theorem test_rs_gethum : runs cached 0x21000000 [] ⟨0, 0x189C0003054B, 0, 0, 0⟩ = true := by decide +kernel

theorem test_rs_chkbat : runs s0 0x22000000 (bits [0] ++ msb 0x45) ⟨0, 0x4501, 9, 107, 215⟩ stopped = true := by decide +kernel

theorem test_rs_chkbat_no_ack : runs { s0 with rsStatus := 0x44 } 0x22000000 (bits [1]) ⟨2, 0x4401, 1, 60, 125⟩ = true := by
  decide +kernel

theorem test_rs_setheater : runs s0 0x23000001 (bits [0, 0]) ⟨0, 4, 2, 106, 215⟩ stopped = true := by decide +kernel

theorem test_rs_setheater_no_ack : runs s0 0x23000001 (bits [0, 1]) ⟨2, 4, 2, 106, 215⟩ (·.rsStatus == 4) = true := by
  decide +kernel

theorem test_rs_setres : runs { s0 with rsStatus := 0x47 } 0x24000000 (bits [0, 0]) ⟨0, 0x46, 2, 106, 215⟩ = true := by
  decide +kernel

theorem test_rs_setotp : runs s0 0x25000001 (bits [0, 0]) ⟨0, 2, 2, 106, 215⟩ = true := by decide +kernel

theorem test_rs_setscale : runs s0 0x26000001 [] ⟨0, 1, 0, 0, 0⟩ (·.rsScale) = true := by decide +kernel

theorem test_rs_update :
    responds s0 0x27000000 (bits [0, 1, 1, 0] ++ msb 0x18 ++ msb 0x9C ++ bits [0, 0] ++ msb 0x05 ++ msb 0x4B)
      0 0x054B189C 2610 stopped = true := by
  decide +kernel

theorem test_rs_update_second_no_ack :
    responds { s0 with rsRawTemp := 0x1111, rsRawHum := 0x2222 } 0x27000000 (bits [0, 0] ++ msb 0x18 ++ msb 0x9C ++ bits [1])
      2 0x2222189C 430 stopped = true := by
  decide +kernel

theorem test_rs_reset :
    runs { cached with rsStatus := 0x45 } 0x28000000 (bits [1]) ⟨2, 0, 1, 61, 11125⟩
      (fun t => t.rsStatus == 0 && t.rsRawTemp == 0 && t.rsRawHum == 0 && t.rsScale) = true := by
  decide +kernel

theorem test_rs_connreset : runs s0 0x29000000 [] ⟨0, 0, 0, 47, 115⟩ started = true := by decide +kernel

theorem test_pw_sample :
    responds s0 0x30000000 (bits [0, 0, 0, 1, 1, 1, 0, 0] ++ (frame [0x02, 0x8C, 0x01, 0x11, 0xA0]).drop 3)
      0 0x0111028C 19645 (·.pins.pwd == ⟨false, true⟩) = true := by
  decide +kernel

theorem test_pw_sample_checksum :
    responds { s0 with pwHum := 652, pwTemp := 273 } 0x30000000 (frame [0xFF, 0xFF, 0xFF, 0xFF, 0xFF])
      4 0x0111028C 19640 = true := by
  decide +kernel

theorem test_pw_get : runs { s0 with pwHum := 652, pwTemp := 273 } 0x31000000 [] ⟨0, 0x0111028C, 0, 0, 0⟩ = true := by
  decide +kernel

/-- R356: an illegal word ends with code 15 and no micro-operation. -/
theorem test_illegal_word : runs s0 0x40000000 [] ⟨15, 0, 0, 0, 0⟩ = true := by decide +kernel

/-- The wire constants on their own: what the four kinds of row put on their lines (log 8, log 9). -/
theorem test_wire_rows :
    (stateOf s0 (step (s0.withFetchWord 8 0x33))).trace = waveOwWriteByte vectorParams 0x33 ∧
      (stateOf s0 (step (s0.withFetchWord 8 0x7F))).trace = waveOwWriteByte vectorParams 0x7F ∧
      (stateOf s0 (step ({ s0 with script := [false] }.withFetchWord 8 0x1E))).trace =
        waveStart 5 ++ waveWrite 5 0x1E false ∧
      (stateOf s0 (step ({ s0 with script := [true] }.withFetchWord 8 0x40))).trace = waveWrite 5 0x00 true := by
  decide +kernel

/-- The first instruction after reset is the one the host presents. -/
theorem test_first_instruction :
    step (State.reset.withFetchWord 32 0x07000000) = exec .owRawtemp State.reset ∧
      step (State.reset.withFetchWord 8 0x44) = exec .owdevConvert State.reset := by
  constructor <;> rfl

/-! ### Witnesses: for every statement with hypotheses, concrete values that meet all of them together -/

/-- The vectors' reset state with these answers scripted. -/
def scripted (as : List Bool) : State := { s0 with script := as }

/-- The same with every poll limit finite. -/
def limited (n : Nat) (as : List Bool) : State :=
  { s0 with
    script := as
    par := { vectorParams with owConvPollLimit := some n, rsSpinLimit := some n, pwPollLimit := some n } }

/-- A state that waits at a position. -/
def waiting (pos : Seq) (as : List Bool) : State := { s0 with busy := true, seq := pos, script := as }

/-- A script gives its own answers, in the words of the statements. -/
theorem gives_of_script {s : State} {as rest : List Bool} (h : s.script = as ++ rest) : gives s as := answers_script rfl h

theorem witness_EncodeOfDecode :
    decode (.cmd32 0x03000000) = .ok (.owWbyte 0) ∧ decode (.cmd32 0x030000FF) = .ok (.owWbyte 0xFF) ∧
      decode (.wire8 0x40) = .ok .rsflagBattery := by
  and_intros <;> rfl

theorem witness_RowsSelectCommands :
    decode (.cmd32 0x05000003) = .ok (.owSetres 3) ∧
      (Instr.owSetres 0).isCommand = true ∧ (Instr.owSetres 0).row.selects (.cmd32 0x05000003) = true := by
  and_intros <;> rfl

/-- Each of the four cases of IllegalWords, at the first value of its range and at the last of the one before. -/
theorem witness_IllegalWords :
    decode (.cmd32 0x40000000) = .error .reservedUnit ∧ decode (.cmd32 0x3F000000) = .error .unusedOp ∧
      decode (.cmd32 0x0A000000) = .error .unusedOp ∧ decode (.cmd32 0x09000001) = .error .argNotZero ∧
      decode (.cmd32 0x09000000) = .ok .owReadrom := by
  and_intros <;> rfl

theorem witness_RowsDisjoint :
    (Instr.owWbit true).row.selects (.cmd32 0x01000000) = true ∧ (Instr.owWbit false).row.selects (.cmd32 0x01000000) = true := by
  and_intros <;> rfl

/-- Numbers at both sides of each field width, in both notations. -/
theorem witness_AssemblerLines :
    numberOf "1".toList = some 1 ∧ numberOf "2".toList = some 2 ∧ numberOf "3".toList = some 3 ∧
      numberOf "0x4".toList = some 4 ∧ numberOf "255".toList = some 255 ∧ numberOf "0x100".toList = some 256 ∧
      numberOf "16777215".toList = some 16777215 ∧ numberOf "0x1000000".toList = some 16777216 := by
  decide

/-- R111's own lines, and the first operand that does not fit the fields of two bits and of eight. -/
theorem test_assembler :
    assembleLine "OW.SETRES 3".toList = .ok (some (.owSetres 3)) ∧
      assembleLine "OW.SETRES 4".toList = .error .operandTooWide ∧
      assembleLine "OW.WBYTE 0xCC # skip ROM".toList = .ok (some (.owWbyte 0xCC)) ∧
      assembleLine "OW.WBYTE 256".toList = .error .operandTooWide ∧ assembleLine "# nothing".toList = .ok none := by
  and_intros <;> rfl

theorem witness_StepRunsDecoded_word :
    let s : State := { s0 with host := [0x030000CC, 0x04000000] }
    s.rst = false ∧ s.busy = false ∧ s.wirePort = none ∧ s.host = 0x030000CC :: [0x04000000] ∧
      decode (.cmd32 0x030000CC) = .ok (.owWbyte 0xCC) := by
  and_intros <;> rfl

theorem witness_StepRunsDecoded_wire :
    let s : State := { s0 with wirePort := some 0xBE }
    s.rst = false ∧ s.busy = false ∧ s.wirePort = some 0xBE ∧ decode (.wire8 0xBE) = .ok .owdevReadScratchpad := by
  and_intros <;> rfl

theorem witness_StepRunsDecoded_nothing : s0.rst = false ∧ s0.busy = false ∧ s0.wirePort = none ∧ s0.host = [] := by
  and_intros <;> rfl

theorem witness_IllegalEnds :
    let s : State := { s0 with host := [0xFFFFFFFF] }
    s.rst = false ∧ s.busy = false ∧ s.wirePort = none ∧ s.host = 0xFFFFFFFF :: [] ∧
      decode (.cmd32 0xFFFFFFFF) = .error .reservedUnit := by
  and_intros <;> rfl

theorem witness_BusyAcceptsNothing :
    let s := waiting (.convPoll .convert) [false]
    s.rst = false ∧ s.busy = true ∧ s.seq ≠ .idle := by
  decide

theorem witness_Handshake_StatusTable :
    Instr.isCommand .owReset = true ∧ Instr.isCommand .owdevSkipRom = false ∧
      (stateOf s0 (exec .owReset (scripted [false]))).busy = false ∧
      (stateOf s0 (exec .owConvert (limited 1 [false, false]))).rspStatus = .pollTimeout := by
  decide

theorem witness_RstResets :
    let s : State := { waiting .pwLow [true] with rst := true }
    s.rst = true ∧ s.par.i2cHzReset = 100000 := by
  decide

theorem witness_HangStaysBusy_conv :
    let s := waiting (.convPoll .rawtemp) (List.replicate (0 + 1) false)
    s.rst = false ∧ s.busy = true ∧ s.seq = .convPoll .rawtemp ∧ s.par.owConvPollLimit = none ∧
      s.script = List.replicate (0 + 1) false := by
  decide

theorem witness_HangStaysBusy_low :
    let s := waiting .pwLow (List.replicate (3 + 1) false)
    s.rst = false ∧ s.busy = true ∧ s.seq = .pwLow ∧ s.par.pwPollLimit = none ∧
      s.script = List.replicate (3 + 1) false := by
  decide

theorem witness_HangStaysBusy_high :
    let s := waiting .pwHigh (List.replicate (0 + 1) true)
    s.rst = false ∧ s.busy = true ∧ s.seq = .pwHigh ∧ s.par.pwPollLimit = none ∧
      s.script = List.replicate (0 + 1) true := by
  decide

theorem witness_HangStaysBusy_spin :
    let s : State := { waiting (.rsSpin .update) [] with rsReady := false }
    s.rst = false ∧ s.busy = true ∧ s.seq = .rsSpin .update ∧ s.par.rsSpinLimit = none ∧ s.rsReady = false := by
  decide

/-- The three loops a reachable command waits in, each entered by a command whose scripted answers ran out. -/
theorem witness_WaitingIsSeamless (i : Instr) (as : List Bool)
    (h : (i, as) ∈ [(Instr.owConvert, [false, false]), (.pwSample, [false]), (.pwSample, [true, true])]) :
    i.isCommand = true ∧ (scripted as).rst = false ∧
      ∃ t, exec i (scripted as) = .next t ∧ t.busy = true ∧ t.script = [] ∧ t.freeCount = (scripted as).freeCount ∧
        [true] ≠ ([] : List Bool) := by
  simp only [List.mem_cons, List.not_mem_nil, or_false, Prod.mk.injEq] at h
  obtain ⟨rfl, rfl⟩ | ⟨rfl, rfl⟩ | ⟨rfl, rfl⟩ := h <;>
    exact ⟨rfl, rfl, _, rfl, by decide, by decide, by decide, by decide⟩

theorem witness_LoopbackRoundTrip :
    let t := stateOf s0 (exec (.owWbyte 0xA5) (scripted (lsb 0xA5)))
    vectorParams.legal = true ∧ exec (.owWbyte 0xA5) (scripted (lsb 0xA5)) = .next t ∧ (lsb 0xA5).length = 8 ∧
      t.trace = (lsb 0xA5).flatMap (waveOwWrite vectorParams) ∧ gives t (lsb 0xA5) := by
  refine ⟨by decide, rfl, by decide, by decide +kernel, ?_⟩
  unfold gives
  decide +kernel

theorem witness_OwConvertResult_no_device : nextAnswer (scripted [true]) = true := by decide

/-- Answered at the first poll, with and without a limit, and at the last one a limit of 3 allows. -/
theorem witness_OwConvertResult_done :
    withinLimit (scripted (bits [0, 1])).par.owConvPollLimit 0 = true ∧
      (scripted (bits [0, 1])).script = false :: (List.replicate 0 false ++ true :: []) ∧
      withinLimit (limited 3 (bits [0, 0, 0, 1])).par.owConvPollLimit 2 = true ∧
      (limited 3 (bits [0, 0, 0, 1])).script = false :: (List.replicate 2 false ++ true :: []) := by
  decide

theorem witness_OwConvertResult_limit :
    0 < 1 ∧ (limited 1 (bits [0, 0])).par.owConvPollLimit = some 1 ∧
      gives (limited 1 (bits [0, 0])) (false :: List.replicate 1 false) := by
  unfold gives
  decide

theorem witness_ConversionEdges :
    (limited 0 [false]).par.owConvPollLimit = some 0 ∧ nextAnswer (limited 0 [false]) = false ∧
      (scripted (bits [0, 0])).par.owConvPollLimit = none ∧
      (scripted (bits [0, 0])).script = false :: List.replicate (0 + 1) false := by
  decide

theorem witness_OwTemperatureResult :
    let s := scripted (bits [0, 0, 0, 1, 0] ++ (lsb 0x5E ++ lsb 0xFF))
    withinLimit s.par.owConvPollLimit 2 = true ∧ (lsb 0x5E ++ lsb 0xFF).length = 16 ∧
      s.script = false :: (List.replicate 2 false ++ true :: false :: ((lsb 0x5E ++ lsb 0xFF) ++ [])) := by
  decide

/-- The first reset, the poll limit, the second reset, the wait. -/
theorem witness_OwTemperatureFails :
    nextAnswer (scripted [true]) = true ∧
      ((limited 1 (bits [0, 0])).par.owConvPollLimit = some 1 ∧
        answers 2 (limited 1 (bits [0, 0])) = false :: List.replicate 1 false) ∧
      (withinLimit (scripted (bits [0, 1, 1])).par.owConvPollLimit 0 = true ∧
        (scripted (bits [0, 1, 1])).script = false :: (List.replicate 0 false ++ true :: true :: [])) ∧
      (scripted (bits [0, 0])).par.owConvPollLimit = none ∧
      (scripted (bits [0, 0])).script = false :: List.replicate (0 + 1) false := by
  decide

theorem witness_ReadromSpelledOut_OwDurations : nextAnswer (scripted [false]) = false := by decide

theorem witness_I2cWaitResult_first_poll : 0 < 500 ∧ gives (scripted [false]) (List.replicate 0 true ++ [false]) := by
  unfold gives
  decide

theorem witness_I2cWaitResult_last_poll :
    499 < 500 ∧ gives (scripted (List.replicate 499 true ++ [false])) (List.replicate 499 true ++ [false]) :=
  ⟨by decide, gives_of_script (List.append_nil _).symm⟩

theorem witness_I2cWaitResult_expires : gives (scripted (List.replicate 500 true)) (List.replicate 500 true) :=
  gives_of_script (List.append_nil _).symm

theorem witness_I2cSetfreqResult : (0 : BitVec 24) = 0 ∧ (1 : BitVec 24) ≠ 0 ∧ (16777215 : BitVec 24) ≠ 0 := by decide

/-- What the statements about guarded commands assume of the guard (RsUpdateSucceeds, RsUpdateFails, RsResetResult,
RsChkbatResult, RsSetFlagResult, RsConnresetResult, RsGuardedLeavesBus), without a limit and with the smallest one that
lets a command through. -/
theorem witness_guard_free :
    s0.rsReady = true ∧ withinLimit s0.par.rsSpinLimit 0 = true ∧ (limited 1 []).rsReady = true ∧
      withinLimit (limited 1 []).par.rsSpinLimit 0 = true := by
  decide

theorem witness_RsUpdateSucceeds :
    let as := false :: (List.replicate 2 true ++ [false] ++ msb 0x18 ++ msb 0x9C) ++
      false :: (List.replicate 0 true ++ [false] ++ msb 0x05 ++ msb 0x4B)
    (scripted as).rsReady = true ∧ withinLimit (scripted as).par.rsSpinLimit 0 = true ∧ 2 < 500 ∧ 0 < 500 ∧
      (msb 0x18).length = 8 ∧ (msb 0x9C).length = 8 ∧ (msb 0x05).length = 8 ∧ (msb 0x4B).length = 8 ∧
      gives (scripted as) as := by
  unfold gives
  decide

theorem witness_RsUpdateFails_first : nextAnswer (scripted [true]) = true := by decide

theorem witness_RsUpdateFails_expired : gives (scripted (false :: List.replicate 500 true)) (false :: List.replicate 500 true) :=
  gives_of_script (List.append_nil _).symm

theorem witness_RsUpdateFails_second :
    let as := false :: (List.replicate 0 true ++ [false] ++ msb 0x18 ++ msb 0x9C)
    0 < 500 ∧ (msb 0x18).length = 8 ∧ (msb 0x9C).length = 8 ∧ gives (scripted (as ++ [true])) (as ++ [true]) := by
  unfold gives
  decide

theorem witness_RsUpdateFails_second_expired :
    let as := false :: (List.replicate 499 true ++ [false] ++ msb 0x18 ++ msb 0x9C)
    499 < 500 ∧ (msb 0x18).length = 8 ∧ (msb 0x9C).length = 8 ∧
      gives (scripted (as ++ (false :: List.replicate 500 true))) (as ++ (false :: List.replicate 500 true)) :=
  ⟨by decide, by decide, by decide, gives_of_script (List.append_nil _).symm⟩

theorem witness_RsChkbatResult :
    nextAnswer (scripted [true]) = true ∧ (msb 0x45).length = 8 ∧ gives (scripted (false :: msb 0x45)) (false :: msb 0x45) := by
  unfold gives
  decide

theorem witness_RsSetFlagResult :
    ((Instr.rsSetheater true = .rsSetheater true ∧ 2 = 2) ∨ (Instr.rsSetheater true = .rsSetres true ∧ 2 = 0) ∨
        (Instr.rsSetheater true = .rsSetotp true ∧ 2 = 1)) ∧
      nextAnswer (scripted [true]) = true ∧ gives (scripted [false, true]) [false, true] := by
  unfold gives
  decide

/-- The flag not free under a limit; a limit of 0 with the flag free; the flag not free without a limit. -/
theorem witness_RsGuardNotFree :
    let s : State := { limited 20 [] with rsReady := false }
    let t : State := { s0 with rsReady := false }
    (s.par.rsSpinLimit = some 20 ∧ (s.rsReady = false ∨ 20 = 0)) ∧
      ((limited 0 []).par.rsSpinLimit = some 0 ∧ ((limited 0 []).rsReady = false ∨ 0 = 0)) ∧
      t.par.rsSpinLimit = none ∧ t.rsReady = false := by
  decide

/-- Forty pulses, each seen at the first poll of both waits. -/
def pulses (vs : List Byte) : List PwPulse := (vs.flatMap msb).map fun b => ⟨0, 0, b⟩

/-- A frame whose checksum holds and one whose does not; the first bit after three failed polls of each wait. -/
theorem witness_PwSampleFrame (last : Byte) (h : last ∈ [0xA0, 0xA1]) :
    let us := ⟨3, 3, false⟩ :: (pulses [0x02, 0x8C, 0x01, 0x11, last]).drop 1
    let s := scripted (us.flatMap PwPulse.answers)
    us.length = 40 ∧
      (∀ u ∈ us, withinLimit s.par.pwPollLimit u.lows = true ∧ withinLimit s.par.pwPollLimit u.highs = true) ∧
      s.script = us.flatMap PwPulse.answers ++ [] := by
  simp only [List.mem_cons, List.not_mem_nil, or_false] at h
  obtain rfl | rfl := h <;> decide +kernel

/-- In the first bit, and in the fortieth. -/
theorem witness_PwSampleLimit (us : List PwPulse) (h : us ∈ [[], (pulses [0x02, 0x8C, 0x01, 0x11, 0xA0]).take 39]) :
    let low := us.flatMap PwPulse.answers ++ List.replicate 1 false
    let high := us.flatMap PwPulse.answers ++ (List.replicate 0 false ++ [true] ++ List.replicate 1 true)
    (limited 1 low).par.pwPollLimit = some 1 ∧ us.length < 40 ∧ (∀ u ∈ us, u.lows < 1 ∧ u.highs < 1) ∧ 0 < 1 ∧
      gives (limited 1 low) low ∧ gives (limited 1 high) high := by
  refine ⟨rfl, ?_, ?_, by decide, gives_of_script (List.append_nil _).symm, gives_of_script (List.append_nil _).symm⟩ <;>
    simp only [List.mem_cons, List.not_mem_nil, or_false] at h <;> obtain rfl | rfl := h <;> decide +kernel

/-- A limit of 0, in the first bit (log 3). -/
theorem witness_PwSampleLimit_zero :
    (limited 0 []).par.pwPollLimit = some 0 ∧ ([] : List PwPulse).length < 40 ∧
      (∀ u ∈ ([] : List PwPulse), u.lows < 0 ∧ u.highs < 0) ∧ gives (limited 0 []) ([] ++ List.replicate 0 false) := by
  refine ⟨rfl, by decide, ?_, rfl⟩
  intro u h
  cases h

theorem witness_PwSampleWaits (us : List PwPulse) (h : us ∈ [[], (pulses [0x02, 0x8C, 0x01, 0x11, 0xA0]).take 39]) :
    let low := us.flatMap PwPulse.answers ++ List.replicate (0 + 1) false
    let high := us.flatMap PwPulse.answers ++ (List.replicate 0 false ++ [true] ++ List.replicate (0 + 1) true)
    (scripted low).par.pwPollLimit = none ∧ us.length < 40 ∧ (scripted low).script = low ∧
      (scripted high).script = high := by
  refine ⟨rfl, ?_, rfl, rfl⟩
  simp only [List.mem_cons, List.not_mem_nil, or_false] at h
  obtain rfl | rfl := h <;> decide +kernel

theorem witness_bytes_sent :
    (Instr.owdevReadRom, (0x33 : Byte)) ∈ [(Instr.owdevReadRom, (0x33 : Byte))] ∧
      (Instr.rsdevResetDevice, (0x1E : Byte)) ∈ [(Instr.rsdevResetDevice, (0x1E : Byte))] ∧
      (Instr.rsflagBattery, (0x40 : Byte)) ∈ [(Instr.rsflagBattery, (0x40 : Byte))] := by
  decide

theorem witness_InvKept :
    let s : State := { scripted [false] with host := [0x00000000] }
    Inv s = true ∧ step s = .next (stateOf s0 (step s)) ∧ Inv (waiting (.convPoll .convert) [false]) = true ∧
      step (waiting (.convPoll .convert) [false]) = .next (stateOf s0 (step (waiting (.convPoll .convert) [false]))) :=
  ⟨by decide, rfl, by decide, rfl⟩

theorem witness_RunsAreSafe : Inv State.reset = true ∧ State.reset.wirePort = none := by decide

/-- The clause about a busy step in Handshake, StatusTable, TraceIsWhole, SamplesReleased, OwnLinesOnly and StateTouched: a
waiting command that a step takes on, one for each unit that can wait. -/
theorem witness_busy_step (s : State) (i : Instr)
    (h : (s, i) ∈ [(waiting .pwHigh [true, false, true], Instr.pwSample),
      (waiting (.convPoll .rawtemp) [false, false], .owRawtemp), (waiting (.rsSpin .chkbat) [true], .rsChkbat)]) :
    s.rst = false ∧ s.busy = true ∧ s.seq ≠ .idle ∧ s.rspValid = false ∧ s.seq.command = some i ∧
      (Inv s = true ∨ i = .rsChkbat) ∧ step s = .next (stateOf s0 (step s)) := by
  simp only [List.mem_cons, List.not_mem_nil, or_false, Prod.mk.injEq] at h
  obtain ⟨rfl, rfl⟩ | ⟨rfl, rfl⟩ | ⟨rfl, rfl⟩ := h <;>
    exact ⟨rfl, rfl, by decide, rfl, rfl, by decide, rfl⟩

/-- `POLL_TIMEOUT` of a step that takes a waiting command on (StatusTable). -/
theorem witness_StatusTable_busy :
    let s : State := { limited 1 [false] with busy := true, seq := .convPoll .convert }
    s.rst = false ∧ s.busy = true ∧ s.seq.command = some .owConvert ∧
      (stateOf s0 (step s)).busy = false ∧ (stateOf s0 (step s)).rspStatus = .pollTimeout := by
  decide

theorem witness_StateTouched :
    Unit4.ow ≠ Unit4.pw ∧ Instr.owReset.unit ≠ .i2c ∧ (∀ res, Instr.pwGet ≠ .owSetres res) ∧
      (∀ hz, Instr.pwGet ≠ .i2cSetfreq hz) ∧ (∀ g, Instr.pwGet ≠ guardedInstr g) := by
  refine ⟨by decide, by decide, ?_, ?_, ?_⟩
  · intro res h; cases h
  · intro hz h; cases h
  · intro g h; cases g <;> cases h

theorem witness_LocalCommandsIdempotent :
    Instr.rsSetscale true = .rsGettemp ∨ Instr.rsSetscale true = .rsGethum ∨
      (∃ b, Instr.rsSetscale true = .rsSetscale b) ∨ Instr.rsSetscale true = .pwGet ∨
      ∃ hz, Instr.rsSetscale true = .i2cSetfreq hz :=
  .inr (.inr (.inl ⟨true, rfl⟩))

end Sys2Proof.Tests
end

section
/-! PROOF. Fetching and dispatch (spec 10_state.md R23): what a step does when the block is idle, and when it is busy. -/

namespace Sys2Proof.Machine

/-- With the wire port empty, the next word of the host is fetched (R23, log 5). -/
theorem fetch_of_host {s : State} {w : Word} {rest : List Word} (hp : s.wirePort = none) (hh : s.host = w :: rest) :
    fetch s = some (.cmd32 w, { s with host := rest }) := by
  simp [fetch, hp, hh]

/-- The wire port comes before the host's words (log 8). -/
theorem fetch_of_wirePort {s : State} {b : Byte} (hp : s.wirePort = some b) :
    fetch s = some (.wire8 b, { s with wirePort := none }) := by
  simp [fetch, hp]

theorem fetch_of_nothing {s : State} (hp : s.wirePort = none) (hh : s.host = []) : fetch s = none := by
  simp [fetch, hp, hh]

theorem step_of_fetch_none {s : State} (hr : s.rst = false) (hb : s.busy = false) (hf : fetch s = none) :
    step s = .next s := by
  simp [step, hr, hb, hf]

theorem step_of_fetch_ok {s t : State} {c : Code} {i : Instr} (hr : s.rst = false) (hb : s.busy = false)
    (hf : fetch s = some (c, t)) (hd : decode c = .ok i) : step s = exec i t := by
  simp [step, hr, hb, hf, hd]

/-- A busy block takes its waiting command on and accepts nothing (R23). -/
theorem step_of_busy {s : State} (hr : s.rst = false) (hb : s.busy = true) : step s = resume s.seq s := by
  simp [step, hr, hb]

/-- Only a command that waits is taken on: at the idle position the model faults (log 12). -/
theorem exists_command_of_resume {pos : Seq} {s t : State} (h : resume pos s = .next t) :
    ∃ i, pos.command = some i := by
  cases pos with
  | idle => cases h
  | convPoll u => cases u <;> exact ⟨_, rfl⟩
  | pwLow => exact ⟨_, rfl⟩
  | pwHigh => exact ⟨_, rfl⟩
  | rsSpin g => exact ⟨_, rfl⟩

/-- Settles O8: each clause is one way to fetch. -/
theorem stepRunsDecoded : Obligations.StepRunsDecoded := by
  intro s hr hb
  refine ⟨?_, ?_, ?_⟩
  · intro w rest i hp hh hd
    exact step_of_fetch_ok hr hb (fetch_of_host hp hh) hd
  · intro b i hp hd
    exact step_of_fetch_ok hr hb (fetch_of_wirePort hp) hd
  · intro hp hh
    exact step_of_fetch_none hr hb (fetch_of_nothing hp hh)

end Sys2Proof.Machine
end

section
/-! PROOF. The whole of what `exec` does to the lines, `TIME` and the oracle, arm by arm, from the laws of the procedures
(spec 00_scope.md R12 to R14, 10_state.md R24, R27). -/

namespace Sys2Proof.Machine

theorem Did.ite {r : Bool} {ls : List Line} {c : Prop} [Decidable c] {s t u : State} (ht : Did r ls s t)
    (hu : Did r ls s u) : Did r ls s (if c then t else u) := by
  split
  · exact ht
  · exact hu

theorem Did.owRes {r : Bool} {ls : List Line} (res : Option (BitVec 2)) (s : State) :
    Did r ls s { s with owRes := res } := .upd rfl

/-- The next state of `o` comes from `s`, with its trace begun anew, by micro-operations on the lines `ls` alone, each
sample on a released line. -/
def EndsOn (ls : List Line) (s : State) (o : Host.Outcome State Fault Refusal) : Prop :=
  ∃ t, o = .next t ∧ Did true ls (beginWire s) t

/-- A command's body runs on the accepted state (R23). -/
theorem EndsOn.of_accept {ls : List Line} {s t : State} (h : Did true ls (accept s) t) : EndsOn ls s (.next t) :=
  ⟨t, rfl, (Did.upd (by rfl) : Did true ls (beginWire s) (accept s)).trans h⟩

/-- A wire constant runs without acceptance (log 8). -/
theorem EndsOn.of_beginWire {ls : List Line} {s t : State} (h : Did true ls (beginWire s) t) : EndsOn ls s (.next t) :=
  ⟨t, rfl, h⟩

/-! ### The commands whose bodies have no law of their own -/

theorem execOwReset_endsOn (s : State) : EndsOn [.owdq] s (execOwReset s) :=
  .of_accept ((owReset_did _).trans (.ite (.raise _ _ _) (.ret _ _)))

theorem execOwSetres_endsOn (res : BitVec 2) (s : State) : EndsOn [.owdq] s (execOwSetres res s) :=
  .of_accept ((owReset_did _).trans (.ite (.raise _ _ _)
    ((owWbyte_did _ _).trans ((owWbyte_did _ _).trans ((owWbyte_did _ _).trans ((owWbyte_did _ _).trans
      ((owWbyte_did _ _).trans ((Did.owRes _ _).trans (.ret _ _)))))))))

theorem execOwReadrom_endsOn (s : State) : EndsOn [.owdq] s (execOwReadrom s) :=
  .of_accept ((owReset_did _).trans (.ite (.raise _ _ _)
    ((owWbyte_did _ _).trans ((owReadRomBytes_did _ _ _).trans (.ret _ _)))))

theorem execI2cWrite_endsOn (v : Byte) (s : State) : EndsOn [.sda, .scl] s (execI2cWrite v s) :=
  .of_accept ((i2cWrite_did v _).trans (.ite (.ret _ _) (.raise _ _ _)))

theorem execI2cWait_endsOn (s : State) : EndsOn [.sda, .scl] s (execI2cWait s) :=
  .of_accept ((i2cWait_did _).trans (.ite (.ret _ _) (.raise _ _ _)))

theorem execI2cSetfreq_endsOn (hz : BitVec 24) (s : State) : EndsOn [.sda, .scl] s (execI2cSetfreq hz s) :=
  .of_accept (.ite (.raise _ _ _) (.upd (by rfl)))

/-! ### The wire constants -/

theorem sendOwByte_endsOn (v : Byte) (s : State) : EndsOn [.owdq] s (.next (sendOwByte v s)) :=
  .of_beginWire (owWbyte_did v _)

theorem sendRsByte_endsOn (v : Byte) (s : State) : EndsOn [.sda, .scl] s (.next (sendRsByte v s)) :=
  .of_beginWire (rsCommand_did v _)

theorem sendRsFlag_endsOn (k : Nat) (s : State) : EndsOn [.sda, .scl] s (.next (sendRsFlag k s)) :=
  .of_beginWire (i2cWrite_did _ _)

/-- Every instruction, in every state, only performs micro-operations on its unit's lines, and the oracle answers their
samples. -/
theorem exec_endsOn (i : Instr) (s : State) : EndsOn (linesOf i.unit) s (exec i s) := by
  have guarded (g : Guarded) : EndsOn [.sda, .scl] s (.next (rsGuarded g (accept s))) := .of_accept (rsGuarded_did g _)
  cases i with
  | owReset => exact execOwReset_endsOn s
  | owWbit b => exact .of_accept ((owWbit_did b _).trans (.ret _ _))
  | owRbit => exact .of_accept ((owRbit_did _).trans (.ret _ _))
  | owWbyte v => exact .of_accept ((owWbyte_did v _).trans (.ret _ _))
  | owRbyte => exact .of_accept ((owRbyte_did _).trans (.ret _ _))
  | owSetres res => exact execOwSetres_endsOn res s
  | owConvert => exact .of_accept (owConvert_did _ _)
  | owRawtemp => exact .of_accept (owConvert_did _ _)
  | owGettemp => exact .of_accept (owConvert_did _ _)
  | owReadrom => exact execOwReadrom_endsOn s
  | i2cStart => exact .of_accept ((i2cStart_did _).trans (.ret _ _))
  | i2cStop => exact .of_accept ((i2cStop_did _).trans (.ret _ _))
  | i2cWrite v => exact execI2cWrite_endsOn v s
  | i2cRead a => exact .of_accept ((i2cRead_did a _).trans (.ret _ _))
  | i2cWait => exact execI2cWait_endsOn s
  | i2cReset => exact .of_accept ((i2cReset_did _).trans (.ret _ _))
  | i2cSetfreq hz => exact execI2cSetfreq_endsOn hz s
  | rsGettemp => exact .of_accept (.ret _ _)
  | rsGethum => exact .of_accept (.ret _ _)
  | rsChkbat => exact guarded .chkbat
  | rsSetheater b => exact guarded (.setheater b)
  | rsSetres b => exact guarded (.setres b)
  | rsSetotp b => exact guarded (.setotp b)
  | rsSetscale b => exact .of_accept (.upd (by rfl))
  | rsUpdate => exact guarded .update
  | rsReset => exact guarded .reset
  | rsConnreset => exact guarded .connreset
  | pwSample => exact .of_accept (pwSample_did _).1
  | pwGet => exact .of_accept (.ret _ _)
  | owdevReadRom | owdevConvert | owdevReadScratchpad | owdevWriteScratchpad | owdevSkipRom
  | owcfg9bit | owcfg10bit | owcfg11bit | owcfg12bit => exact sendOwByte_endsOn _ s
  | rsdevReadTemperature | rsdevReadHumidity | rsdevReadRegister | rsdevWriteRegister | rsdevResetDevice =>
    exact sendRsByte_endsOn _ s
  | rsflagResolution | rsflagOtpReload | rsflagHeater | rsflagBattery => exact sendRsFlag_endsOn _ s

@[simp] theorem gives_beginWire (s : State) (as : List Bool) : gives (beginWire s) as ↔ gives s as := by
  unfold gives
  rw [answers_oracle as.length (s := beginWire s) (t := s) rfl rfl]

/-- Settles O55: an instruction by `exec_endsOn`, whose trace starts empty; a waiting command by `resume_did`. -/
theorem traceIsWhole : Obligations.TraceIsWhole := by
  refine ⟨fun i s => ?_, fun s t hr hb h => ?_⟩
  · obtain ⟨t, he, ops, htrace, hpins, htime, hgives, hscript, hfree, -⟩ := exec_endsOn i s
    obtain rfl : t.trace = ops := htrace
    have oracle := takeAnswers_oracle (s := beginWire s) (t := s) (answersIn t.trace).length rfl rfl
    exact ⟨t, he, hpins, htime, (gives_beginWire s _).mp hgives, hscript.trans oracle.1, hfree.trans oracle.2⟩
  · rw [step_of_busy hr hb] at h
    obtain ⟨i, hi⟩ := exists_command_of_resume h
    obtain ⟨ops, htrace, hpins, htime, hgives, hscript, hfree, -⟩ := resume_did (r := false) nofun hi h
    exact ⟨ops, htrace, hpins, htime, hgives, hscript, hfree⟩

end Sys2Proof.Machine
end

section
/-! PROOF. `ow_convert` on a line where a device is present (spec 42_ow_transactions.md R193), and its poll when no answer
is 1: it ends at a finite limit (R17), or waits without one (70_reset_and_hazards.md R401, log 3). -/

namespace Sys2Proof.Machine

/-- `s` after the reset and the two command bytes of `ow_convert`, where its poll begins. -/
def convertSent (s : State) : State := owWbyte Config.owConvert (owWbyte Config.owSkipRom (owReset s).2)

theorem owConvert_of_present (u : ConvUser) {s : State} (h : nextAnswer s = false) :
    owConvert u s = owConvertPoll u (convertSent s) := by
  simp [owConvert, convertSent, owReset_eq, h]

theorem convertSent_settled {s : State} (h : nextAnswer s = false) :
    settled (convertSent s) =
      after (waveOwReset s.par false ++ waveOwWriteBytes s.par [0xCC, 0x44]) (takeAnswer (settled s)) := by
  simp only [convertSent, owWbyte_settled, owWbyte_par, owReset_eq, h, settled_after, settled_takeAnswer, after_after,
    after_par, takeAnswer_par]
  simp [waveOwWriteBytes, Config.owSkipRom, Config.owConvert]

@[simp] theorem convertSent_par (s : State) : (convertSent s).par = s.par := by
  simp [convertSent, owReset_eq]

@[simp] theorem convertSent_script (s : State) : (convertSent s).script = s.script.tail := by
  simp [convertSent, owReset_eq, takeAnswer_script]

/-- At a finite limit of `n` polls, all answered 0, the poll ends with `POLL_TIMEOUT` (R17). -/
theorem owConvertPoll_of_limit (u : ConvUser) {s : State} {n : Nat} (hl : s.par.owConvPollLimit = some n)
    (h : gives s (List.replicate n false)) :
    owConvertPoll u s =
      afterConvert u .pollTimeout (after (waveOwReadBits s.par (List.replicate n false)) (takeAnswers n s)) := by
  have ha : answers n s = List.replicate n false := by simpa [gives] using h
  simp [owConvertPoll, poll, hl, pollTimes_owRbit_miss n s ha]

/-- Without a limit, and with a script of zeros alone, the command waits after one poll for each (log 3). -/
theorem owConvertPoll_of_zeros (u : ConvUser) {s : State} {m : Nat} (hl : s.par.owConvPollLimit = none)
    (h : s.script = List.replicate (m + 1) false) :
    owConvertPoll u s =
      { after (waveOwReadBits s.par (List.replicate (m + 1) false)) (takeAnswers (m + 1) s) with seq := .convPoll u } := by
  have ha : answers (m + 1) s = List.replicate (m + 1) false := by
    simpa using answers_script (List.replicate (m + 1) false) [] s (by simpa using h)
  simp [owConvertPoll, poll, hl, h, pollTimes_owRbit_miss (m + 1) s ha]

/-- `OW.CONVERT` on the lines, up to `n` polls all answered 0. -/
theorem convertPolled_settled {s : State} (n : Nat) (h : nextAnswer s = false) :
    settled (after (waveOwReadBits s.par (List.replicate n false)) (takeAnswers n (convertSent (accept s)))) =
      after (waveOwReset s.par false ++ waveOwWriteBytes s.par [0xCC, 0x44] ++
        waveOwReadBits s.par (List.replicate n false)) (takeAnswers (n + 1) (accept (settled s))) := by
  rw [settled_after, settled_takeAnswers, convertSent_settled (by simpa using h), takeAnswers_after, after_after,
    settled_accept]
  rfl

/-- Settles O24: with a limit of 0 the poll has no turn; without a limit it has one for each answer of the script. -/
theorem conversionEdges : Obligations.ConversionEdges := by
  refine ⟨fun s hl h => ⟨_, rfl, ?_⟩, fun s m hl hs => ⟨_, rfl, ?_⟩⟩
  · rw [owConvert_of_present _ (by simpa using h),
      owConvertPoll_of_limit _ (n := 0) (by simpa using hl) rfl]
    refine respond_of_body _ _ ?_
    simpa [waveOwReadBits] using convertPolled_settled 0 h
  · have h : nextAnswer s = false := nextAnswer_cons hs
    rw [owConvert_of_present _ (by simpa using h),
      owConvertPoll_of_zeros _ (m := m) (by simpa using hl) (by simp [hs])]
    refine wait_of_body _ ?_
    simpa using convertPolled_settled (m + 1) h

end Sys2Proof.Machine
end

section
/-! PROOF. What no procedure on the lines changes (spec 10_state.md R20, R43): each changes only pins, `TIME`, the trace, the
oracle and the transient registers. -/

namespace Sys2Proof.Machine

/-- `s` with everything erased that a procedure on the lines may change: the transient registers, pins, `TIME`, the trace
and the oracle. -/
def kept (s : State) : State :=
  { settled s with
    pins := ⟨releasedLow, releasedLow, releasedLow, releasedLow⟩, time := 0, trace := [], script := [], freeCount := 0 }

theorem kept_after (ops : List MicroOp) (s : State) : kept (after ops s) = kept s := rfl

theorem kept_takeAnswer (s : State) : kept (takeAnswer s) = kept s := by
  unfold takeAnswer
  split <;> rfl

theorem kept_takeAnswers (n : Nat) (s : State) : kept (takeAnswers n s) = kept s := by
  induction n generalizing s with
  | zero => rfl
  | succ n ih => exact (ih _).trans (kept_takeAnswer s)

/-- A procedure whose law gives its trace and its answers keeps the rest. -/
theorem kept_of_settled {s t : State} {ops : List MicroOp} (n : Nat)
    (h : settled t = after ops (takeAnswers n (settled s))) : kept t = kept s :=
  (congrArg kept h).trans (kept_takeAnswers n (settled s))

/-- The same for a procedure with one sample. -/
theorem kept_of_settled_one {s t : State} {ops : List MicroOp} (h : settled t = after ops (takeAnswer (settled s))) :
    kept t = kept s :=
  (congrArg kept h).trans (kept_takeAnswer (settled s))

/-! ### Unit OW -/

theorem kept_owReset (s : State) : kept (owReset s).2 = kept s := by
  rw [owReset_eq]; exact kept_takeAnswer s

theorem kept_owWbit (b : Bool) (s : State) : kept (owWbit b s) = kept s := by
  rw [owWbit_eq]; rfl

theorem kept_owRbit (s : State) : kept (owRbit s).2 = kept s := by
  rw [owRbit_eq]; exact kept_takeAnswer s

theorem kept_owWbyte (v : Byte) (s : State) : kept (owWbyte v s) = kept s := kept_of_settled 0 (owWbyte_settled v s)

theorem kept_owRbyte (s : State) : kept (owRbyte s).2 = kept s := kept_of_settled 8 (owRbyte_settled s)

theorem kept_owReadRomBytes (ks : List Nat) (d : BitVec 64) (s : State) : kept (owReadRomBytes ks d s).2 = kept s := by
  induction ks generalizing d s with
  | nil => rfl
  | cons k ks ih => exact (ih _ _).trans (kept_owRbyte s)

/-- A polling loop keeps what each of its turns keeps. -/
theorem kept_poll {body : State → Bool × State} (h : ∀ s, kept (body s).2 = kept s) (limit : Option Nat) (s : State) :
    kept (poll body limit s).2 = kept s := by
  obtain ⟨n, hn, -⟩ := poll_state body limit s
  rw [hn]
  exact pollTimes_induct (P := fun a b => kept b = kept a) (fun _ => rfl) (fun k => (h _).trans k) n s

/-! ### Unit I2C -/

theorem kept_i2cStart (s : State) : kept (i2cStart s) = kept s := by rw [i2cStart_eq, kept_after]

theorem kept_i2cStop (s : State) : kept (i2cStop s) = kept s := by rw [i2cStop_eq, kept_after]

theorem kept_i2cReset (s : State) : kept (i2cReset s) = kept s := by rw [i2cReset_eq, kept_after]

theorem kept_i2cWrite (v : Byte) (s : State) :
    kept (i2cWrite v s).2 = kept s := kept_of_settled_one (i2cWrite_spec v s).2

theorem kept_i2cRead (a : Bool) (s : State) : kept (i2cRead a s).2 = kept s := kept_of_settled 8 (i2cRead_spec a s).2

theorem kept_i2cWait (s : State) : kept (i2cWait s).2 = kept s :=
  pollTimes_induct (P := fun a b => kept b = kept a) (fun _ => rfl)
    (fun k => (kept_of_settled_one (i2cWaitPoll_spec _).2).trans k) Config.i2cWaitLimit
    (perform (.release .sda) { s with i2cWaitcnt := 0 })

/-! ### Unit RS -/

theorem kept_rsCommand (cmd : Byte) (s : State) : kept (rsCommand cmd s).2 = kept s :=
  kept_of_settled_one (rsCommand_spec cmd s).2

/-- A measurement read stores its reading or nothing (R273). -/
theorem kept_rsReadMeasurement (cmd : Byte) {store : BitVec 16 → State → State}
    (hs : ∀ v t, kept (store v t) = store v (kept t)) (s : State) :
    kept (rsReadMeasurement cmd store s).2 = kept s ∨ ∃ v, kept (rsReadMeasurement cmd store s).2 = kept (store v s) := by
  have command := kept_rsCommand cmd s
  unfold rsReadMeasurement
  generalize rsCommand cmd s = w at command
  have wait := (kept_i2cWait w.2).trans command
  generalize hk : i2cWait w.2 = k at wait
  dsimp only
  rw [hk]
  split
  · split
    · refine .inr ⟨word16 (i2cRead true k.2).1 (i2cRead false (i2cRead true k.2).2).1, ?_⟩
      rw [kept_i2cStop, hs, kept_i2cRead, kept_i2cRead, wait, hs]
    · exact .inl ((kept_i2cStop _).trans wait)
  · exact .inl ((kept_i2cStop _).trans command)

theorem kept_rsReadTemp (s : State) : ∃ v, kept (rsReadTemp s).2 = kept { s with rsRawTemp := v } := by
  obtain h | ⟨v, h⟩ := kept_rsReadMeasurement Config.rsReadTemperature
    (store := fun v t => { t with rsRawTemp := v }) (fun _ _ => rfl) s
  · exact ⟨s.rsRawTemp, h⟩
  · exact ⟨v, h⟩

theorem kept_rsReadHum (s : State) : ∃ v, kept (rsReadHum s).2 = kept { s with rsRawHum := v } := by
  obtain h | ⟨v, h⟩ := kept_rsReadMeasurement Config.rsReadHumidity
    (store := fun v t => { t with rsRawHum := v }) (fun _ _ => rfl) s
  · exact ⟨s.rsRawHum, h⟩
  · exact ⟨v, h⟩

theorem kept_rsReadStatus (s : State) : ∃ v, kept (rsReadStatus s).2 = kept { s with rsStatus := v } := by
  have command := kept_rsCommand Config.rsReadRegister s
  unfold rsReadStatus
  generalize rsCommand Config.rsReadRegister s = w at command
  dsimp only
  split
  · refine ⟨(i2cRead false w.2).1, ?_⟩
    have read := (kept_i2cRead false w.2).trans command
    rw [kept_i2cStop]
    exact congrArg (fun u : State => { u with rsStatus := (i2cRead false w.2).1 }) read
  · exact ⟨s.rsStatus, (kept_i2cStop _).trans command⟩

theorem kept_rsWritereg (s : State) : kept (rsWritereg s).2 = kept s := by
  have command := kept_rsCommand Config.rsWriteRegister s
  unfold rsWritereg
  dsimp only
  split
  · exact (kept_i2cStop _).trans ((kept_i2cWrite _ _).trans command)
  · exact (kept_i2cStop _).trans command

/-! ### Unit PW -/

theorem kept_pwWaitTurn (v : Bool) (s : State) : kept (pwWaitTurn v s).2 = kept s := by
  rw [pwWaitTurn_eq]
  split <;> exact kept_takeAnswer s

theorem kept_pwDecodeBit (s : State) : kept (pwDecodeBit s) = kept s := by
  rw [pwDecodeBit_eq]; exact kept_takeAnswer s

/-- What the bits of a frame leave (R322, R323): nothing persistent but, where they wait, the position in one of the two
loops, which have no limit then (R17). -/
def PwLeaves (s : State) (q : Poll × State) : Prop :=
  (q.1 = .waiting ∧ s.par.pwPollLimit = none ∧
      ∃ pos, (pos = .pwLow ∨ pos = .pwHigh) ∧ kept q.2 = kept { s with seq := pos }) ∨
    (q.1 ≠ .waiting ∧ kept q.2 = kept s)

/-- What a loop of the frame begins with does not show in what it leaves. -/
theorem PwLeaves.of_kept {s u : State} {q : Poll × State} (h : PwLeaves u q) (k : kept u = kept s) : PwLeaves s q := by
  obtain ⟨hw, hl, pos, hpos, hq⟩ | ⟨hw, hq⟩ := h
  · have hpar : u.par = s.par := (congrArg State.par k :)
    exact .inl ⟨hw, hpar ▸ hl, pos, hpos, hq.trans (congrArg (fun v : State => { v with seq := pos }) k)⟩
  · exact .inr ⟨hw, hq.trans k⟩

theorem pwHighPhase_leaves (s : State) : PwLeaves s (pwHighPhase s) := by
  have k := kept_poll (kept_pwWaitTurn false) s.par.pwPollLimit s
  have l := (poll_result (pwWaitTurn false) s.par.pwPollLimit s).1
  unfold pwHighPhase
  generalize poll (pwWaitTurn false) s.par.pwPollLimit s = q at k l
  obtain ⟨_ | _ | _, u⟩ := q
  · exact .inr ⟨nofun, (kept_pwDecodeBit u).trans k⟩
  · exact .inr ⟨nofun, k⟩
  · exact .inl ⟨rfl, l rfl, .pwHigh, .inr rfl, congrArg (fun v : State => { v with seq := .pwHigh }) k⟩

theorem pwBit_leaves (s : State) : PwLeaves s (pwBit s) := by
  have k := kept_poll (kept_pwWaitTurn true) s.par.pwPollLimit s
  have l := (poll_result (pwWaitTurn true) s.par.pwPollLimit s).1
  unfold pwBit
  generalize poll (pwWaitTurn true) s.par.pwPollLimit s = q at k l
  obtain ⟨_ | _ | _, u⟩ := q
  · exact (pwHighPhase_leaves u).of_kept k
  · exact .inr ⟨nofun, k⟩
  · exact .inl ⟨rfl, l rfl, .pwLow, .inl rfl, congrArg (fun v : State => { v with seq := .pwLow }) k⟩

/-- The bits after one that has left `q` behind. -/
theorem PwLeaves.andThen {s : State} {q : Poll × State} (h : PwLeaves s q) {f : Poll × State → Poll × State}
    (hdone : ∀ u, PwLeaves u (f (.done, u))) (hlimit : ∀ u, f (.limit, u) = (.limit, u))
    (hwaiting : ∀ u, f (.waiting, u) = (.waiting, u)) : PwLeaves s (f q) := by
  obtain ⟨_ | _ | _, u⟩ := q
  · obtain ⟨hw, -⟩ | ⟨-, k⟩ := h
    · cases hw
    · exact (hdone u).of_kept k
  · rw [hlimit]; exact h
  · rw [hwaiting]; exact h

theorem pwBits_leaves (n : Nat) (s : State) : PwLeaves s (pwBits n s) := by
  induction n generalizing s with
  | zero => exact .inr ⟨nofun, rfl⟩
  | succ n ih =>
    exact (pwBit_leaves s).andThen (f := fun q => match q.1 with | .done => pwBits n q.2 | .limit => q | .waiting => q)
      ih (fun _ => rfl) (fun _ => rfl)

theorem pwRest_leaves {s : State} {q : Poll × State} (h : PwLeaves s q) : PwLeaves s (pwRest q) :=
  h.andThen (fun u => pwBits_leaves _ u) (fun _ => rfl) (fun _ => rfl)

end Sys2Proof.Machine
end

section
/-! PROOF. How every command leaves the persistent state (spec 10_state.md R20, R23, R43): it ends with a response, having
written what its row of the table allows, or it waits at its position. -/

namespace Sys2Proof.Machine

/-- What a command may write in the persistent state before its response, from the "written by" column of R20. -/
inductive Writes : Instr → (State → State) → Prop
  | nothing (i : Instr) : Writes i id
  | owRes (res : BitVec 2) : Writes (.owSetres res) fun s => { s with owRes := some res }
  | i2cHalfUs (hz : BitVec 24) : Writes (.i2cSetfreq hz) fun s => { s with i2cHalfUs := halfCycle hz }
  | rsReadings (temp hum : BitVec 16) :
    Writes .rsUpdate fun s => { s with rsReady := true, rsRawTemp := temp, rsRawHum := hum }
  | rsCleared : Writes .rsReset fun s => { s with rsReady := true, rsStatus := 0, rsRawTemp := 0, rsRawHum := 0 }
  | rsChkbat (v : Byte) : Writes .rsChkbat fun s => { s with rsReady := true, rsStatus := v }
  | rsSetheater (b : Bool) (v : Byte) : Writes (.rsSetheater b) fun s => { s with rsReady := true, rsStatus := v }
  | rsSetres (b : Bool) (v : Byte) : Writes (.rsSetres b) fun s => { s with rsReady := true, rsStatus := v }
  | rsSetotp (b : Bool) (v : Byte) : Writes (.rsSetotp b) fun s => { s with rsReady := true, rsStatus := v }
  | rsConnreset : Writes .rsConnreset fun s => { s with rsReady := true }
  | rsScale (b : Bool) : Writes (.rsSetscale b) fun s => { s with rsScale := b }
  | pwReadings (hum temp : BitVec 16) : Writes .pwSample fun s => { s with pwHum := hum, pwTemp := temp }

theorem Writes.kept {i : Instr} {f : State → State} (w : Writes i f) (s : State) : kept (f s) = f (kept s) := by
  cases w <;> rfl

/-- The loop a command waits in has no limit (R17), and a spin finds `RS_READY` 0 (R272). -/
def Seq.Loops (pos : Seq) (s : State) : Prop :=
  match pos with
  | .idle => False
  | .convPoll _ => s.par.owConvPollLimit = none
  | .pwLow => s.par.pwPollLimit = none
  | .pwHigh => s.par.pwPollLimit = none
  | .rsSpin _ => s.par.rsSpinLimit = none ∧ s.rsReady = false

theorem Seq.Loops.of_kept {pos : Seq} {s u : State} (h : pos.Loops u) (k : kept u = kept s) : pos.Loops s := by
  have hpar : u.par = s.par := (congrArg State.par k :)
  have hready : u.rsReady = s.rsReady := (congrArg State.rsReady k :)
  cases pos <;> simp_all [Seq.Loops]

/-- From `s` the command `i` has come to `t`: it has ended, or it waits in a loop of its own. -/
def Leaves (i : Instr) (s t : State) : Prop :=
  (∃ f st data, Writes i f ∧ kept t = kept (respond st data (f s))) ∨
    ∃ pos, pos.command = some i ∧ pos.Loops s ∧ kept t = kept { s with seq := pos }

/-- A procedure that a command begins with does not show in what it leaves. -/
theorem Leaves.of_kept {i : Instr} {s t u : State} (h : Leaves i u t) (k : kept u = kept s) : Leaves i s t := by
  obtain ⟨f, st, data, w, ht⟩ | ⟨pos, hpos, hl, ht⟩ := h
  · refine .inl ⟨f, st, data, w, ht.trans ?_⟩
    have hf : kept (f u) = kept (f s) := by rw [w.kept, w.kept, k]
    exact congrArg (respond st data) hf
  · exact .inr ⟨pos, hpos, hl.of_kept k, ht.trans (congrArg (fun v : State => { v with seq := pos }) k)⟩

/-- A command that has only run procedures ends. -/
theorem Leaves.respond {i : Instr} {s u : State} {st : Status} {data : BitVec 64} (k : kept u = kept s) :
    Leaves i s (respond st data u) :=
  .inl ⟨id, st, data, .nothing i, congrArg (Machine.respond st data) k⟩

theorem Leaves.ite {i : Instr} {c : Prop} [Decidable c] {s t u : State} (ht : Leaves i s t) (hu : Leaves i s u) :
    Leaves i s (if c then t else u) := by
  split
  · exact ht
  · exact hu

/-! ### Unit OW -/

/-- The command that contains `ow_convert`. -/
def ConvUser.instr : ConvUser → Instr
  | .convert => .owConvert
  | .rawtemp => .owRawtemp
  | .gettemp => .owGettemp

theorem command_convPoll (u : ConvUser) : (Seq.convPoll u).command = some u.instr := by cases u <;> rfl

theorem owConvertEnd_leaves (i : Instr) (st : Status) (s : State) : Leaves i s (owConvertEnd st s) := by
  cases st <;> exact .respond rfl

theorem owRawtempEnd_leaves (i : Instr) (st : Status) (s : State) : Leaves i s (owRawtempEnd st s) := by
  unfold owRawtempEnd
  refine .ite (.respond rfl) ?_
  have reset := kept_owReset s
  refine .ite (.respond reset) (.respond ?_)
  exact (kept_owRbyte _).trans ((kept_owRbyte _).trans ((kept_owWbyte _ _).trans ((kept_owWbyte _ _).trans reset)))

theorem afterConvert_leaves (i : Instr) (u : ConvUser) (st : Status) (s : State) :
    Leaves i s (afterConvert u st s) := by
  cases u
  · exact owConvertEnd_leaves i st s
  · exact owRawtempEnd_leaves i st s
  · exact owRawtempEnd_leaves i st s

theorem owConvertPoll_leaves (u : ConvUser) (s : State) : Leaves u.instr s (owConvertPoll u s) := by
  have k := kept_poll kept_owRbit s.par.owConvPollLimit s
  have l := (poll_result owRbit s.par.owConvPollLimit s).1
  unfold owConvertPoll
  dsimp only
  split
  · exact (afterConvert_leaves _ u .ok _).of_kept k
  · exact (afterConvert_leaves _ u .pollTimeout _).of_kept k
  · exact .inr ⟨_, command_convPoll u, l ‹_›, congrArg (fun v : State => { v with seq := .convPoll u }) k⟩

theorem owConvert_leaves (u : ConvUser) (s : State) : Leaves u.instr s (owConvert u s) := by
  have reset := kept_owReset s
  unfold owConvert
  refine .ite ((afterConvert_leaves _ u .noPresence _).of_kept reset) ?_
  exact (owConvertPoll_leaves u _).of_kept ((kept_owWbyte _ _).trans ((kept_owWbyte _ _).trans reset))

theorem execOwSetres_leaves (res : BitVec 2) (s : State) :
    ∃ t, execOwSetres res s = .next t ∧ Leaves (.owSetres res) (accept s) t := by
  have reset := kept_owReset (accept s)
  refine ⟨_, rfl, .ite (.respond reset) (.inl ⟨_, .ok, 0, .owRes res, ?_⟩)⟩
  refine congrArg (fun u : State => respond .ok 0 { u with owRes := some res }) (?_ : kept _ = kept _)
  exact (kept_owWbyte _ _).trans ((kept_owWbyte _ _).trans ((kept_owWbyte _ _).trans ((kept_owWbyte _ _).trans
    ((kept_owWbyte _ _).trans reset))))

theorem execOwReadrom_leaves (s : State) : ∃ t, execOwReadrom s = .next t ∧ Leaves .owReadrom (accept s) t := by
  have reset := kept_owReset (accept s)
  refine ⟨_, rfl, .ite (.respond reset) (.respond ?_)⟩
  exact (kept_owReadRomBytes _ _ _).trans ((kept_owWbyte _ _).trans reset)

/-! ### Unit RS -/

/-- The two reads of `RS.UPDATE` (R278): the second comes only after a first that succeeded. -/
theorem kept_updateReads (s : State) :
    ∃ temp hum, kept (if (rsReadTemp s).1 = .ok then rsReadHum (rsReadTemp s).2 else rsReadTemp s).2 =
      kept { s with rsRawTemp := temp, rsRawHum := hum } := by
  obtain ⟨temp, ht⟩ := kept_rsReadTemp s
  split
  · obtain ⟨hum, hh⟩ := kept_rsReadHum (rsReadTemp s).2
    exact ⟨temp, hum, hh.trans (congrArg (fun u : State => { u with rsRawHum := hum }) ht)⟩
  · exact ⟨temp, s.rsRawHum, ht⟩

theorem kept_rsUpdateBody (s : State) : ∃ st data temp hum, kept (rsUpdateBody s) =
    kept (respond st data { s with rsReady := true, rsRawTemp := temp, rsRawHum := hum }) := by
  obtain ⟨temp, hum, h⟩ := kept_updateReads s
  unfold rsUpdateBody
  dsimp only
  generalize (if (rsReadTemp s).1 = .ok then rsReadHum (rsReadTemp s).2 else rsReadTemp s) = r at h
  exact ⟨r.1, _, temp, hum, congrArg (fun u => respond r.1 _ (rsRelease u)) h⟩

theorem kept_rsResetBody (s : State) : ∃ st, kept (rsResetBody s) =
    kept (respond st 0 { s with rsReady := true, rsStatus := 0, rsRawTemp := 0, rsRawHum := 0 }) := by
  have command := kept_rsCommand Config.rsResetDevice s
  unfold rsResetBody
  generalize rsCommand Config.rsResetDevice s = w at command
  have stopped := (kept_i2cStop w.2).trans command
  dsimp only
  generalize i2cStop w.2 = t at stopped
  have cleared :=
    congrArg (fun u : State => { u with rsReady := true, rsStatus := 0, rsRawTemp := 0, rsRawHum := 0 }) stopped
  split
  · exact ⟨.ok, congrArg (respond .ok 0) cleared⟩
  · exact ⟨.noAck, congrArg (respond .noAck 0) cleared⟩

/-- What the body of a guarded command leaves (R277 to R283, R287): the flag `RS_READY` at 1 again in every case. -/
theorem guardedBody_leaves (g : Guarded) (s : State) :
    ∃ f st data, Writes (guardedInstr g) f ∧
      kept (guardedBody g { s with rsReady := false }) = kept (respond st data (f s)) := by
  have setFlag (k : Nat) (b : Bool) (s : State) : ∃ st data v,
      kept (rsSetFlagBody k b s) = kept (respond st data { s with rsReady := true, rsStatus := v }) :=
    ⟨_, _, putBit s.rsStatus k b, congrArg (fun u => respond _ _ (rsRelease u)) (kept_rsWritereg _)⟩
  cases g with
  | update =>
    obtain ⟨st, data, temp, hum, h⟩ := kept_rsUpdateBody { s with rsReady := false }
    exact ⟨_, st, data, .rsReadings temp hum, h⟩
  | reset =>
    obtain ⟨st, h⟩ := kept_rsResetBody { s with rsReady := false }
    exact ⟨_, st, 0, .rsCleared, h⟩
  | chkbat =>
    obtain ⟨v, h⟩ := kept_rsReadStatus { s with rsReady := false }
    exact ⟨_, _, _, .rsChkbat v, congrArg (fun u => respond _ _ (rsRelease u)) h⟩
  | setheater b =>
    obtain ⟨st, data, v, h⟩ := setFlag flagHeater b { s with rsReady := false }
    exact ⟨_, st, data, .rsSetheater b v, h⟩
  | setres b =>
    obtain ⟨st, data, v, h⟩ := setFlag flagRes b { s with rsReady := false }
    exact ⟨_, st, data, .rsSetres b v, h⟩
  | setotp b =>
    obtain ⟨st, data, v, h⟩ := setFlag flagOtp b { s with rsReady := false }
    exact ⟨_, st, data, .rsSetotp b v, h⟩
  | connreset => exact ⟨_, .ok, 0, .rsConnreset, congrArg (fun u => respond .ok 0 (rsRelease u)) (kept_i2cReset _)⟩

/-- The spin waits only without a limit, on `RS_READY` = 0 (R272). -/
theorem rsAcquire_waiting {s : State} (h : (rsAcquire s).1 = .waiting) :
    s.par.rsSpinLimit = none ∧ s.rsReady = false := by
  have hl := (poll_result _ _ _).1 h
  refine ⟨hl, ?_⟩
  obtain ⟨n, hn⟩ : ∃ n, max 1 s.script.length = n + 1 := ⟨max 1 s.script.length - 1, by omega⟩
  rw [rsAcquire, hl, poll, hn, pollTimes] at h
  cases hr : s.rsReady with
  | false => rfl
  | true => simp [hr] at h

theorem rsGuarded_leaves (g : Guarded) (s : State) : Leaves (guardedInstr g) s (rsGuarded g s) := by
  unfold rsGuarded
  dsimp only
  rw [rsAcquire_state]
  split
  · exact .inl (guardedBody_leaves g s)
  · exact .respond rfl
  · exact .inr ⟨.rsSpin g, rfl, rsAcquire_waiting ‹_›, rfl⟩

/-! ### Unit PW -/

/-- The checksum test stores both readings or neither (R323). -/
theorem pwCheck_leaves {s u : State} (k : kept u = kept s) : Leaves .pwSample s (pwCheck u) := by
  have stored (hum temp : BitVec 16) := congrArg (fun v : State => { v with pwHum := hum, pwTemp := temp }) k
  unfold pwCheck
  dsimp only
  split
  · exact .inl ⟨_, .ok, _, .pwReadings _ _, congrArg (Machine.respond .ok _) (stored _ _)⟩
  · exact .respond k

theorem pwFinish_leaves {s : State} {q : Poll × State} (h : PwLeaves s q) : Leaves .pwSample s (pwFinish q) := by
  obtain ⟨_ | _ | _, u⟩ := q
  · obtain ⟨hw, -⟩ | ⟨-, k⟩ := h
    · cases hw
    · exact pwCheck_leaves k
  · obtain ⟨hw, -⟩ | ⟨-, k⟩ := h
    · cases hw
    · exact .respond k
  · obtain ⟨-, hl, pos, rfl | rfl, k⟩ | ⟨hw, -⟩ := h
    · exact .inr ⟨.pwLow, rfl, hl, k⟩
    · exact .inr ⟨.pwHigh, rfl, hl, k⟩
    · exact absurd rfl hw

theorem pwSample_leaves (s : State) : Leaves .pwSample s (pwSample s) :=
  (pwFinish_leaves (pwBits_leaves _ _)).of_kept (by rw [performAll_eq]; rfl)

theorem pwResumeLow_leaves (s : State) : Leaves .pwSample s (pwResumeLow s) :=
  pwFinish_leaves (pwRest_leaves (pwBit_leaves s))

theorem pwResumeHigh_leaves (s : State) : Leaves .pwSample s (pwResumeHigh s) :=
  pwFinish_leaves (pwRest_leaves (pwHighPhase_leaves s))

/-! ### Every command, and every wire constant -/

/-- Every command in every state has a next state, which is one of the two. -/
theorem exec_leaves (i : Instr) (s : State) (h : i.isCommand = true) :
    ∃ t, exec i s = .next t ∧ Leaves i (accept s) t := by
  have guarded (g : Guarded) := rsGuarded_leaves g (accept s)
  cases i with
  | owReset => exact ⟨_, rfl, .ite (.respond (kept_owReset _)) (.respond (kept_owReset _))⟩
  | owWbit b => exact ⟨_, rfl, .respond (kept_owWbit b _)⟩
  | owRbit => exact ⟨_, rfl, .respond (kept_owRbit _)⟩
  | owWbyte v => exact ⟨_, rfl, .respond (kept_owWbyte v _)⟩
  | owRbyte => exact ⟨_, rfl, .respond (kept_owRbyte _)⟩
  | owSetres res => exact execOwSetres_leaves res s
  | owConvert => exact ⟨_, rfl, owConvert_leaves .convert _⟩
  | owRawtemp => exact ⟨_, rfl, owConvert_leaves .rawtemp _⟩
  | owGettemp => exact ⟨_, rfl, owConvert_leaves .gettemp _⟩
  | owReadrom => exact execOwReadrom_leaves s
  | i2cStart => exact ⟨_, rfl, .respond (kept_i2cStart _)⟩
  | i2cStop => exact ⟨_, rfl, .respond (kept_i2cStop _)⟩
  | i2cWrite v => exact ⟨_, rfl, .ite (.respond (kept_i2cWrite v _)) (.respond (kept_i2cWrite v _))⟩
  | i2cRead a => exact ⟨_, rfl, .respond (kept_i2cRead a _)⟩
  | i2cWait => exact ⟨_, rfl, .ite (.respond (kept_i2cWait _)) (.respond (kept_i2cWait _))⟩
  | i2cReset => exact ⟨_, rfl, .respond (kept_i2cReset _)⟩
  | i2cSetfreq hz => exact ⟨_, rfl, .ite (.respond rfl) (.inl ⟨_, .ok, 0, .i2cHalfUs hz, rfl⟩)⟩
  | rsGettemp => exact ⟨_, rfl, .respond rfl⟩
  | rsGethum => exact ⟨_, rfl, .respond rfl⟩
  | rsChkbat => exact ⟨_, rfl, guarded .chkbat⟩
  | rsSetheater b => exact ⟨_, rfl, guarded (.setheater b)⟩
  | rsSetres b => exact ⟨_, rfl, guarded (.setres b)⟩
  | rsSetotp b => exact ⟨_, rfl, guarded (.setotp b)⟩
  | rsSetscale b => exact ⟨_, rfl, .inl ⟨_, .ok, bit64 b, .rsScale b, rfl⟩⟩
  | rsUpdate => exact ⟨_, rfl, guarded .update⟩
  | rsReset => exact ⟨_, rfl, guarded .reset⟩
  | rsConnreset => exact ⟨_, rfl, guarded .connreset⟩
  | pwSample => exact ⟨_, rfl, pwSample_leaves _⟩
  | pwGet => exact ⟨_, rfl, .respond rfl⟩
  | owdevReadRom | owdevConvert | owdevReadScratchpad | owdevWriteScratchpad | owdevSkipRom
  | owcfg9bit | owcfg10bit | owcfg11bit | owcfg12bit
  | rsdevReadTemperature | rsdevReadHumidity | rsdevReadRegister | rsdevWriteRegister | rsdevResetDevice
  | rsflagResolution | rsflagOtpReload | rsflagHeater | rsflagBattery => cases h

/-- A wire constant run on its own only sends its byte (log 8). -/
theorem exec_wire_kept (i : Instr) (s : State) (h : i.isCommand = false) :
    ∃ t, exec i s = .next t ∧ kept t = kept s := by
  have ow (v : Byte) : kept (sendOwByte v s) = kept s := kept_owWbyte v _
  have rs (v : Byte) : kept (sendRsByte v s) = kept s := kept_rsCommand v _
  have flag (k : Nat) : kept (sendRsFlag k s) = kept s := kept_i2cWrite _ _
  cases i with
  | owdevReadRom | owdevConvert | owdevReadScratchpad | owdevWriteScratchpad | owdevSkipRom
  | owcfg9bit | owcfg10bit | owcfg11bit | owcfg12bit => exact ⟨_, rfl, ow _⟩
  | rsdevReadTemperature | rsdevReadHumidity | rsdevReadRegister | rsdevWriteRegister | rsdevResetDevice =>
    exact ⟨_, rfl, rs _⟩
  | rsflagResolution | rsflagOtpReload | rsflagHeater | rsflagBattery => exact ⟨_, rfl, flag _⟩
  | _ => cases h

/-- A waiting command that goes on ends or waits again. -/
theorem resume_leaves {pos : Seq} {i : Instr} (s : State) (h : pos.command = some i) :
    ∃ t, resume pos s = .next t ∧ Leaves i s t := by
  cases pos with
  | idle => cases h
  | convPoll u =>
    obtain rfl : u.instr = i := Option.some.inj ((command_convPoll u).symm.trans h)
    exact ⟨_, rfl, owConvertPoll_leaves u s⟩
  | pwLow => cases h; exact ⟨_, rfl, pwResumeLow_leaves s⟩
  | pwHigh => cases h; exact ⟨_, rfl, pwResumeHigh_leaves s⟩
  | rsSpin g => cases h; exact ⟨_, rfl, rsGuarded_leaves g s⟩

end Sys2Proof.Machine
end

section
/-! PROOF. The handshake, the lines and the state a command touches (spec 10_state.md R20, R23, R24, R27, R43), from what
every command leaves and from the lines it acts on. -/

namespace Sys2Proof.Machine

/-! ### The handshake (R23) -/

/-- The two ways a command that was accepted stands after a step, the responses before it being those of `s`. -/
theorem Leaves.handshake {i : Instr} {s t : State} (h : Leaves i s t) (hb : s.busy = true) (hv : s.rspValid = false) :
    (t.busy = false ∧ t.rspValid = true ∧ t.seq = .idle) ∨
      (t.busy = true ∧ t.rspValid = false ∧ t.seq ≠ .idle ∧ t.rspStatus = s.rspStatus ∧ t.rspData = s.rspData) := by
  obtain ⟨f, st, data, -, ht⟩ | ⟨pos, hpos, -, ht⟩ := h
  · exact .inl ⟨(congrArg State.busy ht :), (congrArg State.rspValid ht :), (congrArg State.seq ht :)⟩
  · have hseq : t.seq = pos := (congrArg State.seq ht :)
    refine .inr ⟨(congrArg State.busy ht :).trans hb, (congrArg State.rspValid ht :).trans hv, ?_,
      (congrArg State.rspStatus ht :), (congrArg State.rspData ht :)⟩
    rintro hidle
    rw [← hseq, hidle] at hpos
    cases hpos

theorem exists_command {pos : Seq} (h : pos ≠ .idle) : ∃ i, pos.command = some i := by
  cases pos with
  | idle => exact absurd rfl h
  | convPoll u => exact ⟨_, command_convPoll u⟩
  | pwLow => exact ⟨_, rfl⟩
  | pwHigh => exact ⟨_, rfl⟩
  | rsSpin g => exact ⟨_, rfl⟩

/-- Settles O11: a command leaves one of the two, a wire constant keeps all of the handshake. -/
theorem handshake : Obligations.Handshake := by
  refine ⟨fun i s => ?_, fun s hr hb hseq hv => ?_⟩
  · cases hc : i.isCommand with
    | true =>
      obtain ⟨t, he, h⟩ := exec_leaves i s hc
      exact ⟨t, he, fun _ => h.handshake rfl rfl, nofun⟩
    | false =>
      obtain ⟨t, he, k⟩ := exec_wire_kept i s hc
      exact ⟨t, he, nofun, fun _ => ⟨(congrArg State.busy k :), (congrArg State.rspValid k :), (congrArg State.seq k :),
        (congrArg State.rspStatus k :), (congrArg State.rspData k :)⟩⟩
  · obtain ⟨i, hi⟩ := exists_command hseq
    obtain ⟨t, he, h⟩ := resume_leaves s hi
    exact ⟨t, (step_of_busy hr hb).trans he, h.handshake hb hv⟩

/-! ### The lines (R24) -/

/-- Micro-operations on some lines leave the latches of every other. -/
theorem pinsAfter_get {ls : List Line} {ops : List MicroOp} {l : Line} (h : onlyLines ls ops = true) (hl : l ∉ ls) (p : Pins) :
    (pinsAfter ops p).get l = p.get l := by
  induction ops generalizing p with
  | nil => rfl
  | cons op ops ih =>
    simp only [onlyLines, List.all_cons, Bool.and_eq_true] at h
    obtain ⟨hop, hops⟩ := h
    refine (ih hops _).trans ?_
    cases op with
    | drive m v => exact Pins.get_set_of_ne p _ (by rintro rfl; exact hl (by simpa [MicroOp.line] using hop))
    | release m => exact Pins.get_set_of_ne p _ (by rintro rfl; exact hl (by simpa [MicroOp.line] using hop))
    | sample m a => rfl
    | delayUs n => rfl
    | delayMs n => rfl

theorem Did.get {r : Bool} {ls : List Line} {s t : State} (h : Did r ls s t) {l : Line} (hl : l ∉ ls) :
    t.pins.get l = s.pins.get l := by
  obtain ⟨ops, -, hpins, -, -, -, -, hlines, -⟩ := h
  rw [hpins, pinsAfter_get hlines hl]

theorem owdq_not_mem_linesOf {u : Unit4} (h : u ≠ .ow) : Line.owdq ∉ linesOf u := by
  cases u <;> simp_all [linesOf]

theorem pwd_not_mem_linesOf {u : Unit4} (h : u ≠ .pw) : Line.pwd ∉ linesOf u := by
  cases u <;> simp_all [linesOf]

theorem bus_not_mem_linesOf {u : Unit4} (h : u = .ow ∨ u = .pw) : Line.sda ∉ linesOf u ∧ Line.scl ∉ linesOf u := by
  obtain rfl | rfl := h <;> decide

/-- Settles O57: an instruction by `exec_endsOn`; a waiting command by `resume_did`. -/
theorem ownLinesOnly : Obligations.OwnLinesOnly := by
  refine ⟨fun i s => ?_, fun i s hr hb hi => ?_⟩
  · obtain ⟨t, he, ops, htrace, -, -, -, -, -, hlines, -⟩ := exec_endsOn i s
    obtain rfl : t.trace = ops := htrace
    exact ⟨t, he, hlines⟩
  · obtain ⟨t, h, -⟩ := resume_leaves s hi
    obtain ⟨ops, htrace, -, -, -, -, -, hlines, -⟩ := resume_did (r := false) nofun hi h
    exact ⟨t, ops, (step_of_busy hr hb).trans h, htrace, hlines⟩

/-! ### The elements of R20 (R43) -/

/-- The part of the state the columns of R20 speak of, the handshake erased. -/
def unanswered (s : State) : State :=
  { kept s with busy := false, rspValid := false, rspStatus := .ok, rspData := 0, seq := .idle }

theorem unanswered_of_kept {s t : State} (k : kept t = kept s) :
    unanswered t = unanswered s := (congrArg unanswered k :)

/-- What a command has written, whether it has ended or waits. -/
theorem Leaves.writes {i : Instr} {s t : State} (h : Leaves i s t) :
    ∃ f, Writes i f ∧ unanswered t = unanswered (f s) := by
  obtain ⟨f, st, data, w, ht⟩ | ⟨pos, -, -, ht⟩ := h
  · exact ⟨f, w, (unanswered_of_kept ht :)⟩
  · exact ⟨id, .nothing i, (unanswered_of_kept ht :)⟩

namespace Writes

variable {i : Instr} {f : State → State}

theorem owRes_eq (w : Writes i f) (s : State) (h : ∀ res, i ≠ .owSetres res) : (f s).owRes = s.owRes := by
  cases w with
  | owRes res => exact absurd rfl (h res)
  | _ => rfl

theorem i2cHalfUs_eq (w : Writes i f) (s : State) (h : ∀ hz, i ≠ .i2cSetfreq hz) : (f s).i2cHalfUs = s.i2cHalfUs := by
  cases w with
  | i2cHalfUs hz => exact absurd rfl (h hz)
  | _ => rfl

theorem rsReady_eq (w : Writes i f) (s : State) (h : ∀ g, i ≠ guardedInstr g) : (f s).rsReady = s.rsReady := by
  cases w with
  | rsReadings temp hum => exact absurd rfl (h .update)
  | rsCleared => exact absurd rfl (h .reset)
  | rsChkbat v => exact absurd rfl (h .chkbat)
  | rsSetheater b v => exact absurd rfl (h (.setheater b))
  | rsSetres b v => exact absurd rfl (h (.setres b))
  | rsSetotp b v => exact absurd rfl (h (.setotp b))
  | rsConnreset => exact absurd rfl (h .connreset)
  | _ => rfl

theorem rsStatus_eq (w : Writes i f) (s : State) (hc : i ≠ .rsChkbat)
    (hset : ∀ b, i ≠ .rsSetheater b ∧ i ≠ .rsSetres b ∧ i ≠ .rsSetotp b) (hr : i ≠ .rsReset) :
    (f s).rsStatus = s.rsStatus := by
  cases w with
  | rsCleared => exact absurd rfl hr
  | rsChkbat v => exact absurd rfl hc
  | rsSetheater b v => exact absurd rfl (hset b).1
  | rsSetres b v => exact absurd rfl (hset b).2.1
  | rsSetotp b v => exact absurd rfl (hset b).2.2
  | _ => rfl

theorem rsReadings_eq (w : Writes i f) (s : State) (hu : i ≠ .rsUpdate) (hr : i ≠ .rsReset) :
    (f s).rsRawTemp = s.rsRawTemp ∧ (f s).rsRawHum = s.rsRawHum := by
  cases w with
  | rsReadings temp hum => exact absurd rfl hu
  | rsCleared => exact absurd rfl hr
  | _ => exact ⟨rfl, rfl⟩

theorem rsScale_eq (w : Writes i f) (s : State) (h : ∀ b, i ≠ .rsSetscale b) : (f s).rsScale = s.rsScale := by
  cases w with
  | rsScale b => exact absurd rfl (h b)
  | _ => rfl

theorem pwReadings_eq (w : Writes i f) (s : State) (h : i ≠ .pwSample) :
    (f s).pwHum = s.pwHum ∧ (f s).pwTemp = s.pwTemp := by
  cases w with
  | pwReadings hum temp => exact absurd rfl h
  | _ => exact ⟨rfl, rfl⟩

/-- The parameters, the host's words and the wire port no command writes. -/
theorem outside_eq (w : Writes i f) (s : State) :
    (f s).par = s.par ∧ (f s).host = s.host ∧ (f s).wirePort = s.wirePort := by
  cases w <;> exact ⟨rfl, rfl, rfl⟩

end Writes

/-- What is written by what `i` may write, on the lines of its unit, is all that it touches. -/
theorem onlyTouches_of_writes {r : Bool} {i : Instr} {f : State → State} {s s' t : State} (w : Writes i f)
    (h : unanswered t = unanswered (f s)) (hs : s'.pins = s.pins) (d : Did r (linesOf i.unit) s' t) : onlyTouches i s t := by
  have line {l : Line} (hl : l ∉ linesOf i.unit) : t.pins.get l = s.pins.get l := hs ▸ d.get hl
  obtain ⟨hpar, hhost, hport⟩ := w.outside_eq s
  refine ⟨(congrArg State.par h :).trans hpar, (congrArg State.host h :).trans hhost,
    (congrArg State.wirePort h :).trans hport, ?_, ?_, ?_, ?_, ?_, ?_, ?_, ?_, ?_, ?_⟩
  · exact fun hu => line (owdq_not_mem_linesOf hu)
  · exact fun hu => ⟨line (bus_not_mem_linesOf hu).1, line (bus_not_mem_linesOf hu).2⟩
  · exact fun hu => line (pwd_not_mem_linesOf hu)
  · exact fun hi => (congrArg State.owRes h :).trans (w.owRes_eq s hi)
  · exact fun hi => (congrArg State.i2cHalfUs h :).trans (w.i2cHalfUs_eq s hi)
  · exact fun hi => (congrArg State.rsReady h :).trans (w.rsReady_eq s hi)
  · exact fun hc hset hr => (congrArg State.rsStatus h :).trans (w.rsStatus_eq s hc hset hr)
  · exact fun hu hr => ⟨(congrArg State.rsRawTemp h :).trans (w.rsReadings_eq s hu hr).1,
      (congrArg State.rsRawHum h :).trans (w.rsReadings_eq s hu hr).2⟩
  · exact fun hi => (congrArg State.rsScale h :).trans (w.rsScale_eq s hi)
  · exact fun hi => ⟨(congrArg State.pwHum h :).trans (w.pwReadings_eq s hi).1,
      (congrArg State.pwTemp h :).trans (w.pwReadings_eq s hi).2⟩

/-- What every instruction writes, a wire constant nothing. -/
theorem exec_unanswered (i : Instr) (s : State) :
    ∃ t f, exec i s = .next t ∧ Writes i f ∧ unanswered t = unanswered (f s) := by
  cases hc : i.isCommand with
  | true =>
    obtain ⟨t, he, h⟩ := exec_leaves i s hc
    obtain ⟨f, w, hf⟩ := h.writes
    refine ⟨t, f, he, w, hf.trans ?_⟩
    cases w <;> rfl
  | false =>
    obtain ⟨t, he, k⟩ := exec_wire_kept i s hc
    exact ⟨t, id, he, .nothing i, unanswered_of_kept k⟩

/-- Settles O58: what a command writes by `exec_unanswered` and `resume_leaves`, its lines by `exec_endsOn` and
`resume_did`. -/
theorem stateTouched : Obligations.StateTouched := by
  refine ⟨fun i s => ?_, fun i s hr hb hi => ?_⟩
  · obtain ⟨t, f, he, w, hf⟩ := exec_unanswered i s
    obtain ⟨u, hu, d⟩ := exec_endsOn i s
    obtain rfl : t = u := by rw [he] at hu; exact Host.Outcome.next.inj hu
    exact ⟨t, he, onlyTouches_of_writes w hf (beginWire_pins s) d⟩
  · obtain ⟨t, he, h⟩ := resume_leaves s hi
    obtain ⟨f, w, hf⟩ := h.writes
    exact ⟨t, (step_of_busy hr hb).trans he, onlyTouches_of_writes w hf rfl (resume_did (r := false) nofun hi he)⟩

end Sys2Proof.Machine
end

section
/-! PROOF. The invariant of a run is kept by every step (spec 10_state.md R23, R32, R34, R147, R172; 45_pulsewidth.md R323),
and with it R27 for every sample. -/

namespace Sys2Proof.Machine

/-- The invariant, fact by fact. -/
theorem inv_iff (s : State) :
    Inv s = true ↔ s.rsReady = true ∧ (s.busy = true ↔ s.seq ≠ .idle) ∧ (s.busy = true → s.rspValid = false) ∧
      s.i2cHalfUs.toNat ≤ 500000 ∧ s.pins.owdq = releasedLow ∧ s.pins.pwd.oe = false ∧ s.seq.fits s = true := by
  cases hb : s.busy <;> simp [Inv, hb, and_assoc]

/-! ### The 1-Wire line is left released, never set to drive high (R147, R172) -/

theorem owReset_low (s : State) : (owReset s).2.pins.owdq = releasedLow := by
  rw [owReset_eq]; rfl

theorem owWbit_low (b : Bool) (s : State) : (owWbit b s).pins.owdq = releasedLow := by
  rw [owWbit_eq]; cases b <;> rfl

theorem owRbit_low (s : State) : (owRbit s).2.pins.owdq = releasedLow := by
  rw [owRbit_eq]; rfl

theorem owWriteBits_low (is : List Nat) {s : State} (h : s.pins.owdq = releasedLow) :
    (owWriteBits is s).pins.owdq = releasedLow := by
  induction is generalizing s with
  | nil => exact h
  | cons i is ih => exact ih (owWbit_low _ s)

theorem owReadBits_low (is : List Nat) {s : State} (h : s.pins.owdq = releasedLow) :
    (owReadBits is s).pins.owdq = releasedLow := by
  induction is generalizing s with
  | nil => exact h
  | cons i is ih => exact ih (owRbit_low s)

theorem owWbyte_low (v : Byte) {s : State} (h : s.pins.owdq = releasedLow) : (owWbyte v s).pins.owdq = releasedLow :=
  owWriteBits_low lsbFirst h

theorem owRbyte_low {s : State} (h : s.pins.owdq = releasedLow) : (owRbyte s).2.pins.owdq = releasedLow :=
  owReadBits_low lsbFirst h

theorem owReadRomBytes_low (ks : List Nat) (d : BitVec 64) {s : State} (h : s.pins.owdq = releasedLow) :
    (owReadRomBytes ks d s).2.pins.owdq = releasedLow := by
  induction ks generalizing d s with
  | nil => exact h
  | cons k ks ih => exact ih _ (owRbyte_low h)

theorem owRawtempEnd_low (st : Status) {s : State} (h : s.pins.owdq = releasedLow) :
    (owRawtempEnd st s).pins.owdq = releasedLow := by
  unfold owRawtempEnd
  dsimp only
  split
  · exact h
  · split
    · exact owReset_low s
    · exact owRbyte_low (owRbyte_low (owWbyte_low _ (owWbyte_low _ (owReset_low s))))

theorem afterConvert_low (u : ConvUser) (st : Status) {s : State} (h : s.pins.owdq = releasedLow) :
    (afterConvert u st s).pins.owdq = releasedLow := by
  cases u
  · cases st <;> exact h
  · exact owRawtempEnd_low st h
  · exact owRawtempEnd_low st h

theorem owConvertPoll_low (u : ConvUser) {s : State} (h : s.pins.owdq = releasedLow) :
    (owConvertPoll u s).pins.owdq = releasedLow := by
  have polled : (poll owRbit s.par.owConvPollLimit s).2.pins.owdq = releasedLow := by
    obtain ⟨n, hn, -⟩ := poll_state owRbit s.par.owConvPollLimit s
    rw [hn]
    exact pollTimes_induct (P := fun a b => a.pins.owdq = releasedLow → b.pins.owdq = releasedLow) (fun _ => id)
      (fun _ _ => owRbit_low _) n s h
  unfold owConvertPoll
  dsimp only
  split
  · exact afterConvert_low u .ok polled
  · exact afterConvert_low u .pollTimeout polled
  · exact polled

theorem owConvert_low (u : ConvUser) (s : State) : (owConvert u s).pins.owdq = releasedLow := by
  unfold owConvert
  dsimp only
  split
  · exact afterConvert_low u .noPresence (owReset_low s)
  · exact owConvertPoll_low u (owWbyte_low _ (owWbyte_low _ (owReset_low s)))

theorem execOwSetres_low (res : BitVec 2) {s t : State} (h : execOwSetres res s = .next t) :
    t.pins.owdq = releasedLow := by
  cases h
  dsimp only
  split
  · exact owReset_low _
  · exact owWbyte_low _ (owWbyte_low _ (owWbyte_low _ (owWbyte_low _ (owWbyte_low _ (owReset_low _)))))

theorem execOwReadrom_low {s t : State} (h : execOwReadrom s = .next t) : t.pins.owdq = releasedLow := by
  cases h
  dsimp only
  split
  · exact owReset_low _
  · exact owReadRomBytes_low _ _ (owWbyte_low _ (owReset_low _))

/-- Every row of unit OW leaves its line so; every other row leaves it as it was. -/
theorem exec_low {i : Instr} {s t : State} (he : exec i s = .next t) (h : s.pins.owdq = releasedLow) :
    t.pins.owdq = releasedLow := by
  by_cases hu : i.unit = .ow
  · cases i with
    | owReset => cases he; split <;> exact owReset_low _
    | owWbit b => cases he; exact owWbit_low b _
    | owRbit => cases he; exact owRbit_low _
    | owWbyte v => cases he; exact owWbyte_low v h
    | owRbyte => cases he; exact owRbyte_low h
    | owSetres res => exact execOwSetres_low res he
    | owConvert => cases he; exact owConvert_low .convert _
    | owRawtemp => cases he; exact owConvert_low .rawtemp _
    | owGettemp => cases he; exact owConvert_low .gettemp _
    | owReadrom => exact execOwReadrom_low he
    | owdevReadRom | owdevConvert | owdevReadScratchpad | owdevWriteScratchpad | owdevSkipRom
    | owcfg9bit | owcfg10bit | owcfg11bit | owcfg12bit => cases he; exact owWbyte_low _ h
    | _ => cases hu
  · obtain ⟨u, hu', d⟩ := exec_endsOn i s
    obtain rfl : t = u := Host.Outcome.next.inj (he.symm.trans hu')
    exact (d.get (owdq_not_mem_linesOf hu)).trans h

theorem resume_low {i : Instr} {s t : State} (hi : s.seq.command = some i) (he : resume s.seq s = .next t)
    (h : s.pins.owdq = releasedLow) : t.pins.owdq = releasedLow := by
  by_cases hu : i.unit = .ow
  · cases hs : s.seq with
    | convPoll u => rw [hs] at he; cases he; exact owConvertPoll_low u h
    | idle => rw [hs] at hi; cases hi
    | pwLow | pwHigh => rw [hs] at hi; cases hi; cases hu
    | rsSpin g => rw [hs] at hi; cases hi; cases g <;> cases hu
  · exact ((resume_did (r := false) nofun hi he).get (owdq_not_mem_linesOf hu)).trans h

/-! ### The pulse-width line is left released (R323) -/

theorem exec_pwd {i : Instr} {s t : State} (he : exec i s = .next t) (h : s.pins.pwd.oe = false) :
    t.pins.pwd.oe = false := by
  by_cases hu : i.unit = .pw
  · cases i with
    | pwSample => cases he; exact (pwSample_did _).2
    | pwGet => cases he; exact h
    | _ => cases hu
  · obtain ⟨u, hu', d⟩ := exec_endsOn i s
    obtain rfl : t = u := Host.Outcome.next.inj (he.symm.trans hu')
    exact (congrArg Latch.oe (d.get (pwd_not_mem_linesOf hu))).trans h

theorem resume_pwd {i : Instr} {s t : State} (hi : s.seq.command = some i) (he : resume s.seq s = .next t)
    (h : s.pins.pwd.oe = false) : t.pins.pwd.oe = false := by
  by_cases hu : i.unit = .pw
  · cases hs : s.seq with
    | pwLow =>
      rw [hs] at he; cases he
      rw [(pwResumeLow_did (r := false) s nofun).2]; exact h
    | pwHigh =>
      rw [hs] at he; cases he
      rw [(pwResumeHigh_did (r := false) s nofun).2]; exact h
    | idle => rw [hs] at hi; cases hi
    | convPoll u => rw [hs] at hi; cases u <;> cases hi <;> cases hu
    | rsSpin g => rw [hs] at hi; cases hi; cases g <;> cases hu
  · exact (congrArg Latch.oe ((resume_did (r := false) nofun hi he).get (pwd_not_mem_linesOf hu))).trans h

end Sys2Proof.Machine
end

section
/-! PROOF. A frame that waits is not complete (spec 45_pulsewidth.md R323), and the invariant itself. -/

namespace Sys2Proof.Machine

/-! ### `PW_BITCNT` counts the bits that have ended -/

theorem poll_pwWait_bitcnt (v : Bool) (limit : Option Nat) (s : State) :
    (poll (pwWaitTurn v) limit s).2.pwBitcnt = s.pwBitcnt := by
  have turn (u : State) : (pwWaitTurn v u).2.pwBitcnt = u.pwBitcnt := by
    rw [pwWaitTurn_eq]; split <;> simp
  obtain ⟨n, hn, -⟩ := poll_state (pwWaitTurn v) limit s
  rw [hn]
  exact pollTimes_induct (P := fun a b => b.pwBitcnt = a.pwBitcnt) (fun _ => rfl) (fun k => (turn _).trans k) n s

theorem pwHighPhase_bitcnt (s : State) :
    (pwHighPhase s).2.pwBitcnt = if (pwHighPhase s).1 = .done then s.pwBitcnt + 1 else s.pwBitcnt := by
  have h := poll_pwWait_bitcnt false s.par.pwPollLimit s
  unfold pwHighPhase
  generalize poll (pwWaitTurn false) s.par.pwPollLimit s = q at h
  obtain ⟨_ | _ | _, u⟩ := q
  · simpa [pwDecodeBit_eq] using h
  · exact h
  · exact h

theorem pwBit_bitcnt (s : State) :
    (pwBit s).2.pwBitcnt = if (pwBit s).1 = .done then s.pwBitcnt + 1 else s.pwBitcnt := by
  have h := poll_pwWait_bitcnt true s.par.pwPollLimit s
  unfold pwBit
  generalize poll (pwWaitTurn true) s.par.pwPollLimit s = q at h
  obtain ⟨_ | _ | _, u⟩ := q
  · exact h ▸ pwHighPhase_bitcnt u
  · exact h
  · exact h

/-- Where the bits of a frame wait, fewer than forty of them have ended. -/
def Incomplete (q : Poll × State) : Prop := q.1 = .waiting → q.2.pwBitcnt.toNat < 40

theorem toNat_add_one {n : BitVec 6} (h : n.toNat < 40) : (n + 1).toNat = n.toNat + 1 := by
  rw [BitVec.toNat_add]
  exact Nat.mod_eq_of_lt (by simpa using (by omega : n.toNat + 1 < 64))

/-- One bit of a frame that is not complete: it ends and is counted, or the frame stays as long as it was. -/
theorem bit_incomplete {s : State} {q : Poll × State}
    (h : q.2.pwBitcnt = if q.1 = .done then s.pwBitcnt + 1 else s.pwBitcnt) (hs : s.pwBitcnt.toNat < 40) :
    Incomplete q ∧ (q.1 = .done → q.2.pwBitcnt.toNat = s.pwBitcnt.toNat + 1) := by
  refine ⟨fun hw => ?_, fun hd => ?_⟩
  · rw [h, hw]; exact hs
  · rw [h, if_pos hd, toNat_add_one hs]

theorem pwBits_incomplete (n : Nat) {s : State} (hs : s.pwBitcnt.toNat + n ≤ 40) : Incomplete (pwBits n s) := by
  induction n generalizing s with
  | zero => exact nofun
  | succ n ih =>
    obtain ⟨hwait, hdone⟩ := bit_incomplete (pwBit_bitcnt s) (by omega)
    rw [pwBits]
    split
    · exact ih (by rw [hdone ‹_›]; omega)
    · exact hwait
    · exact hwait

theorem pwRest_incomplete {s : State} {q : Poll × State}
    (h : q.2.pwBitcnt = if q.1 = .done then s.pwBitcnt + 1 else s.pwBitcnt) (hs : s.pwBitcnt.toNat < 40) :
    Incomplete (pwRest q) := by
  obtain ⟨hwait, hdone⟩ := bit_incomplete h hs
  unfold pwRest
  split
  · have hcount := hdone ‹_›
    exact pwBits_incomplete _ (by simp only [Config.pwNbits]; omega)
  · exact hwait
  · exact hwait

theorem pwFinish_bitcnt {q : Poll × State} (h : Incomplete q) (hseq : (pwFinish q).seq ≠ .idle) :
    (pwFinish q).pwBitcnt.toNat < 40 := by
  obtain ⟨_ | _ | _, u⟩ := q
  · refine absurd ?_ hseq
    change (pwCheck u).seq = _
    unfold pwCheck
    split <;> rfl
  · exact absurd rfl hseq
  · exact h rfl

/-- `PW.SAMPLE` waits only in a frame that is not complete. -/
theorem exec_pwSample_bitcnt {s t : State} (he : exec .pwSample s = .next t) (hseq : t.seq ≠ .idle) :
    t.pwBitcnt.toNat < 40 := by
  cases he
  exact pwFinish_bitcnt (pwBits_incomplete Config.pwNbits (Nat.le_refl 40)) hseq

theorem resume_pwSample_bitcnt {s t : State} (hi : s.seq.command = some .pwSample) (he : resume s.seq s = .next t)
    (hs : s.seq.fits s = true) (hseq : t.seq ≠ .idle) : t.pwBitcnt.toNat < 40 := by
  cases hpos : s.seq with
  | idle => rw [hpos] at hi; cases hi
  | convPoll u => rw [hpos] at hi; cases u <;> cases hi
  | rsSpin g => rw [hpos] at hi; cases g <;> cases hi
  | pwLow =>
    rw [hpos] at hs he; cases he
    simp only [Seq.fits, Bool.and_eq_true, decide_eq_true_eq] at hs
    exact pwFinish_bitcnt (pwRest_incomplete (pwBit_bitcnt s) hs.2) hseq
  | pwHigh =>
    rw [hpos] at hs he; cases he
    simp only [Seq.fits, Bool.and_eq_true, decide_eq_true_eq] at hs
    exact pwFinish_bitcnt (pwRest_incomplete (pwHighPhase_bitcnt s) hs.2) hseq

/-! ### The invariant -/

/-- No command leaves the half-cycle delay above 500000 (R32, R240). -/
theorem halfCycle_le (hz : BitVec 24) : (halfCycle hz).toNat ≤ 500000 := by
  rw [halfCycle, BitVec.toNat_ofNat]
  exact (Nat.mod_le _ _).trans (Nat.div_le_self _ _)

theorem Writes.i2cHalfUs_le {i : Instr} {f : State → State} (w : Writes i f) {s : State} (h : s.i2cHalfUs.toNat ≤ 500000) :
    (f s).i2cHalfUs.toNat ≤ 500000 := by
  cases w with
  | i2cHalfUs hz => exact halfCycle_le hz
  | _ => exact h

/-- No command leaves the guard taken (R34, R272). -/
theorem Writes.rsReady_true {i : Instr} {f : State → State} (w : Writes i f) {s : State} (h : s.rsReady = true) :
    (f s).rsReady = true := by
  cases w with
  | nothing | owRes | i2cHalfUs | rsScale | pwReadings => exact h
  | _ => rfl

/-- A command that waits stands at a position that fits: a spin does not wait where the flag is 1. -/
theorem Leaves.fits {i : Instr} {s t : State} (h : Leaves i s t) (hready : s.rsReady = true)
    (hbits : i = .pwSample → t.seq ≠ .idle → t.pwBitcnt.toNat < 40) : t.seq.fits t = true := by
  obtain ⟨f, st, data, -, ht⟩ | ⟨pos, hpos, hl, ht⟩ := h
  · have hseq : t.seq = .idle := (congrArg State.seq ht :)
    rw [hseq]; rfl
  · have hseq : t.seq = pos := (congrArg State.seq ht :)
    have hpar : t.par = s.par := (congrArg State.par ht :)
    rw [hseq] at hbits ⊢
    cases pos with
    | idle => rfl
    | convPoll u => simpa [Seq.fits, Seq.Loops, hpar] using hl
    | pwLow => cases hpos; simpa [Seq.fits, Seq.Loops, hpar] using ⟨hl, hbits rfl nofun⟩
    | pwHigh => cases hpos; simpa [Seq.fits, Seq.Loops, hpar] using ⟨hl, hbits rfl nofun⟩
    | rsSpin g => exact absurd (hready.symm.trans hl.2) nofun

/-- A step of a command from a busy state with the flag, the delay and the lines as the invariant has them. -/
theorem Leaves.inv {i : Instr} {s t : State} (h : Leaves i s t) (hb : s.busy = true) (hv : s.rspValid = false)
    (hready : s.rsReady = true) (hhalf : s.i2cHalfUs.toNat ≤ 500000) (howdq : t.pins.owdq = releasedLow)
    (hpwd : t.pins.pwd.oe = false) (hbits : i = .pwSample → t.seq ≠ .idle → t.pwBitcnt.toNat < 40) : Inv t = true := by
  obtain ⟨f, w, hf⟩ := h.writes
  have hready' : t.rsReady = true := (congrArg State.rsReady hf :).trans (w.rsReady_true hready)
  have hhalf' : t.i2cHalfUs.toNat ≤ 500000 := by
    have heq : t.i2cHalfUs = (f s).i2cHalfUs := (congrArg State.i2cHalfUs hf :)
    rw [heq]
    exact w.i2cHalfUs_le hhalf
  rw [inv_iff]
  obtain ⟨hbusy, hvalid, hseq⟩ | ⟨hbusy, hvalid, hseq, -⟩ := h.handshake hb hv
  · exact ⟨hready', by simp [hbusy, hseq], by simp [hbusy], hhalf', howdq, hpwd, by rw [hseq]; rfl⟩
  · exact ⟨hready', by simp [hbusy, hseq], fun _ => hvalid, hhalf', howdq, hpwd, h.fits hready hbits⟩

/-- What the invariant says of an idle block. -/
theorem inv_iff_of_idle {s : State} (hb : s.busy = false) :
    Inv s = true ↔ s.rsReady = true ∧ s.seq = .idle ∧ s.i2cHalfUs.toNat ≤ 500000 ∧ s.pins.owdq = releasedLow ∧
      s.pins.pwd.oe = false := by
  rw [inv_iff, hb]
  constructor
  · rintro ⟨hready, hseq, -, hhalf, howdq, hpwd, -⟩
    exact ⟨hready, by simpa using hseq, hhalf, howdq, hpwd⟩
  · rintro ⟨hready, hseq, hhalf, howdq, hpwd⟩
    exact ⟨hready, by simp [hseq], nofun, hhalf, howdq, hpwd, by rw [hseq]; rfl⟩

/-- An illegal word ends at once and changes nothing else (R356). -/
theorem inv_illegalWord {s : State} (hb : s.busy = false) (h : Inv s = true) : Inv (illegalWord s) = true := by
  obtain ⟨hready, -, hhalf, howdq, hpwd⟩ := (inv_iff_of_idle hb).mp h
  exact (inv_iff_of_idle rfl).mpr ⟨hready, rfl, hhalf, howdq, hpwd⟩

/-- The reset values (R390), for every reset frequency. -/
theorem inv_resetBlock (s : State) : Inv (resetBlock s) = true := by
  refine (inv_iff_of_idle rfl).mpr ⟨rfl, rfl, ?_, rfl, rfl⟩
  change (BitVec.ofNat 20 (500000 / s.par.i2cHzReset)).toNat ≤ 500000
  rw [BitVec.toNat_ofNat]
  exact (Nat.mod_le _ _).trans (Nat.div_le_self _ _)

/-- An instruction run on an idle block. -/
theorem inv_exec {i : Instr} {s t : State} (hb : s.busy = false) (h : Inv s = true) (he : exec i s = .next t) :
    Inv t = true := by
  obtain ⟨hready, hseq, hhalf, howdq, hpwd⟩ := (inv_iff_of_idle hb).mp h
  have howdq' := exec_low he howdq
  have hpwd' := exec_pwd he hpwd
  cases hc : i.isCommand with
  | true =>
    obtain ⟨u, hu, l⟩ := exec_leaves i s hc
    obtain rfl : t = u := Host.Outcome.next.inj (he.symm.trans hu)
    exact l.inv rfl rfl hready hhalf howdq' hpwd' fun hi => exec_pwSample_bitcnt (hi ▸ he)
  | false =>
    obtain ⟨u, hu, k⟩ := exec_wire_kept i s hc
    obtain rfl : t = u := Host.Outcome.next.inj (he.symm.trans hu)
    have hhalf' : t.i2cHalfUs = s.i2cHalfUs := (congrArg State.i2cHalfUs k :)
    have hb' : t.busy = false := (congrArg State.busy k :).trans hb
    exact (inv_iff_of_idle hb').mpr ⟨(congrArg State.rsReady k :).trans hready,
      (congrArg State.seq k :).trans hseq, hhalf' ▸ hhalf, howdq', hpwd'⟩

/-- A waiting command that goes on. -/
theorem inv_resume {s t : State} (hb : s.busy = true) (h : Inv s = true) (he : resume s.seq s = .next t) :
    Inv t = true := by
  obtain ⟨hready, -, hvalid, hhalf, howdq, hpwd, hfits⟩ := (inv_iff s).mp h
  obtain ⟨i, hi⟩ := exists_command_of_resume he
  obtain ⟨u, hu, l⟩ := resume_leaves s hi
  obtain rfl : t = u := Host.Outcome.next.inj (he.symm.trans hu)
  exact l.inv hb (hvalid hb) hready hhalf (resume_low hi he howdq) (resume_pwd hi he hpwd) fun hpw =>
    resume_pwSample_bitcnt (hpw ▸ hi) he hfits

/-- What is fetched leaves the block as it was. -/
theorem inv_fetch {s u : State} {c : Code} (hf : fetch s = some (c, u)) : u.busy = s.busy ∧ Inv u = Inv s := by
  unfold fetch at hf
  split at hf
  · cases hf; exact ⟨rfl, rfl⟩
  · split at hf
    · cases hf; exact ⟨rfl, rfl⟩
    · cases hf

theorem step_of_fetch_error {s u : State} {c : Code} {e : DecodeError} (hr : s.rst = false) (hb : s.busy = false)
    (hf : fetch s = some (c, u)) (hd : decode c = .error e) : step s = undecoded c u := by
  simp [step, hr, hb, hf, hd]

/-- Settles O52: by the ways a step can go (R23, R390). -/
theorem invKept : Obligations.InvKept := by
  intro s t h hs
  cases hr : s.rst with
  | true =>
    rw [step, if_pos hr] at hs
    cases hs
    exact inv_resetBlock s
  | false =>
    cases hb : s.busy with
    | true => exact inv_resume hb h ((step_of_busy hr hb).symm.trans hs)
    | false =>
      cases hf : fetch s with
      | none =>
        rw [step_of_fetch_none hr hb hf] at hs
        cases hs
        exact h
      | some cu =>
        obtain ⟨c, u⟩ := cu
        obtain ⟨hbusy, hinv⟩ := inv_fetch hf
        cases hd : decode c with
        | ok i => exact inv_exec (hbusy.trans hb) (hinv.trans h) ((step_of_fetch_ok hr hb hf hd).symm.trans hs)
        | error e =>
          rw [step_of_fetch_error hr hb hf hd] at hs
          cases c with
          | cmd32 w => cases hs; exact inv_illegalWord (hbusy.trans hb) (hinv.trans h)
          | wire8 b => cases hs

end Sys2Proof.Machine

namespace Sys2Proof.Proofs

open Sys2Proof.Machine

/-- Settles O56: an instruction by `exec_endsOn`; a waiting command by `resume_did`, since the invariant has `PWD`
released. -/
theorem samplesReleased : Obligations.SamplesReleased := by
  refine ⟨fun i s => ?_, fun s t hinv hr hb h => ?_⟩
  · obtain ⟨t, he, ops, htrace, -, -, -, -, -, -, hreleased, -⟩ := exec_endsOn i s
    obtain rfl : t.trace = ops := htrace
    exact ⟨t, he, hreleased rfl⟩
  · rw [step_of_busy hr hb] at h
    obtain ⟨i, hi⟩ := exists_command_of_resume h
    obtain ⟨-, -, -, -, -, hpwd, -⟩ := (inv_iff s).mp hinv
    obtain ⟨ops, htrace, -, -, -, -, -, -, hreleased, -⟩ := resume_did (r := true) (fun _ => hpwd) hi h
    exact ⟨ops, htrace, hreleased rfl⟩

end Sys2Proof.Proofs
end

section
/-! PROOF. No procedure looks at the position or at the host's words (spec 10_state.md R22, R23): on a state that differs in
these two alone it does the same, and a waiting command goes on the same. -/

namespace Sys2Proof.Machine

/-- `s` at another position and with other words presented. -/
def State.aside (s : State) (pos : Seq) (ws : List Word) : State := { s with seq := pos, host := ws }

/-- The procedure `f` does on `s.aside pos ws` what it does on `s`. -/
def Ignores {α : Type} (f : State → α × State) : Prop :=
  ∀ (s : State) (pos : Seq) (ws : List Word), f (s.aside pos ws) = ((f s).1, (f s).2.aside pos ws)

@[simp] theorem aside_par (s : State) (pos : Seq) (ws : List Word) : (s.aside pos ws).par = s.par := rfl
@[simp] theorem aside_i2cHalfUs (s : State) (pos : Seq) (ws : List Word) :
    (s.aside pos ws).i2cHalfUs = s.i2cHalfUs := rfl

@[simp] theorem nextAnswer_aside (s : State) (pos : Seq) (ws : List Word) :
    nextAnswer (s.aside pos ws) = nextAnswer s := rfl

theorem takeAnswer_aside (s : State) (pos : Seq) (ws : List Word) :
    takeAnswer (s.aside pos ws) = (takeAnswer s).aside pos ws := by
  cases h : s.script <;> simp [takeAnswer, State.aside, h]

theorem after_aside (ops : List MicroOp) (s : State) (pos : Seq) (ws : List Word) :
    after ops (s.aside pos ws) = (after ops s).aside pos ws := rfl

/-! ### Units OW and I2C -/

theorem owReset_ignores : Ignores owReset := by
  intro s pos ws
  simp only [owReset_eq, nextAnswer_aside, takeAnswer_aside, after_aside, aside_par]

theorem owRbit_ignores : Ignores owRbit := by
  intro s pos ws
  simp only [owRbit_eq, nextAnswer_aside, takeAnswer_aside, after_aside, aside_par]

theorem sample_ignores (l : Line) : Ignores (sample l) := by
  intro s pos ws
  simp only [sample_eq, nextAnswer_aside, takeAnswer_aside, after_aside]

theorem owWriteBits_aside (is : List Nat) (s : State) (pos : Seq) (ws : List Word) :
    owWriteBits is (s.aside pos ws) = (owWriteBits is s).aside pos ws := by
  induction is generalizing s with
  | nil => rfl
  | cons i is ih =>
    rw [owWriteBits, owWriteBits, owWbit_eq, owWbit_eq]
    exact ih { after (waveOwWrite s.par (s.owShift.getLsbD i)) s with owBitcnt := BitVec.ofNat 4 (i + 1) }

theorem owWbyte_aside (v : Byte) (s : State) (pos : Seq) (ws : List Word) :
    owWbyte v (s.aside pos ws) = (owWbyte v s).aside pos ws :=
  owWriteBits_aside lsbFirst { s with owShift := v, owBitcnt := 0 } pos ws

theorem owReadBits_aside (is : List Nat) (s : State) (pos : Seq) (ws : List Word) :
    owReadBits is (s.aside pos ws) = (owReadBits is s).aside pos ws := by
  induction is generalizing s with
  | nil => rfl
  | cons i is ih =>
    rw [owReadBits, owReadBits, owRbit_ignores s pos ws]
    exact ih { (owRbit s).2 with
      owShift := putBit (owRbit s).2.owShift i (owRbit s).1, owBitcnt := BitVec.ofNat 4 (i + 1) }

theorem owRbyte_ignores : Ignores owRbyte := by
  intro s pos ws
  have h := owReadBits_aside lsbFirst { s with owShift := 0, owBitcnt := 0 } pos ws
  exact Prod.ext (congrArg State.owShift h :) h

theorem i2cWriteBits_aside (is : List Nat) (s : State) (pos : Seq) (ws : List Word) :
    i2cWriteBits is (s.aside pos ws) = (i2cWriteBits is s).aside pos ws := by
  induction is generalizing s with
  | nil => rfl
  | cons i is ih =>
    rw [i2cWriteBits, i2cWriteBits, performAll_eq, performAll_eq]
    exact ih { after (i2cBitOut s.i2cHalfUs.toNat (s.i2cShift.getLsbD i)) s with i2cBitcnt := BitVec.ofNat 4 (8 - i) }

theorem i2cWrite_ignores (v : Byte) : Ignores (i2cWrite v) := by
  intro s pos ws
  have h := i2cWriteBits_aside msbFirst { s with i2cShift := v, i2cBitcnt := 0 } pos ws
  unfold i2cWrite
  generalize i2cWriteBits msbFirst { s with i2cShift := v, i2cBitcnt := 0 } = t at h
  have e : i2cWriteBits msbFirst { s.aside pos ws with i2cShift := v, i2cBitcnt := 0 } = t.aside pos ws := h
  rw [e]
  simp only [performAll_eq, halfDelay, aside_i2cHalfUs, after_aside, sample_ignores _ _ pos ws]
  rfl

theorem i2cReadBits_aside (is : List Nat) (s : State) (pos : Seq) (ws : List Word) :
    i2cReadBits is (s.aside pos ws) = (i2cReadBits is s).aside pos ws := by
  induction is generalizing s with
  | nil => rfl
  | cons i is ih =>
    rw [i2cReadBits, i2cReadBits]
    simp only [performAll_eq, halfDelay, aside_i2cHalfUs, after_aside, sample_ignores _ _ pos ws]
    generalize sample .sda _ = r
    exact ih { perform (.drive .scl false) r.2 with
      i2cShift := putBit (perform (.drive .scl false) r.2).i2cShift i r.1, i2cBitcnt := BitVec.ofNat 4 (8 - i) }

theorem i2cRead_ignores (a : Bool) : Ignores (i2cRead a) := by
  intro s pos ws
  have h := i2cReadBits_aside msbFirst (perform (.release .sda) { s with i2cShift := 0, i2cBitcnt := 0 }) pos ws
  unfold i2cRead
  generalize i2cReadBits msbFirst (perform (.release .sda) { s with i2cShift := 0, i2cBitcnt := 0 }) = t at h
  have e : i2cReadBits msbFirst (perform (.release .sda) { s.aside pos ws with i2cShift := 0, i2cBitcnt := 0 }) =
    t.aside pos ws := h
  simp only [e, performAll_eq]
  rfl

/-- A polling loop ignores what each of its turns ignores. -/
theorem pollTimes_ignores {body : State → Bool × State} (h : Ignores body) (n : Nat) : Ignores (pollTimes body n) := by
  intro s pos ws
  induction n generalizing s with
  | zero => rfl
  | succ n ih =>
    rw [pollTimes, pollTimes, h s pos ws]
    dsimp only
    split
    · rfl
    · exact ih _

theorem poll_ignores {body : State → Bool × State} (h : Ignores body) (limit : Option Nat) :
    Ignores (poll body limit) := by
  intro s pos ws
  have script : (s.aside pos ws).script = s.script := rfl
  simp only [poll_eq, script, pollTimes_ignores h _ s pos ws]

theorem i2cWaitPoll_ignores : Ignores i2cWaitPoll := by
  intro s pos ws
  have h := sample_ignores .sda { s with i2cWaitcnt := s.i2cWaitcnt + 1 } pos ws
  change sample .sda { s.aside pos ws with i2cWaitcnt := (s.aside pos ws).i2cWaitcnt + 1 } = _ at h
  simp only [i2cWaitPoll, h]
  split <;> rfl

theorem i2cWait_ignores : Ignores i2cWait := fun s pos ws =>
  pollTimes_ignores i2cWaitPoll_ignores Config.i2cWaitLimit (perform (.release .sda) { s with i2cWaitcnt := 0 }) pos ws

/-! ### A response ends a command at the idle position, whatever the position before -/

/-- The command body `f` does on `s.aside pos ws` what it does on `s`, and ends at a position of its own. -/
def EndsAlike (f : State → State) : Prop :=
  ∀ (s : State) (pos : Seq) (ws : List Word), f (s.aside pos ws) = { f s with host := ws }

theorem owRawtempEnd_endsAlike (st : Status) : EndsAlike (owRawtempEnd st) := by
  intro s pos ws
  unfold owRawtempEnd
  split
  · rfl
  · simp only [owReset_ignores s pos ws, owWbyte_aside, owRbyte_ignores _ pos ws]
    split <;> rfl

theorem afterConvert_endsAlike (u : ConvUser) (st : Status) : EndsAlike (afterConvert u st) := by
  intro s pos ws
  cases u with
  | convert => cases st <;> rfl
  | rawtemp => exact owRawtempEnd_endsAlike st s pos ws
  | gettemp => exact owRawtempEnd_endsAlike st s pos ws

theorem owConvertPoll_endsAlike (u : ConvUser) : EndsAlike (owConvertPoll u) := by
  intro s pos ws
  simp only [owConvertPoll, aside_par, poll_ignores owRbit_ignores _ s pos ws]
  split
  · exact afterConvert_endsAlike u .ok _ pos ws
  · exact afterConvert_endsAlike u .pollTimeout _ pos ws
  · rfl

/-! ### Unit RS -/

theorem rsCommand_ignores (cmd : Byte) : Ignores (rsCommand cmd) := by
  intro s pos ws
  simp only [rsCommand, i2cStart_eq, aside_i2cHalfUs, after_aside]
  exact i2cWrite_ignores cmd _ pos ws

theorem i2cStop_aside (s : State) (pos : Seq) (ws : List Word) :
    i2cStop (s.aside pos ws) = (i2cStop s).aside pos ws := by
  simp only [i2cStop_eq, aside_i2cHalfUs, after_aside]

theorem rsReadMeasurement_ignores (cmd : Byte) {store : BitVec 16 → State → State}
    (hs : ∀ v s pos ws, store v (State.aside s pos ws) = (store v s).aside pos ws) :
    Ignores (rsReadMeasurement cmd store) := by
  intro s pos ws
  simp only [rsReadMeasurement, rsCommand_ignores cmd s pos ws, i2cWait_ignores _ pos ws, i2cRead_ignores _ _ pos ws, hs,
    i2cStop_aside]
  split
  · split <;> rfl
  · rfl

theorem rsReadTemp_ignores : Ignores rsReadTemp :=
  rsReadMeasurement_ignores _ (store := fun v t => { t with rsRawTemp := v }) fun _ _ _ _ => rfl

theorem rsReadHum_ignores : Ignores rsReadHum :=
  rsReadMeasurement_ignores _ (store := fun v t => { t with rsRawHum := v }) fun _ _ _ _ => rfl

theorem rsReadStatus_ignores : Ignores rsReadStatus := by
  intro s pos ws
  have store (t : State) (v : Byte) : i2cStop { t.aside pos ws with rsStatus := v } =
      (i2cStop { t with rsStatus := v }).aside pos ws := i2cStop_aside { t with rsStatus := v } pos ws
  simp only [rsReadStatus, rsCommand_ignores _ s pos ws, i2cRead_ignores _ _ pos ws, store]
  split <;> rfl

theorem rsWritereg_ignores : Ignores rsWritereg := by
  intro s pos ws
  have status (t : State) : (t.aside pos ws).rsStatus = t.rsStatus := rfl
  simp only [rsWritereg, rsCommand_ignores _ s pos ws, status, i2cWrite_ignores _ _ pos ws, i2cStop_aside]
  split <;> rfl

theorem rsUpdateBody_endsAlike : EndsAlike rsUpdateBody := by
  intro s pos ws
  simp only [rsUpdateBody, rsReadTemp_ignores s pos ws, rsReadHum_ignores _ pos ws]
  split <;> rfl

theorem rsResetBody_endsAlike : EndsAlike rsResetBody := by
  intro s pos ws
  simp only [rsResetBody, rsCommand_ignores _ s pos ws, i2cStop_aside]
  split <;> rfl

theorem rsChkbatBody_endsAlike : EndsAlike rsChkbatBody := by
  intro s pos ws
  simp only [rsChkbatBody, rsReadStatus_ignores s pos ws]
  rfl

theorem rsSetFlagBody_endsAlike (k : Nat) (b : Bool) : EndsAlike (rsSetFlagBody k b) := by
  intro s pos ws
  have h := rsWritereg_ignores { s with rsStatus := putBit s.rsStatus k b } pos ws
  change rsWritereg { s.aside pos ws with rsStatus := putBit (s.aside pos ws).rsStatus k b } = _ at h
  simp only [rsSetFlagBody, h]
  rfl

theorem guardedBody_endsAlike (g : Guarded) : EndsAlike (guardedBody g) := by
  cases g with
  | update => exact rsUpdateBody_endsAlike
  | reset => exact rsResetBody_endsAlike
  | chkbat => exact rsChkbatBody_endsAlike
  | setheater b => exact rsSetFlagBody_endsAlike flagHeater b
  | setres b => exact rsSetFlagBody_endsAlike flagRes b
  | setotp b => exact rsSetFlagBody_endsAlike flagOtp b
  | connreset =>
    intro s pos ws
    simp only [guardedBody, rsConnresetBody, i2cReset_eq, aside_i2cHalfUs, after_aside]
    rfl

theorem rsGuarded_endsAlike (g : Guarded) : EndsAlike (rsGuarded g) := by
  intro s pos ws
  have acquire : rsAcquire (s.aside pos ws) = ((rsAcquire s).1, (rsAcquire s).2.aside pos ws) :=
    poll_ignores (fun _ _ _ => rfl) s.par.rsSpinLimit s pos ws
  simp only [rsGuarded, acquire]
  split
  · exact guardedBody_endsAlike g { (rsAcquire s).2 with rsReady := false } pos ws
  · rfl
  · rfl

/-! ### Unit PW: a bit that waits has its own position, one that has ended or met the limit the one before -/

/-- What a bit that left `q` leaves on the state aside. -/
def asideBit (pos : Seq) (ws : List Word) (q : Poll × State) : Poll × State :=
  match q.1 with
  | .waiting => (.waiting, { q.2 with host := ws })
  | .done => (.done, q.2.aside pos ws)
  | .limit => (.limit, q.2.aside pos ws)

theorem pwWaitTurn_ignores (v : Bool) : Ignores (pwWaitTurn v) := by
  intro s pos ws
  simp only [pwWaitTurn_eq, nextAnswer_aside, takeAnswer_aside, after_aside, aside_par]
  split <;> rfl

theorem pwDecodeBit_aside (s : State) (pos : Seq) (ws : List Word) :
    pwDecodeBit (s.aside pos ws) = (pwDecodeBit s).aside pos ws := by
  simp only [pwDecodeBit_eq, nextAnswer_aside, takeAnswer_aside, after_aside, aside_par]
  rfl

theorem pwHighPhase_aside (s : State) (pos : Seq) (ws : List Word) :
    pwHighPhase (s.aside pos ws) = asideBit pos ws (pwHighPhase s) := by
  simp only [pwHighPhase, aside_par, poll_ignores (pwWaitTurn_ignores false) _ s pos ws]
  split
  · rw [pwDecodeBit_aside]; rfl
  · rfl
  · rfl

theorem pwBit_aside (s : State) (pos : Seq) (ws : List Word) : pwBit (s.aside pos ws) = asideBit pos ws (pwBit s) := by
  simp only [pwBit, aside_par, poll_ignores (pwWaitTurn_ignores true) _ s pos ws]
  split
  · exact pwHighPhase_aside _ pos ws
  · rfl
  · rfl

theorem pwBits_aside (n : Nat) (s : State) (pos : Seq) (ws : List Word) :
    pwBits n (s.aside pos ws) = asideBit pos ws (pwBits n s) := by
  induction n generalizing s with
  | zero => rfl
  | succ n ih =>
    rw [pwBits, pwBits, pwBit_aside]
    generalize pwBit s = q
    obtain ⟨_ | _ | _, u⟩ := q
    · exact ih u
    · rfl
    · rfl

theorem pwRest_asideBit (pos : Seq) (ws : List Word) (q : Poll × State) :
    pwRest (asideBit pos ws q) = asideBit pos ws (pwRest q) := by
  obtain ⟨_ | _ | _, u⟩ := q
  · exact pwBits_aside _ u pos ws
  · rfl
  · rfl

theorem pwCheck_endsAlike : EndsAlike pwCheck := by
  intro s pos ws
  have frame : (s.aside pos ws).pwFrame = s.pwFrame := rfl
  simp only [pwCheck, frame]
  split <;> rfl

theorem pwFinish_asideBit (pos : Seq) (ws : List Word) (q : Poll × State) :
    pwFinish (asideBit pos ws q) = { pwFinish q with host := ws } := by
  obtain ⟨_ | _ | _, u⟩ := q
  · exact pwCheck_endsAlike u pos ws
  · rfl
  · rfl

theorem pwResumeLow_endsAlike : EndsAlike pwResumeLow := by
  intro s pos ws
  rw [pwResumeLow, pwBit_aside, pwRest_asideBit, pwFinish_asideBit]
  rfl

theorem pwResumeHigh_endsAlike : EndsAlike pwResumeHigh := by
  intro s pos ws
  rw [pwResumeHigh, pwHighPhase_aside, pwRest_asideBit, pwFinish_asideBit]
  rfl

/-! ### A waiting command that goes on -/

/-- Neither the position field nor the host's words matter to a command that is taken on at `pos`. -/
theorem resume_aside {pos : Seq} {s t : State} (h : resume pos s = .next t) (p : Seq) (ws : List Word) :
    resume pos (s.aside p ws) = .next { t with host := ws } := by
  cases pos with
  | idle => cases h
  | convPoll u => cases h; exact congrArg _ (owConvertPoll_endsAlike u s p ws)
  | pwLow => cases h; exact congrArg _ (pwResumeLow_endsAlike s p ws)
  | pwHigh => cases h; exact congrArg _ (pwResumeHigh_endsAlike s p ws)
  | rsSpin g => cases h; exact congrArg _ (rsGuarded_endsAlike g s p ws)

/-- Settles O10: what goes on is the command at its position, by `resume_aside`. -/
theorem busyAcceptsNothing : Obligations.BusyAcceptsNothing := by
  intro s ws hr hb hseq
  obtain ⟨i, hi⟩ := exists_command hseq
  obtain ⟨t, ht, l⟩ := resume_leaves s hi
  obtain ⟨f, w, hf⟩ := l.writes
  obtain ⟨-, hhost, hport⟩ := w.outside_eq s
  refine ⟨t, (step_of_busy hr hb).trans ht, (congrArg State.host hf :).trans hhost,
    (congrArg State.wirePort hf :).trans hport, ?_⟩
  refine (step_of_busy (s := { s with host := ws }) hr hb).trans ?_
  exact resume_aside ht s.seq ws

end Sys2Proof.Machine
end

section
/-! PROOF. Where the scripted answers are cut makes no difference (spec 10_state.md R22, 00_scope.md R14; log 3): a command that
has used up its script and waits goes on, with more answers, as it would have gone with all of them from its start. -/

namespace Sys2Proof.Machine

/-- `s` with more answers after those of its script. -/
def State.feed (s : State) (more : List Bool) : State := s.scripted (s.script ++ more)

@[simp] theorem feed_par (s : State) (more : List Bool) : (s.feed more).par = s.par := rfl
@[simp] theorem feed_script (s : State) (more : List Bool) : (s.feed more).script = s.script ++ more := rfl

theorem after_feed (ops : List MicroOp) (s : State) (more : List Bool) :
    after ops (s.feed more) = (after ops s).feed more := rfl

/-! ### The oracle while its script lasts -/

theorem nextAnswer_feed {s : State} (more : List Bool) (h : s.script ≠ []) :
    nextAnswer (s.feed more) = nextAnswer s := by
  obtain ⟨a, rest, hs⟩ := List.exists_cons_of_ne_nil h
  rw [nextAnswer_cons hs, nextAnswer_cons (s := s.feed more) (a := a) (rest := rest ++ more) (by simp [hs])]

theorem takeAnswer_feed {s : State} (more : List Bool) (h : s.script ≠ []) :
    takeAnswer (s.feed more) = (takeAnswer s).feed more := by
  obtain ⟨a, rest, hs⟩ := List.exists_cons_of_ne_nil h
  rw [takeAnswer_cons hs, takeAnswer_cons (s := s.feed more) (a := a) (rest := rest ++ more) (by simp [hs])]
  rfl

theorem le_takeAnswer_freeCount (s : State) : s.freeCount ≤ (takeAnswer s).freeCount := by
  unfold takeAnswer
  split
  · exact Nat.le_refl _
  · exact Nat.le_succ _

theorem le_takeAnswers_freeCount (n : Nat) (s : State) : s.freeCount ≤ (takeAnswers n s).freeCount := by
  induction n generalizing s with
  | zero => exact Nat.le_refl _
  | succ n ih => exact (le_takeAnswer_freeCount s).trans (ih _)

/-- Free answers are never given back. -/
theorem Did.freeCount_le {r : Bool} {ls : List Line} {s t : State} (h : Did r ls s t) : s.freeCount ≤ t.freeCount := by
  obtain ⟨ops, -, -, -, -, -, hfree, -⟩ := h
  rw [hfree]
  exact le_takeAnswers_freeCount _ s

theorem Did.par_eq {r : Bool} {ls : List Line} {s t : State} (h : Did r ls s t) : t.par = s.par := by
  obtain ⟨ops, -, -, -, -, -, -, -, -, hpar⟩ := h
  exact hpar

/-- An answer that is not free is one of the script. -/
theorem script_ne_nil {s : State} (h : (takeAnswer s).freeCount ≤ s.freeCount) : s.script ≠ [] := by
  intro hs
  simp [takeAnswer, hs] at h

/-! ### Loops whose turn takes one answer -/

/-- Every turn of `body` takes one answer, and that and the parameters are all it goes by. -/
def AsksOnce (body : State → Bool × State) : Prop :=
  ∃ (leave : Bool → Bool) (ops : Params → Bool → List MicroOp), ∀ s,
    body s = (leave (nextAnswer s), after (ops s.par (nextAnswer s)) (takeAnswer s))

theorem owRbit_asksOnce : AsksOnce owRbit := ⟨id, waveOwRead, owRbit_eq⟩

theorem pwWaitTurn_asksOnce (v : Bool) : AsksOnce (pwWaitTurn v) := by
  refine ⟨(· == v), fun p a => if a = v then [.sample .pwd v] else [.sample .pwd (!v), .delayUs p.pwPollUs], fun s => ?_⟩
  rw [pwWaitTurn_eq]
  by_cases h : nextAnswer s = v <;> simp [h]

section

variable {body : State → Bool × State}

theorem AsksOnce.script (h : AsksOnce body) (s : State) : (body s).2.script = s.script.tail := by
  obtain ⟨leave, ops, e⟩ := h
  rw [e, after_script, takeAnswer_script]

theorem AsksOnce.freeCount (h : AsksOnce body) (s : State) : (body s).2.freeCount = (takeAnswer s).freeCount := by
  obtain ⟨leave, ops, e⟩ := h
  rw [e, after_freeCount]

theorem AsksOnce.feed (h : AsksOnce body) {s : State} (more : List Bool) (hs : s.script ≠ []) :
    body (s.feed more) = ((body s).1, (body s).2.feed more) := by
  obtain ⟨leave, ops, e⟩ := h
  rw [e, e, nextAnswer_feed more hs, takeAnswer_feed more hs]
  rfl

/-- Turns that do not leave take one answer each. -/
theorem AsksOnce.pollTimes_script (h : AsksOnce body) {n : Nat} {s : State} (hw : (pollTimes body n s).1 = false) :
    (pollTimes body n s).2.script = s.script.drop n := by
  induction n generalizing s with
  | zero => rfl
  | succ n ih =>
    cases hb : (body s).1 with
    | true => simp [pollTimes, hb] at hw
    | false =>
      have e : pollTimes body (n + 1) s = pollTimes body n (body s).2 := by simp [pollTimes, hb]
      rw [e] at hw ⊢
      rw [ih hw, h.script, List.drop_tail]

/-- As long as the script lasts, further answers after it change nothing; when it is used up, the loop goes on with them. -/
theorem AsksOnce.pollTimes_feed (h : AsksOnce body) (more : List Bool) (m : Nat) {n : Nat} {s : State}
    (hn : n ≤ s.script.length) :
    pollTimes body (n + m) (s.feed more) =
      if (pollTimes body n s).1 then (true, (pollTimes body n s).2.feed more)
      else pollTimes body m ((pollTimes body n s).2.feed more) := by
  induction n generalizing s with
  | zero => simp [pollTimes]
  | succ n ih =>
    have hs : s.script ≠ [] := List.length_pos_iff.mp (by omega)
    rw [Nat.succ_add, pollTimes, pollTimes, h.feed more hs]
    dsimp only
    cases hb : (body s).1 with
    | true => simp [hb]
    | false =>
      have hlen : n ≤ (body s).2.script.length := by rw [h.script, List.length_tail]; omega
      simpa [hb] using ih hlen

/-- A loop without a limit that has taken no free answer ran on a script. -/
theorem AsksOnce.script_ne_nil (h : AsksOnce body) {s : State} (hf : (poll body none s).2.freeCount ≤ s.freeCount) :
    s.script ≠ [] := by
  intro hs
  refine Machine.script_ne_nil ?_ hs
  have hp : (poll body none s).2 = (body s).2 := by
    simp only [poll, hs, List.length_nil, Nat.max_zero, pollTimes]
    split <;> rfl
  rwa [hp, h.freeCount] at hf

/-- Without a limit, on a script that is not empty, the loop has one turn for each of its answers (log 3). -/
theorem poll_none_eq {s : State} (hs : s.script ≠ []) :
    poll body none s =
      (if (pollTimes body s.script.length s).1 then .done else .waiting, (pollTimes body s.script.length s).2) := by
  have hlen : max 1 s.script.length = s.script.length := max_eq_right (List.length_pos_iff.mpr hs)
  rw [poll, hlen]

/-- A loop that left on a scripted answer does so whatever answers follow. -/
theorem AsksOnce.poll_feed_done (h : AsksOnce body) {s t : State} (more : List Bool)
    (hp : poll body none s = (.done, t)) (hf : t.freeCount ≤ s.freeCount) :
    poll body none (s.feed more) = (.done, t.feed more) := by
  have hs : s.script ≠ [] := h.script_ne_nil (by rw [hp]; exact hf)
  have hfeed := h.pollTimes_feed more more.length (Nat.le_refl s.script.length)
  rw [poll_none_eq hs] at hp
  rw [poll_none_eq (by simp [hs]), feed_script, List.length_append, hfeed]
  cases hl : (pollTimes body s.script.length s).1 with
  | true => simp_all
  | false => simp [hl] at hp

/-- A loop that waits, its script used up, goes on with the answers that follow. -/
theorem AsksOnce.poll_feed_waiting (h : AsksOnce body) {s t : State} {more : List Bool} (hm : more ≠ [])
    (hp : poll body none s = (.waiting, t)) (hf : t.freeCount ≤ s.freeCount) :
    poll body none (s.feed more) = poll body none (t.feed more) := by
  have hs : s.script ≠ [] := h.script_ne_nil (by rw [hp]; exact hf)
  have hfeed := h.pollTimes_feed more more.length (Nat.le_refl s.script.length)
  rw [poll_none_eq hs] at hp
  cases hl : (pollTimes body s.script.length s).1 with
  | true => simp [hl] at hp
  | false =>
    obtain rfl : (pollTimes body s.script.length s).2 = t := (Prod.mk.inj hp).2
    have hused := h.pollTimes_script hl
    rw [List.drop_length] at hused
    rw [poll_none_eq (by simp [hs]), poll_none_eq (by simp [hm]), feed_script, feed_script, List.length_append, hfeed, hused]
    simp [hl]

end

/-- A command goes on at the position it is taken on at, whatever the position field holds. -/
theorem resume_at {pos : Seq} {s t : State} (h : resume pos s = .next t) (p : Seq) :
    resume pos { s with seq := p } = .next t := by
  have self := resume_aside h s.seq s.host
  have e : { t with host := s.host } = t := Host.Outcome.next.inj (self.symm.trans h)
  exact (resume_aside h p s.host).trans (congrArg _ e)

/-! ### Unit OW -/

theorem owWriteBits_feed (is : List Nat) (s : State) (more : List Bool) :
    owWriteBits is (s.feed more) = (owWriteBits is s).feed more := by
  induction is generalizing s with
  | nil => rfl
  | cons i is ih =>
    rw [owWriteBits, owWriteBits, owWbit_eq, owWbit_eq]
    exact ih { after (waveOwWrite s.par (s.owShift.getLsbD i)) s with owBitcnt := BitVec.ofNat 4 (i + 1) }

theorem owWbyte_feed (v : Byte) (s : State) (more : List Bool) : owWbyte v (s.feed more) = (owWbyte v s).feed more :=
  owWriteBits_feed lsbFirst { s with owShift := v, owBitcnt := 0 } more

theorem convertSent_feed {s : State} (more : List Bool) (hs : s.script ≠ []) :
    convertSent (s.feed more) = (convertSent s).feed more := by
  simp only [convertSent, owReset_eq, nextAnswer_feed more hs, takeAnswer_feed more hs, feed_par, after_feed, owWbyte_feed]

theorem convertSent_freeCount (s : State) : (convertSent s).freeCount = (takeAnswer s).freeCount := by
  simp [convertSent, owReset_eq]

theorem afterConvert_busy (u : ConvUser) (st : Status) (s : State) : (afterConvert u st s).busy = false := by
  have raw : (owRawtempEnd st s).busy = false := by
    unfold owRawtempEnd
    dsimp only
    split
    · rfl
    · split <;> rfl
  cases u with
  | convert => cases st <;> rfl
  | rawtemp => exact raw
  | gettemp => exact raw

/-- The conversion poll leaves the block busy only where it waits. -/
theorem owConvertPoll_waiting {u : ConvUser} {s : State} (hb : (owConvertPoll u s).busy = true) :
    ∃ w, poll owRbit s.par.owConvPollLimit s = (.waiting, w) ∧ owConvertPoll u s = { w with seq := .convPoll u } := by
  rcases hp : poll owRbit s.par.owConvPollLimit s with ⟨_ | _ | _, w⟩
  · simp [owConvertPoll, hp, afterConvert_busy] at hb
  · simp [owConvertPoll, hp, afterConvert_busy] at hb
  · exact ⟨w, rfl, by simp [owConvertPoll, hp]⟩

theorem owConvertPoll_feed {u : ConvUser} {s : State} {more : List Bool} (hm : more ≠ [])
    (hl : s.par.owConvPollLimit = none) (hb : (owConvertPoll u s).busy = true)
    (hf : (owConvertPoll u s).freeCount ≤ s.freeCount) :
    resume (.convPoll u) ((owConvertPoll u s).feed more) = .next (owConvertPoll u (s.feed more)) := by
  obtain ⟨w, hp, hw⟩ := owConvertPoll_waiting hb
  rw [hw] at hf ⊢
  have hpar : w.par = s.par := by
    have k := kept_poll kept_owRbit s.par.owConvPollLimit s
    rw [hp] at k
    exact (congrArg State.par k :)
  rw [hl] at hp
  have hfeed := owRbit_asksOnce.poll_feed_waiting hm hp hf
  have same : owConvertPoll u (s.feed more) = owConvertPoll u (w.feed more) := by
    simp only [owConvertPoll, feed_par, hpar, hl, hfeed]
  rw [same]
  exact resume_at (s := w.feed more) rfl (.convPoll u)

theorem owConvert_feed {u : ConvUser} {s : State} {more : List Bool} (hm : more ≠ [])
    (hl : s.par.owConvPollLimit = none) (hb : (owConvert u s).busy = true) (hf : (owConvert u s).freeCount ≤ s.freeCount) :
    resume (.convPoll u) ((owConvert u s).feed more) = .next (owConvert u (s.feed more)) := by
  cases ha : nextAnswer s with
  | true => simp [owConvert, owReset_eq, ha, afterConvert_busy] at hb
  | false =>
    rw [owConvert_of_present u ha] at hb hf ⊢
    have hpoll := (owConvertPoll_did u (convertSent s)).freeCount_le
    rw [convertSent_freeCount] at hpoll
    have hs : s.script ≠ [] := script_ne_nil (hpoll.trans hf)
    rw [owConvert_of_present u ((nextAnswer_feed more hs).trans ha), convertSent_feed more hs]
    refine owConvertPoll_feed hm (by rw [convertSent_par]; exact hl) hb (hf.trans ?_)
    rw [convertSent_freeCount]
    exact le_takeAnswer_freeCount s

/-! ### Unit RS -/

theorem guardedBody_busy (g : Guarded) (s : State) : (guardedBody g { s with rsReady := false }).busy = false := by
  obtain ⟨f, st, data, -, h⟩ := guardedBody_leaves g s
  exact (congrArg State.busy h :)

theorem rsGuarded_feed {g : Guarded} {s : State} (more : List Bool) (hb : (rsGuarded g s).busy = true) :
    resume (.rsSpin g) ((rsGuarded g s).feed more) = .next (rsGuarded g (s.feed more)) := by
  have hstate := rsAcquire_state s
  rcases ha : rsAcquire s with ⟨_ | _ | _, w⟩
  · simp [rsGuarded, ha, guardedBody_busy] at hb
  · simp [rsGuarded, ha, raise] at hb
  · obtain rfl : w = s := by rw [ha] at hstate; exact hstate
    have hspin : rsGuarded g w = { w with seq := .rsSpin g } := by simp [rsGuarded, ha]
    rw [hspin]
    exact resume_at (s := w.feed more) rfl (.rsSpin g)

/-! ### Unit PW -/

theorem pwDecodeBit_feed {s : State} (more : List Bool) (hf : (pwDecodeBit s).freeCount ≤ s.freeCount) :
    pwDecodeBit (s.feed more) = (pwDecodeBit s).feed more := by
  have hs : s.script ≠ [] := script_ne_nil (by simpa [pwDecodeBit_eq, State.shifted] using hf)
  simp only [pwDecodeBit_eq, nextAnswer_feed more hs, takeAnswer_feed more hs, after_feed, feed_par]
  rfl

theorem poll_pwWait_freeCount_le {v : Bool} {limit : Option Nat} {s w : State} {r : Poll}
    (h : poll (pwWaitTurn v) limit s = (r, w)) : s.freeCount ≤ w.freeCount := by
  have d := (poll_pwWait_did (r := false) v limit s nofun).1.freeCount_le
  rwa [h] at d

theorem poll_pwWait_par {v : Bool} {limit : Option Nat} {s w : State} {r : Poll}
    (h : poll (pwWaitTurn v) limit s = (r, w)) : w.par = s.par := by
  have k := kept_poll (kept_pwWaitTurn v) limit s
  rw [h] at k
  exact (congrArg State.par k :)

section

variable {s t : State} {more : List Bool}

theorem pwHighPhase_feed_done (more : List Bool) (hl : s.par.pwPollLimit = none) (h : pwHighPhase s = (.done, t))
    (hf : t.freeCount ≤ s.freeCount) : pwHighPhase (s.feed more) = (.done, t.feed more) := by
  rcases hp : poll (pwWaitTurn false) s.par.pwPollLimit s with ⟨_ | _ | _, w⟩ <;> simp only [pwHighPhase, hp] at h
  · obtain rfl : pwDecodeBit w = t := (Prod.mk.inj h).2
    have hw := poll_pwWait_freeCount_le hp
    have hd := (pwDecodeBit_did (r := false) w nofun).1.freeCount_le
    rw [hl] at hp
    have hfeed := (pwWaitTurn_asksOnce false).poll_feed_done more hp (hd.trans hf)
    simp only [pwHighPhase, feed_par, hl, hfeed, pwDecodeBit_feed more (hf.trans hw)]
  · cases h
  · cases h

theorem pwHighPhase_feed_waiting (hm : more ≠ []) (hl : s.par.pwPollLimit = none) (h : pwHighPhase s = (.waiting, t))
    (hf : t.freeCount ≤ s.freeCount) :
    resume t.seq (t.feed more) = .next (pwFinish (pwRest (pwHighPhase (s.feed more)))) := by
  rcases hp : poll (pwWaitTurn false) s.par.pwPollLimit s with ⟨_ | _ | _, w⟩ <;> simp only [pwHighPhase, hp] at h
  · cases h
  · cases h
  · obtain rfl : { w with seq := .pwHigh } = t := (Prod.mk.inj h).2
    have hpar := poll_pwWait_par hp
    rw [hl] at hp
    have hfeed := (pwWaitTurn_asksOnce false).poll_feed_waiting hm hp hf
    have same : pwHighPhase (s.feed more) = pwHighPhase (w.feed more) := by
      simp only [pwHighPhase, feed_par, hpar, hl, hfeed]
    rw [same]
    exact resume_at (s := w.feed more) (pos := .pwHigh) rfl .pwHigh

theorem pwBit_feed_done (more : List Bool) (hl : s.par.pwPollLimit = none) (h : pwBit s = (.done, t))
    (hf : t.freeCount ≤ s.freeCount) : pwBit (s.feed more) = (.done, t.feed more) := by
  rcases hp : poll (pwWaitTurn true) s.par.pwPollLimit s with ⟨_ | _ | _, w⟩ <;> simp only [pwBit, hp] at h
  · have hpar := poll_pwWait_par hp
    have hw := poll_pwWait_freeCount_le hp
    have hh := (pwHighPhase_did (r := false) w nofun).1.freeCount_le
    rw [h] at hh
    rw [hl] at hp
    have hfeed := (pwWaitTurn_asksOnce true).poll_feed_done more hp (hh.trans hf)
    rw [pwBit_done (by rw [feed_par, hl]; exact hfeed)]
    exact pwHighPhase_feed_done more (hpar ▸ hl) h (hf.trans hw)
  · cases h
  · cases h

theorem pwBit_feed_waiting (hm : more ≠ []) (hl : s.par.pwPollLimit = none) (h : pwBit s = (.waiting, t))
    (hf : t.freeCount ≤ s.freeCount) :
    resume t.seq (t.feed more) = .next (pwFinish (pwRest (pwBit (s.feed more)))) := by
  rcases hp : poll (pwWaitTurn true) s.par.pwPollLimit s with ⟨_ | _ | _, w⟩ <;> simp only [pwBit, hp] at h
  · have hpar := poll_pwWait_par hp
    have hw := poll_pwWait_freeCount_le hp
    have hh := (pwHighPhase_did (r := false) w nofun).1.freeCount_le
    rw [h] at hh
    rw [hl] at hp
    have hfeed := (pwWaitTurn_asksOnce true).poll_feed_done more hp (hh.trans hf)
    rw [pwBit_done (by rw [feed_par, hl]; exact hfeed)]
    exact pwHighPhase_feed_waiting hm (hpar ▸ hl) h (hf.trans hw)
  · cases h
  · obtain rfl : { w with seq := .pwLow } = t := (Prod.mk.inj h).2
    have hpar := poll_pwWait_par hp
    rw [hl] at hp
    have hfeed := (pwWaitTurn_asksOnce true).poll_feed_waiting hm hp hf
    have same : pwBit (s.feed more) = pwBit (w.feed more) := by simp only [pwBit, feed_par, hpar, hl, hfeed]
    rw [same]
    exact resume_at (s := w.feed more) (pos := .pwLow) rfl .pwLow

/-- In a frame with `n + 1` bits to come, one bit and the rest of the frame are those bits. -/
theorem pwRest_pwBit {n : Nat} (hn : s.pwBitcnt.toNat + (n + 1) = 40) : pwRest (pwBit s) = pwBits (n + 1) s := by
  obtain ⟨-, hdone⟩ := bit_incomplete (pwBit_bitcnt s) (by omega)
  rw [pwBits, pwRest]
  split
  · have hrest : Config.pwNbits - (pwBit s).2.pwBitcnt.toNat = n := by
      rw [hdone ‹_›, Config.pwNbits]; omega
    rw [hrest]
  · rfl
  · rfl

/-- A frame that waits goes on as it would have gone. -/
theorem pwBits_feed {n : Nat} (hm : more ≠ []) (hl : s.par.pwPollLimit = none) (h : pwBits n s = (.waiting, t))
    (hf : t.freeCount ≤ s.freeCount) (hn : s.pwBitcnt.toNat + n = 40) :
    resume t.seq (t.feed more) = .next (pwFinish (pwBits n (s.feed more))) := by
  induction n generalizing s with
  | zero => cases h
  | succ n ih =>
    have hcount := pwBit_bitcnt s
    have hpar := (pwBit_did (r := false) s nofun).1.par_eq
    have hle := (pwBit_did (r := false) s nofun).1.freeCount_le
    rcases hp : pwBit s with ⟨_ | _ | _, u⟩
    · rw [pwBits, hp] at h
      change pwBits n u = (.waiting, t) at h
      rw [hp] at hcount hpar hle
      have hrest := (pwBits_did (r := false) n u nofun).1.freeCount_le
      rw [h] at hrest
      rw [pwBits, pwBit_feed_done more hl hp (hrest.trans hf)]
      refine ih (hpar ▸ hl) h (hf.trans hle) ?_
      rw [hcount, if_pos rfl, toNat_add_one (by omega)]
      omega
    · rw [pwBits, hp] at h
      cases h
    · rw [pwBits, hp] at h
      cases h
      rw [← pwRest_pwBit (s := s.feed more) hn]
      exact pwBit_feed_waiting hm hl hp hf

end

theorem pwFinish_waiting {q : Poll × State} (hb : (pwFinish q).busy = true) : q = (.waiting, pwFinish q) := by
  obtain ⟨_ | _ | _, u⟩ := q
  · refine absurd hb ?_
    change ¬ (pwCheck u).busy = true
    unfold pwCheck
    split <;> exact nofun
  · exact absurd hb nofun
  · rfl

theorem pwSample_feed {s : State} {more : List Bool} (hm : more ≠ []) (hl : s.par.pwPollLimit = none)
    (hb : (pwSample s).busy = true) (hf : (pwSample s).freeCount ≤ s.freeCount) :
    resume (pwSample s).seq ((pwSample s).feed more) = .next (pwSample (s.feed more)) := by
  have started (s : State) : pwSample s = pwFinish (pwBits Config.pwNbits ((after (pwStartOps s.par) s).shifted 0 0)) := by
    rw [pwSample, performAll_eq]; rfl
  rw [started] at hb hf ⊢
  rw [started (s.feed more)]
  exact pwBits_feed (s := (after (pwStartOps s.par) s).shifted 0 0) hm hl (pwFinish_waiting hb) hf rfl

/-! ### Every command -/

/-- Settles O15: a command that is busy waits in one of the four loops, and each goes on as it would have gone. -/
theorem waitingIsSeamless : Obligations.WaitingIsSeamless := by
  intro i s t more hc hr he hb hscript hfree hm
  obtain ⟨u, hu, l⟩ := exec_leaves i s hc
  obtain rfl : t = u := Host.Outcome.next.inj (he.symm.trans hu)
  obtain ⟨f, st, data, -, ht⟩ | ⟨pos, hpos, hl, ht⟩ := l
  · have hidle : t.busy = false := (congrArg State.busy ht :)
    rw [hb] at hidle
    cases hidle
  · have hseq : t.seq = pos := (congrArg State.seq ht :)
    have hrst : t.rst = false := (congrArg State.rst ht :).trans hr
    have hfed : { t with script := more } = t.feed more := by rw [State.feed, hscript]; rfl
    rw [hfed]
    refine (step_of_busy (s := t.feed more) hrst hb).trans ?_
    change resume t.seq (t.feed more) = exec i (s.feed more)
    cases pos with
    | idle => exact hl.elim
    | convPoll u =>
      obtain rfl : u.instr = i := Option.some.inj ((command_convPoll u).symm.trans hpos)
      have run (s : State) : exec u.instr s = .next (owConvert u (accept s)) := by cases u <;> rfl
      rw [run] at he
      cases he
      rw [hseq, run]
      exact owConvert_feed hm hl hb hfree.le
    | pwLow =>
      cases hpos
      cases he
      exact pwSample_feed hm hl hb hfree.le
    | pwHigh =>
      cases hpos
      cases he
      exact pwSample_feed hm hl hb hfree.le
    | rsSpin g =>
      obtain rfl : guardedInstr g = i := Option.some.inj hpos
      have run (s : State) : exec (guardedInstr g) s = .next (rsGuarded g (accept s)) := by cases g <;> rfl
      rw [run] at he
      cases he
      rw [hseq, run]
      exact rsGuarded_feed more hb

end Sys2Proof.Machine
end

section
/-! PROOF. The commands that touch no line are idempotent (spec 20_memory.md R83): the second run reads and writes only
registers that the first run's response leaves alone. -/

namespace Sys2Proof.Machine

/-- `i`, run in `s`, touches no line and ends in a state in which running it again changes nothing. -/
def SettlesAtOnce (i : Instr) (s : State) : Prop :=
  ∃ t, exec i s = .next t ∧ t.trace = [] ∧ exec i t = .next t

/-- Of two commands that only answer, the later response is the one that stands (R16, R23). -/
theorem respond_accept_respond_accept (st st' : Status) (data data' : BitVec 64) (s : State) :
    respond st' data' (accept (respond st data (accept s))) = respond st' data' (accept s) := rfl

/-- A command that only answers settles at once when its response does not change the data it reads. -/
theorem settlesAtOnce_of_answer {i : Instr} {st : Status} {data : State → BitVec 64}
    (run : ∀ s, exec i s = .next (respond st (data s) (accept s)))
    (reads : ∀ s, data (respond st (data s) (accept s)) = data s) (s : State) : SettlesAtOnce i s := by
  refine ⟨respond st (data s) (accept s), run s, rfl, ?_⟩
  rw [run, reads, respond_accept_respond_accept]

theorem rsSelectors_respond_accept (st : Status) (data : BitVec 64) (s : State) :
    rsSelectors (respond st data (accept s)) = rsSelectors s := rfl

theorem rsGettemp_settlesAtOnce (s : State) : SettlesAtOnce .rsGettemp s :=
  settlesAtOnce_of_answer (st := .ok) (data := fun s => rsSelectors s ||| zext64 s.rsRawTemp) (fun _ => rfl)
    (fun s => by simp [rsSelectors_respond_accept]) s

theorem rsGethum_settlesAtOnce (s : State) : SettlesAtOnce .rsGethum s :=
  settlesAtOnce_of_answer (st := .ok)
    (data := fun s => (zext64 s.rsRawTemp <<< 32) ||| rsSelectors s ||| zext64 s.rsRawHum) (fun _ => rfl)
    (fun s => by simp [rsSelectors_respond_accept]) s

theorem pwGet_settlesAtOnce (s : State) : SettlesAtOnce .pwGet s :=
  settlesAtOnce_of_answer (st := .ok) (data := pwCached) (fun _ => rfl) (fun s => by simp [pwCached]) s

/-- The scale written does not depend on the state, so writing it twice is writing it once (R284). -/
theorem rsSetscale_settlesAtOnce (b : Bool) (s : State) : SettlesAtOnce (.rsSetscale b) s :=
  ⟨ret (bit64 b) { accept s with rsScale := b }, rfl, rfl, rfl⟩

theorem exec_i2cSetfreq_zero (s : State) : exec (.i2cSetfreq 0) s = .next (raise .illegal 0 (accept s)) := rfl

theorem exec_i2cSetfreq_of_ne_zero {hz : BitVec 24} (h : hz ≠ 0) (s : State) :
    exec (.i2cSetfreq hz) s = .next (ret 0 { accept s with i2cHalfUs := halfCycle hz }) :=
  congrArg Host.Outcome.next (if_neg h)

/-- A frequency of 0 is only refused; any other fixes the half cycle whatever it was before (R240). -/
theorem i2cSetfreq_settlesAtOnce (hz : BitVec 24) (s : State) : SettlesAtOnce (.i2cSetfreq hz) s := by
  by_cases h : hz = 0
  · subst h
    exact settlesAtOnce_of_answer exec_i2cSetfreq_zero (fun _ => rfl) s
  · exact ⟨_, exec_i2cSetfreq_of_ne_zero h s, rfl, exec_i2cSetfreq_of_ne_zero h _⟩

/-- Settles O59, command by command. -/
theorem localCommandsIdempotent : Obligations.LocalCommandsIdempotent := by
  rintro i s (rfl | rfl | ⟨b, rfl⟩ | rfl | ⟨hz, rfl⟩)
  · exact rsGettemp_settlesAtOnce s
  · exact rsGethum_settlesAtOnce s
  · exact rsSetscale_settlesAtOnce b s
  · exact pwGet_settlesAtOnce s
  · exact i2cSetfreq_settlesAtOnce hz s

end Sys2Proof.Machine
end

section
/-! PROOF. Encoding and decoding undo each other (spec 30_encoding.md R100 to R103, R120 to R123). What the opcode map does
with a word is said once, row by row (`Reads`); the laws of encoding and the classes of illegal word follow from that. -/

namespace Sys2Proof

/-! ### Decoding an encoded instruction -/

theorem decodeWord_unit_ow (o : BitVec 4) (a : BitVec 24) : decodeWord (commandWord 0 o a) = decodeOw o a := by
  rw [decodeWord, unitOf_commandWord, opOf_commandWord, argOf_commandWord]; rfl

theorem decodeWord_unit_i2c (o : BitVec 4) (a : BitVec 24) : decodeWord (commandWord 1 o a) = decodeI2c o a := by
  rw [decodeWord, unitOf_commandWord, opOf_commandWord, argOf_commandWord]; rfl

theorem decodeWord_unit_rs (o : BitVec 4) (a : BitVec 24) : decodeWord (commandWord 2 o a) = decodeRs o a := by
  rw [decodeWord, unitOf_commandWord, opOf_commandWord, argOf_commandWord]; rfl

/-- Settles O1: a row with an operand by the law of its operand form; every other row's code is one closed word or byte. -/
theorem decodeOfEncode : Obligations.DecodeOfEncode := by
  intro i
  cases i with
  | owWbit b => exact (decodeWord_unit_ow 1 (bitArg b)).trans (bitOperand_bitArg b .owWbit)
  | owWbyte v => exact (decodeWord_unit_ow 3 (v.setWidth 24)).trans (byteOperand_setWidth v .owWbyte)
  | owSetres res => exact (decodeWord_unit_ow 5 (res.setWidth 24)).trans (resOperand_setWidth res .owSetres)
  | i2cWrite v => exact (decodeWord_unit_i2c 2 (v.setWidth 24)).trans (byteOperand_setWidth v .i2cWrite)
  | i2cRead a => exact (decodeWord_unit_i2c 3 (bitArg a)).trans (bitOperand_bitArg a .i2cRead)
  | i2cSetfreq hz => exact decodeWord_unit_i2c 6 hz
  | rsSetheater b => exact (decodeWord_unit_rs 3 (bitArg b)).trans (bitOperand_bitArg b .rsSetheater)
  | rsSetres b => exact (decodeWord_unit_rs 4 (bitArg b)).trans (bitOperand_bitArg b .rsSetres)
  | rsSetotp b => exact (decodeWord_unit_rs 5 (bitArg b)).trans (bitOperand_bitArg b .rsSetotp)
  | rsSetscale b => exact (decodeWord_unit_rs 6 (bitArg b)).trans (bitOperand_bitArg b .rsSetscale)
  | _ => rfl

/-- Settles O6: each word is the code of the instruction it stands for, so `decodeOfEncode` reads it. -/
theorem sanityWords : Obligations.SanityWords :=
  ⟨decodeOfEncode .owRawtemp, decodeOfEncode (.owWbyte 0xCC), decodeOfEncode (.owSetres 3),
    decodeOfEncode (.i2cSetfreq 100000), decodeOfEncode (.i2cRead true), decodeOfEncode (.rsSetheater true),
    decodeOfEncode .rsUpdate, decodeOfEncode .pwSample, decodeOfEncode .owdevWriteScratchpad,
    decodeOfEncode .owcfg12bit, decodeOfEncode .rsdevResetDevice, decodeOfEncode .rsflagBattery⟩

/-! ### What a row reads from `ARG` -/

/-- The row at `UNIT` = `u`, `OP` = `o` answers `r` for `ARG` = `a`: an instruction whose code is that very word when all
bits outside the operand field `m` are 0 (R102), a stray `ARG` bit otherwise (R105). -/
def Reads (u o : BitVec 4) (m a : BitVec 24) (r : Except DecodeError Instr) : Prop :=
  (a &&& ~~~m = 0 ∧ ∃ i, r = .ok i ∧ encode i = .cmd32 (commandWord u o a)) ∨
    (a &&& ~~~m ≠ 0 ∧ r = .error .argNotZero)

/-- With an operand field of `n` bits, the bits above it are 0 exactly when none outside the mask is 1. -/
theorem extractLsb'_eq_zero_iff (n : Nat) (a m : BitVec 24) (hm : ∀ i, i < 24 → m.getLsbD i = decide (i < n)) :
    a.extractLsb' n (24 - n) = 0 ↔ a &&& ~~~m = 0 := by
  constructor
  · intro h
    apply BitVec.eq_of_getLsbD_eq
    intro i hi
    by_cases hn : i < n
    · simp [hm i hi, hn]
    · have high := congrArg (fun x => x.getLsbD (i - n)) h
      rw [BitVec.getLsbD_extractLsb', show n + (i - n) = i by omega] at high
      have bit : a.getLsbD i = false := by simpa [show i - n < 24 - n by omega] using high
      simp [bit]
  · intro h
    apply BitVec.eq_of_getLsbD_eq
    intro i hi
    have bit : (a &&& ~~~m).getLsbD (n + i) = false := by rw [h]; simp
    have out : m.getLsbD (n + i) = false := by simp [hm (n + i) (by omega)]
    rw [BitVec.getLsbD_and, BitVec.getLsbD_not, out, decide_eq_true (by omega : n + i < 24)] at bit
    simpa [hi] using bit

section rows

variable {u o : BitVec 4} {a : BitVec 24}

theorem noOperand_reads {i : Instr} (he : encode i = .cmd32 (commandWord u o 0)) : Reads u o 0 a (noOperand a i) := by
  have all : a &&& ~~~(0 : BitVec 24) = a := BitVec.and_allOnes
  rw [Reads, all]
  by_cases h : a = 0
  · exact .inl ⟨h, i, if_pos h, h ▸ he⟩
  · exact .inr ⟨h, if_neg h⟩

theorem bitOperand_reads {f : Bool → Instr} (he : ∀ b, encode (f b) = .cmd32 (commandWord u o (bitArg b))) :
    Reads u o 1 a (bitOperand a f) := by
  rw [Reads, Ne, ← extractLsb'_eq_zero_iff 1 a 1 (by decide)]
  by_cases h : a.extractLsb' 1 23 = 0
  · obtain ⟨b, rfl, -⟩ := bitOperand_ok (f := f) (if_pos h)
    exact .inl ⟨h, f b, bitOperand_bitArg b f, he b⟩
  · exact .inr ⟨h, if_neg h⟩

theorem resOperand_reads {f : BitVec 2 → Instr} (he : ∀ v, encode (f v) = .cmd32 (commandWord u o (v.setWidth 24))) :
    Reads u o 3 a (resOperand a f) := by
  rw [Reads, Ne, ← extractLsb'_eq_zero_iff 2 a 3 (by decide)]
  by_cases h : a.extractLsb' 2 22 = 0
  · obtain ⟨v, rfl, -⟩ := resOperand_ok (f := f) (if_pos h)
    exact .inl ⟨h, f v, resOperand_setWidth v f, he v⟩
  · exact .inr ⟨h, if_neg h⟩

theorem byteOperand_reads {f : Byte → Instr} (he : ∀ v, encode (f v) = .cmd32 (commandWord u o (v.setWidth 24))) :
    Reads u o 0xFF a (byteOperand a f) := by
  rw [Reads, Ne, ← extractLsb'_eq_zero_iff 8 a 0xFF (by decide)]
  by_cases h : a.extractLsb' 8 16 = 0
  · obtain ⟨v, rfl, -⟩ := byteOperand_ok (f := f) (if_pos h)
    exact .inl ⟨h, f v, byteOperand_setWidth v f, he v⟩
  · exact .inr ⟨h, if_neg h⟩

/-- A row whose operand is the whole of `ARG`. -/
theorem wholeOperand_reads {f : BitVec 24 → Instr} (he : ∀ v, encode (f v) = .cmd32 (commandWord u o v)) :
    Reads u o 0xFFFFFF a (.ok (f a)) := by
  have none : a &&& ~~~(0xFFFFFF : BitVec 24) = 0 := BitVec.and_zero
  exact .inl ⟨none, f a, rfl, he a⟩

end rows

/-! ### The opcode map, unit by unit -/

open Machine (operandMask opCount)

/-- A unit's part of the opcode map, at the `OP` values the unit has rows for and at all others (R103, R105). -/
def ReadsUnit (u : BitVec 4) (dec : BitVec 4 → BitVec 24 → Except DecodeError Instr) : Prop :=
  ∀ n a, (n < opCount u.toNat → Reads u (BitVec.ofNat 4 n) (operandMask u.toNat n) a (dec (BitVec.ofNat 4 n) a)) ∧
    (n < 16 → opCount u.toNat ≤ n → dec (BitVec.ofNat 4 n) a = .error .unusedOp)

theorem decodeOw_readsUnit : ReadsUnit 0 decodeOw := by
  refine fun n a => ⟨fun h => ?_, fun h k => ?_⟩
  · match n, h with
    | 0, _ => exact noOperand_reads rfl
    | 1, _ => exact bitOperand_reads fun _ => rfl
    | 2, _ => exact noOperand_reads rfl
    | 3, _ => exact byteOperand_reads fun _ => rfl
    | 4, _ => exact noOperand_reads rfl
    | 5, _ => exact resOperand_reads fun _ => rfl
    | 6, _ => exact noOperand_reads rfl
    | 7, _ => exact noOperand_reads rfl
    | 8, _ => exact noOperand_reads rfl
    | 9, _ => exact noOperand_reads rfl
  · change 10 ≤ n at k
    interval_cases n <;> rfl

theorem decodeI2c_readsUnit : ReadsUnit 1 decodeI2c := by
  refine fun n a => ⟨fun h => ?_, fun h k => ?_⟩
  · match n, h with
    | 0, _ => exact noOperand_reads rfl
    | 1, _ => exact noOperand_reads rfl
    | 2, _ => exact byteOperand_reads fun _ => rfl
    | 3, _ => exact bitOperand_reads fun _ => rfl
    | 4, _ => exact noOperand_reads rfl
    | 5, _ => exact noOperand_reads rfl
    | 6, _ => exact wholeOperand_reads fun _ => rfl
  · change 7 ≤ n at k
    interval_cases n <;> rfl

theorem decodeRs_readsUnit : ReadsUnit 2 decodeRs := by
  refine fun n a => ⟨fun h => ?_, fun h k => ?_⟩
  · match n, h with
    | 0, _ => exact noOperand_reads rfl
    | 1, _ => exact noOperand_reads rfl
    | 2, _ => exact noOperand_reads rfl
    | 3, _ => exact bitOperand_reads fun _ => rfl
    | 4, _ => exact bitOperand_reads fun _ => rfl
    | 5, _ => exact bitOperand_reads fun _ => rfl
    | 6, _ => exact bitOperand_reads fun _ => rfl
    | 7, _ => exact noOperand_reads rfl
    | 8, _ => exact noOperand_reads rfl
    | 9, _ => exact noOperand_reads rfl
  · change 10 ≤ n at k
    interval_cases n <;> rfl

theorem decodePw_readsUnit : ReadsUnit 3 decodePw := by
  refine fun n a => ⟨fun h => ?_, fun h k => ?_⟩
  · match n, h with
    | 0, _ => exact noOperand_reads rfl
    | 1, _ => exact noOperand_reads rfl
  · change 2 ≤ n at k
    interval_cases n <;> rfl

/-- What decoding answers for a word of these fields: R102 where its row exists, R105 where it does not. -/
def DecodesAs (u o : BitVec 4) (a : BitVec 24) (r : Except DecodeError Instr) : Prop :=
  (o.toNat < opCount u.toNat ∧ Reads u o (operandMask u.toNat o.toNat) a r) ∨
    (u.toNat < 4 ∧ opCount u.toNat ≤ o.toNat ∧ r = .error .unusedOp) ∨
    (4 ≤ u.toNat ∧ r = .error .reservedUnit)

theorem ReadsUnit.decodesAs {u : BitVec 4} {dec : BitVec 4 → BitVec 24 → Except DecodeError Instr} (h : ReadsUnit u dec)
    (hu : u.toNat < 4) (o : BitVec 4) (a : BitVec 24) : DecodesAs u o a (dec o a) := by
  obtain ⟨rows, unused⟩ := h o.toNat a
  rw [BitVec.ofNat_toNat, BitVec.setWidth_eq] at rows unused
  obtain hlt | hge := Nat.lt_or_ge o.toNat (opCount u.toNat)
  · exact .inl ⟨hlt, rows hlt⟩
  · exact .inr (.inl ⟨hu, hge, unused o.isLt hge⟩)

theorem decodeWord_decodesAs (w : Word) : DecodesAs (unitOf w) (opOf w) (argOf w) (decodeWord w) := by
  have units : ∀ u : BitVec 4, u = 0 ∨ u = 1 ∨ u = 2 ∨ u = 3 ∨ 4 ≤ u.toNat := by decide
  unfold decodeWord
  generalize unitOf w = u
  obtain rfl | rfl | rfl | rfl | hu := units u
  · exact decodeOw_readsUnit.decodesAs (by decide) _ _
  · exact decodeI2c_readsUnit.decodesAs (by decide) _ _
  · exact decodeRs_readsUnit.decodesAs (by decide) _ _
  · exact decodePw_readsUnit.decodesAs (by decide) _ _
  · refine .inr (.inr ⟨hu, ?_⟩)
    match u.toNat, hu with
    | n + 4, _ => rfl

/-! ### Encoding what a code decodes to -/

/-- Every wire constant decodes from its own byte alone (R120 to R123). -/
theorem encode_of_decodeWire {b : Byte} {i : Instr} (h : decodeWire b = .ok i) : encode i = .wire8 b := by
  unfold decodeWire at h
  split at h <;> cases h <;> exact congrArg Code.wire8 (BitVec.eq_of_toNat_eq (Eq.symm ‹b.toNat = _›))

theorem encode_of_decodeWord {w : Word} {i : Instr} (h : decodeWord w = .ok i) : encode i = .cmd32 w := by
  obtain ⟨-, ⟨-, j, hj, he⟩ | ⟨-, hr⟩⟩ | ⟨-, -, hr⟩ | ⟨-, hr⟩ := decodeWord_decodesAs w
  · obtain rfl : j = i := Except.ok.inj (hj.symm.trans h)
    rw [he, commandWord_fields]
  all_goals cases hr.symm.trans h

/-- Settles O2, format by format. -/
theorem encodeOfDecode : Obligations.EncodeOfDecode := by
  intro c i h
  cases c with
  | cmd32 w => exact encode_of_decodeWord h
  | wire8 b => exact encode_of_decodeWire h

/-! ### Which words are illegal -/

theorem lt_four_of_lt_opCount {u n : Nat} (h : n < opCount u) : u < 4 := by
  by_contra hu
  match u, hu with
  | u + 4, _ => exact Nat.not_lt_zero n h

/-- Settles O4: a word falls under one of the four cases, and its own excludes the other three. -/
theorem illegalWords : Obligations.IllegalWords := by
  intro w
  have whole : decode (.cmd32 w) = decodeWord w := rfl
  obtain ⟨hrow, ⟨hstray, i, hd, -⟩ | ⟨hstray, hd⟩⟩ | ⟨hu, ho, hd⟩ | ⟨hu, hd⟩ := decodeWord_decodesAs w
  · have hu := lt_four_of_lt_opCount hrow
    refine ⟨iff_of_false ?_ hu.not_ge, iff_of_false ?_ fun h => h.2.not_gt hrow, iff_of_false ?_ fun h => h.2 hstray,
      iff_of_true ⟨i, hd⟩ ⟨hrow, hstray⟩⟩
    all_goals simp [whole, hd]
  · have hu := lt_four_of_lt_opCount hrow
    refine ⟨iff_of_false ?_ hu.not_ge, iff_of_false ?_ fun h => h.2.not_gt hrow, iff_of_true hd ⟨hrow, hstray⟩,
      iff_of_false ?_ fun h => hstray h.2⟩
    all_goals simp [whole, hd]
  · refine ⟨iff_of_false ?_ hu.not_ge, iff_of_true hd ⟨hu, ho⟩, iff_of_false ?_ fun h => ho.not_gt h.1,
      iff_of_false ?_ fun h => ho.not_gt h.1⟩
    all_goals simp [whole, hd]
  · refine ⟨iff_of_true hd hu, iff_of_false ?_ fun h => hu.not_gt h.1,
      iff_of_false ?_ fun h => hu.not_gt (lt_four_of_lt_opCount h.1),
      iff_of_false ?_ fun h => hu.not_gt (lt_four_of_lt_opCount h.1)⟩
    all_goals simp [whole, hd]

end Sys2Proof
end

section
/-! PROOF. The rows of the opcode table against the decoder (spec 30_encoding.md R103, R104): a word a command's row selects
is the code of a command of that row. -/

namespace Sys2Proof

/-- An instruction's code selects the instruction's own row (R103). -/
theorem row_selects_encode (i : Instr) : i.row.selects (encode i) = true := by
  cases i with
  | owWbit b => exact Laws.TableRow.owWbit b
  | owWbyte v => exact Laws.TableRow.owWbyte v
  | owSetres res => exact Laws.TableRow.owSetres res
  | i2cWrite v => exact Laws.TableRow.i2cWrite v
  | i2cRead a => exact Laws.TableRow.i2cRead a
  | i2cSetfreq hz => exact Laws.TableRow.i2cSetfreq hz
  | rsSetheater b => exact Laws.TableRow.rsSetheater b
  | rsSetres b => exact Laws.TableRow.rsSetres b
  | rsSetotp b => exact Laws.TableRow.rsSetotp b
  | rsSetscale b => exact Laws.TableRow.rsSetscale b
  | _ => rfl

/-- An instruction that is no command has a byte as its code and a row of that format (R120 to R123). -/
theorem wire_of_not_isCommand {i : Instr} (h : i.isCommand = false) :
    (∃ b, encode i = .wire8 b) ∧ ∃ pattern mask, i.row = .wire8 pattern mask := by
  cases i with
  | owdevReadRom | owdevConvert | owdevReadScratchpad | owdevWriteScratchpad | owdevSkipRom
  | owcfg9bit | owcfg10bit | owcfg11bit | owcfg12bit
  | rsdevReadTemperature | rsdevReadHumidity | rsdevReadRegister | rsdevWriteRegister | rsdevResetDevice
  | rsflagResolution | rsflagOtpReload | rsflagHeater | rsflagBattery => exact ⟨⟨_, rfl⟩, _, _, rfl⟩
  | _ => cases h

theorem isCommand_of_encode {i : Instr} {w : Word} (h : encode i = .cmd32 w) : i.isCommand = true := by
  by_contra hc
  obtain ⟨⟨b, hb⟩, -⟩ := wire_of_not_isCommand (Bool.eq_false_of_not_eq_true hc)
  cases h.symm.trans hb

theorem isCommand_of_selects {i : Instr} {w : Word} (h : i.row.selects (.cmd32 w) = true) : i.isCommand = true := by
  by_contra hc
  obtain ⟨-, pattern, mask, hr⟩ := wire_of_not_isCommand (Bool.eq_false_of_not_eq_true hc)
  rw [hr] at h
  cases h

/-! ### The word a row with an operand selects -/

theorem commandWord_inj {u o u' o' : BitVec 4} {a a' : BitVec 24} (h : commandWord u o a = commandWord u' o' a') :
    u = u' ∧ o = o' ∧ a = a' := by
  have hu := congrArg unitOf h
  have ho := congrArg opOf h
  have ha := congrArg argOf h
  rw [unitOf_commandWord, unitOf_commandWord] at hu
  rw [opOf_commandWord, opOf_commandWord] at ho
  rw [argOf_commandWord, argOf_commandWord] at ha
  exact ⟨hu, ho, ha⟩

theorem eq_setWidth_of_and_eq_zero (n : Nat) {a m : BitVec 24} (hm : ∀ i, i < 24 → n ≤ i → m.getLsbD i = true)
    (h : a &&& m = 0) : a = (a.setWidth n).setWidth 24 := by
  apply BitVec.eq_of_getLsbD_eq
  intro i hi
  by_cases hn : i < n
  · simp [hi, hn]
  · have bit := congrArg (fun x => x.getLsbD i) h
    simpa [hn, hm i hi (by omega)] using bit

/-- The converse of `selects_operand`: a row whose mask leaves out an operand of `n` bits selects only its own words. -/
theorem word_of_selects (n : Nat) {w : Word} (u o : BitVec 4) (m : BitVec 24)
    (hm : ∀ i, i < 24 → n ≤ i → m.getLsbD i = true)
    (h : (w &&& commandWord 15 15 m == commandWord u o 0) = true) :
    ∃ v : BitVec n, w = commandWord u o (v.setWidth 24) := by
  have all : ∀ x : BitVec 4, x &&& 15 = x := by decide
  rw [beq_iff_eq, ← commandWord_fields w, Laws.commandWord_and, all, all] at h
  obtain ⟨hu, ho, ha⟩ := commandWord_inj h
  refine ⟨(argOf w).setWidth n, ?_⟩
  rw [← eq_setWidth_of_and_eq_zero n hm ha, ← hu, ← ho, commandWord_fields]

theorem word_of_selects_bit {w : Word} (u o : BitVec 4)
    (h : (w &&& commandWord 15 15 0xFFFFFE == commandWord u o 0) = true) : ∃ b, w = commandWord u o (bitArg b) := by
  have one : ∀ v : BitVec 1, v = BitVec.ofBool (v.getLsbD 0) := by decide
  obtain ⟨v, rfl⟩ := word_of_selects 1 u o 0xFFFFFE (by decide) h
  exact ⟨v.getLsbD 0, congrArg (fun x : BitVec 1 => commandWord u o (x.setWidth 24)) (one v)⟩

/-- A word that a command's row selects is the code of a command of that row. -/
theorem exists_encode_of_selects {i : Instr} {w : Word} (hc : i.isCommand = true) (h : i.row.selects (.cmd32 w) = true) :
    ∃ j, encode j = .cmd32 w ∧ j.row = i.row := by
  have plain {j : Instr} {p : Word} (he : encode j = .cmd32 p) (hm : w &&& 0xFFFFFFFF = p) :
      ∃ k, encode k = .cmd32 w ∧ k.row = j.row := by
    rw [show w &&& 0xFFFFFFFF = w from BitVec.and_allOnes] at hm
    exact ⟨j, hm ▸ he, rfl⟩
  cases i with
  | owWbit => obtain ⟨b, rfl⟩ := word_of_selects_bit 0 1 h; exact ⟨.owWbit b, rfl, rfl⟩
  | owWbyte => obtain ⟨v, rfl⟩ := word_of_selects 8 0 3 0xFFFF00 (by decide) h; exact ⟨.owWbyte v, rfl, rfl⟩
  | owSetres => obtain ⟨v, rfl⟩ := word_of_selects 2 0 5 0xFFFFFC (by decide) h; exact ⟨.owSetres v, rfl, rfl⟩
  | i2cWrite => obtain ⟨v, rfl⟩ := word_of_selects 8 1 2 0xFFFF00 (by decide) h; exact ⟨.i2cWrite v, rfl, rfl⟩
  | i2cRead => obtain ⟨b, rfl⟩ := word_of_selects_bit 1 3 h; exact ⟨.i2cRead b, rfl, rfl⟩
  | i2cSetfreq =>
    obtain ⟨v, rfl⟩ := word_of_selects 24 1 6 0 (by omega) h
    exact ⟨.i2cSetfreq v, by rw [BitVec.setWidth_eq]; rfl, rfl⟩
  | rsSetheater => obtain ⟨b, rfl⟩ := word_of_selects_bit 2 3 h; exact ⟨.rsSetheater b, rfl, rfl⟩
  | rsSetres => obtain ⟨b, rfl⟩ := word_of_selects_bit 2 4 h; exact ⟨.rsSetres b, rfl, rfl⟩
  | rsSetotp => obtain ⟨b, rfl⟩ := word_of_selects_bit 2 5 h; exact ⟨.rsSetotp b, rfl, rfl⟩
  | rsSetscale => obtain ⟨b, rfl⟩ := word_of_selects_bit 2 6 h; exact ⟨.rsSetscale b, rfl, rfl⟩
  | owReset | owRbit | owRbyte | owConvert | owRawtemp | owGettemp | owReadrom
  | i2cStart | i2cStop | i2cWait | i2cReset
  | rsGettemp | rsGethum | rsChkbat | rsUpdate | rsReset | rsConnreset
  | pwSample | pwGet => exact plain rfl (beq_iff_eq.mp h)
  | _ => cases hc

/-- A row selects a word only when the word decodes to a command of that row. -/
theorem exists_decode_of_selects {i : Instr} {w : Word} (h : i.row.selects (.cmd32 w) = true) :
    ∃ j, decode (.cmd32 w) = .ok j ∧ j.row = i.row := by
  obtain ⟨j, he, hj⟩ := exists_encode_of_selects (isCommand_of_selects h) h
  exact ⟨j, he ▸ decodeOfEncode j, hj⟩

/-- Settles O3: what a word decodes to has that word as its code, and its code selects its row. -/
theorem rowsSelectCommands : Obligations.RowsSelectCommands := by
  refine ⟨fun w i hd => ?_, fun w i _ hs => exists_decode_of_selects hs⟩
  have he : encode i = .cmd32 w := encodeOfDecode _ i hd
  exact ⟨isCommand_of_encode he, he ▸ row_selects_encode i⟩

/-- Settles O5: of two rows that select one word, both are the row of what the word decodes to. -/
theorem rowsDisjoint : Obligations.RowsDisjoint := by
  have allOnes : decode (.cmd32 0xFFFFFFFF) = .error .reservedUnit := rfl
  refine ⟨decodeOfEncode .owReset, fun i h => (nomatch allOnes.symm.trans h), fun i j w hi hj => ?_⟩
  obtain ⟨k, hk, hki⟩ := exists_decode_of_selects hi
  obtain ⟨l, hl, hlj⟩ := exists_decode_of_selects hj
  obtain rfl : k = l := Except.ok.inj (hk.symm.trans hl)
  exact hki.symm.trans hlj

end Sys2Proof
end

section
/-! PROOF. The wire constants run on their own (spec 30_encoding.md R120 to R123; log 8, log 9): each is sent by the operation
its rule names, whose law gives the trace. -/

namespace Sys2Proof.Machine

theorem sendOwByte_settled (v : Byte) (s : State) :
    settled (sendOwByte v s) = settled (ran (waveOwWriteByte s.par v) 0 s) :=
  ran_of_wire (owWbyte_settled v (beginWire s))

theorem sendRsByte_settled (v : Byte) (s : State) :
    settled (sendRsByte v s) =
      settled (ran (waveStart s.i2cHalfUs.toNat ++ waveWrite s.i2cHalfUs.toNat v (nextAnswer s)) 1 s) :=
  ran_of_wire (rsCommand_spec v (beginWire s)).2

theorem sendRsFlag_settled (k : Nat) (s : State) :
    settled (sendRsFlag k s) =
      settled (ran (waveWrite s.i2cHalfUs.toNat (flagMask k &&& 0x07) (nextAnswer s)) 1 s) :=
  ran_of_wire (i2cWrite_spec (sentFlags (flagMask k)) (beginWire s)).2

/-- Settles O49: each row's byte is the one its meaning sends. -/
theorem owBytesSent : Obligations.OwBytesSent := by
  have sent {i : Instr} {v : Byte} (he : encode i = .wire8 v) (run : ∀ s, exec i s = .next (sendOwByte v s)) :
      decode (.wire8 v) = .ok i ∧
        ∀ s : State, ∃ t, exec i s = .next t ∧ settled t = settled (ran (waveOwWriteByte s.par v) 0 s) :=
    ⟨he ▸ decodeOfEncode i, fun s => ⟨_, run s, sendOwByte_settled v s⟩⟩
  intro i v h
  simp only [List.mem_cons, Prod.mk.injEq, List.not_mem_nil, or_false] at h
  obtain ⟨rfl, rfl⟩ | ⟨rfl, rfl⟩ | ⟨rfl, rfl⟩ | ⟨rfl, rfl⟩ | ⟨rfl, rfl⟩ | ⟨rfl, rfl⟩ | ⟨rfl, rfl⟩ | ⟨rfl, rfl⟩ |
    ⟨rfl, rfl⟩ := h
  all_goals exact sent rfl fun _ => rfl

/-- Settles O50: each row's byte is the one its meaning sends. -/
theorem rsBytesSent : Obligations.RsBytesSent := by
  have sent {i : Instr} {v : Byte} (he : encode i = .wire8 v) (run : ∀ s, exec i s = .next (sendRsByte v s)) :
      decode (.wire8 v) = .ok i ∧ ∀ s : State, ∃ t, exec i s = .next t ∧ settled t =
        settled (ran (waveStart s.i2cHalfUs.toNat ++ waveWrite s.i2cHalfUs.toNat v (nextAnswer s)) 1 s) :=
    ⟨he ▸ decodeOfEncode i, fun s => ⟨_, run s, sendRsByte_settled v s⟩⟩
  intro i v h
  simp only [List.mem_cons, Prod.mk.injEq, List.not_mem_nil, or_false] at h
  obtain ⟨rfl, rfl⟩ | ⟨rfl, rfl⟩ | ⟨rfl, rfl⟩ | ⟨rfl, rfl⟩ | ⟨rfl, rfl⟩ := h
  all_goals exact sent rfl fun _ => rfl

/-- Settles O51: each row's byte is the mask of the flag its meaning sends. -/
theorem rsFlagsSent : Obligations.RsFlagsSent := by
  have sent {i : Instr} {k : Nat} (he : encode i = .wire8 (flagMask k)) (run : ∀ s, exec i s = .next (sendRsFlag k s)) :
      decode (.wire8 (flagMask k)) = .ok i ∧ ∀ s : State, ∃ t, exec i s = .next t ∧ settled t =
        settled (ran (waveWrite s.i2cHalfUs.toNat (flagMask k &&& 0x07) (nextAnswer s)) 1 s) :=
    ⟨he ▸ decodeOfEncode i, fun s => ⟨_, run s, sendRsFlag_settled k s⟩⟩
  intro i v h
  simp only [List.mem_cons, Prod.mk.injEq, List.not_mem_nil, or_false] at h
  obtain ⟨rfl, rfl⟩ | ⟨rfl, rfl⟩ | ⟨rfl, rfl⟩ | ⟨rfl, rfl⟩ := h
  · exact sent (k := flagRes) rfl fun _ => rfl
  · exact sent (k := flagOtp) rfl fun _ => rfl
  · exact sent (k := flagHeater) rfl fun _ => rfl
  · exact sent (k := flagBattery) rfl fun _ => rfl

end Sys2Proof.Machine
end

section
/-! PROOF. The textual form of a command (spec 30_encoding.md R111): every number has a decimal and a hexadecimal text, and a
line is what the row of its mnemonic makes of the text after it. -/

namespace Sys2Proof.Machine

/-! ### The digits of a number -/

theorem digitOf_digitChar {base d : Nat} (hb : base ≤ 16) (hd : d < base) : digitOf base d.digitChar = some d := by
  have value : ∀ d < 16, d.digitChar.toNat = if d < 10 then 48 + d else 87 + d := by decide
  unfold digitOf
  rw [value d (by omega)]
  grind

theorem digitsFrom_append_singleton (base acc : Nat) (cs : List Char) (c : Char) :
    digitsFrom base acc (cs ++ [c]) =
      (digitsFrom base acc cs).bind fun m => (digitOf base c).map fun d => m * base + d := by
  induction cs generalizing acc with
  | nil =>
    rw [List.nil_append, digitsFrom, digitsFrom]
    cases digitOf base c <;> rfl
  | cons x xs ih =>
    rw [List.cons_append, digitsFrom, digitsFrom]
    cases digitOf base x with
    | none => rfl
    | some d => exact ih _

/-- The digits of a number are read back as the number. -/
theorem digitsFrom_toDigits {base : Nat} (h1 : 1 < base) (h16 : base ≤ 16) (n : Nat) :
    digitsFrom base 0 (Nat.toDigits base n) = some n := by
  induction n using Nat.strong_induction_on with
  | _ n ih =>
    obtain hlt | hge := Nat.lt_or_ge n base
    · simp [Nat.toDigits_of_lt_base hlt, digitsFrom, digitOf_digitChar h16 hlt]
    · rw [Nat.toDigits_of_base_le h1 hge, digitsFrom_append_singleton, ih (n / base) (Nat.div_lt_self (by omega) h1),
        digitOf_digitChar h16 (Nat.mod_lt n (by omega))]
      exact congrArg some (Nat.div_add_mod' n base)

/-- A text of decimal digits alone is no hexadecimal one, for `x` is no digit. -/
theorem numberOf_of_decimal {cs : List Char} {n : Nat} (ne : cs ≠ []) (h : digitsFrom 10 0 cs = some n) :
    numberOf cs = some n := by
  unfold numberOf
  split
  · simp [digitsFrom, digitOf] at h
  · exact h
  · exact absurd rfl ne

theorem numberOf_hexadecimal {cs : List Char} (ne : cs ≠ []) : numberOf ('0' :: 'x' :: cs) = digitsFrom 16 0 cs := by
  cases cs with
  | nil => exact absurd rfl ne
  | cons c cs => rfl

theorem numberOf_toDigits (n : Nat) :
    numberOf (Nat.toDigits 10 n) = some n ∧ numberOf ('0' :: 'x' :: Nat.toDigits 16 n) = some n :=
  ⟨numberOf_of_decimal Nat.toDigits_ne_nil (digitsFrom_toDigits (by decide) (by decide) n),
    (numberOf_hexadecimal Nat.toDigits_ne_nil).trans (digitsFrom_toDigits (by decide) (by decide) n)⟩

/-! ### Lines -/

/-- The mnemonic of a row, as a line can hold it: not empty, without a space and without the start of a comment. -/
def Mnemonic (name : List Char) : Prop := name ≠ [] ∧ ∀ c ∈ name, c ≠ '#' ∧ c ≠ ' '

section lines

variable {name digits : List Char} {n : Nat}

theorem assembleLine_of_operand {width : Nat} {f : Nat → Instr} (hm : Mnemonic name) (h : numberOf digits = some n)
    (row : shapeOf name asmTable = some (.operand width f)) :
    assembleLine (name ++ ' ' :: digits) = if n < 2 ^ width then .ok (some (f n)) else .error .operandTooWide := by
  rw [assembleLine_operand h hm.1 hm.2 row, shapeInstr, h]
  dsimp only
  split <;> rfl

theorem assembleLine_unexpected {i : Instr} (hm : Mnemonic name) (h : numberOf digits = some n)
    (row : shapeOf name asmTable = some (.plain i)) :
    assembleLine (name ++ ' ' :: digits) = .error .operandUnexpected :=
  assembleLine_operand h hm.1 hm.2 row

end lines

theorem splitSpace_self {cs : List Char} (h : ∀ c ∈ cs, c ≠ ' ') : splitSpace cs = (cs, none) := by
  induction cs with
  | nil => rfl
  | cons c cs ih =>
    rw [splitSpace, ih fun x hx => h x (List.mem_cons_of_mem c hx)]
    exact h c List.mem_cons_self

theorem assembleLine_plain {name : List Char} {i : Instr} (hm : Mnemonic name)
    (row : shapeOf name asmTable = some (.plain i)) : assembleLine name = .ok (some i) := by
  obtain ⟨ne, plain⟩ := hm
  have text : lineText name = name := lineText_self ne (fun c hc => (plain c hc).1) (plain _ (List.getLast_mem ne)).2
  have parts := splitSpace_self fun c hc => (plain c hc).2
  obtain ⟨c, cs, rfl⟩ := List.exists_cons_of_ne_nil ne
  unfold assembleLine
  rw [text]
  simp only [parts, row, shapeInstr]

/-! ### The rows by name -/

/-- Every mnemonic of the table can stand in a line. -/
theorem mnemonic_of_mem {name : String} {shape : AsmShape} (h : (name, shape) ∈ asmTable) : Mnemonic name.toList := by
  have all : asmTable.all (fun row => !row.1.toList.isEmpty && row.1.toList.all fun c => c != '#' && c != ' ') = true := rfl
  simpa [Mnemonic] using List.all_eq_true.mp all _ h

/-- A table without a repeated name gives each row by its name. -/
theorem shapeOf_of_mem {table : List (String × AsmShape)} (distinct : (table.map fun row => row.1.toList).Nodup)
    {name : String} {shape : AsmShape} (h : (name, shape) ∈ table) : shapeOf name.toList table = some shape := by
  induction table with
  | nil => cases h
  | cons row rest ih =>
    obtain ⟨first, rest_distinct⟩ := List.nodup_cons.mp distinct
    rw [shapeOf]
    obtain rfl | hrest := List.mem_cons.mp h
    · exact if_pos rfl
    · have ne : row.1.toList ≠ name.toList := fun e => first (List.mem_map.mpr ⟨_, hrest, e.symm⟩)
      rw [if_neg ne, ih rest_distinct hrest]

theorem shapeOf_asmTable {name : String} {shape : AsmShape} (h : (name, shape) ∈ asmTable) :
    shapeOf name.toList asmTable = some shape :=
  shapeOf_of_mem (by decide) h

/-- Settles O7: each mnemonic is a row of the table, whose shape decides what the line is. -/
theorem assemblerLines : Obligations.AssemblerLines := by
  refine ⟨fun name width f digits n hrow h => ?_, fun name i digits n hrow => ?_, numberOf_toDigits⟩
  · have mem : (name, AsmShape.operand width f) ∈ asmTable := by simpa [asmTable] using hrow
    exact assembleLine_of_operand (mnemonic_of_mem mem) h (shapeOf_asmTable mem)
  · have mem : (name, AsmShape.plain i) ∈ asmTable := by simpa [asmTable] using hrow
    exact ⟨assembleLine_plain (mnemonic_of_mem mem) (shapeOf_asmTable mem),
      fun h => assembleLine_unexpected (mnemonic_of_mem mem) h (shapeOf_asmTable mem)⟩

end Sys2Proof.Machine
end

section
/-! PROOF. How a command may end (spec 30_encoding.md R110, 60_exceptions.md R355): every response a command gives carries a
status the table lists for it, and `POLL_TIMEOUT` comes from the limit of its own loop. -/

namespace Sys2Proof.Machine

/-- The table lists the status `st` for the command `i` under the parameters `p` (R110, R355). -/
def Listed (i : Instr) (p : Params) (st : Status) : Prop :=
  (st = .ok ∨ st ∈ failuresOf i) ∧ (st = .pollTimeout → pollLimitOf i.unit p ≠ none) ∧
    (st = .illegal ↔ i = .i2cSetfreq 0)

theorem Listed.ok {i : Instr} {p : Params} (hi : i ≠ .i2cSetfreq 0 := by nofun) : Listed i p .ok :=
  ⟨.inl rfl, nofun, iff_of_false nofun hi⟩

/-- A failure that no limit of a loop causes. -/
theorem Listed.failure {i : Instr} {p : Params} {st : Status}
    (h : st ∈ failuresOf i := by simp [failuresOf, ConvUser.instr, guardedInstr])
    (hp : st ≠ .pollTimeout := by nofun) (hs : st ≠ .illegal := by nofun) (hi : i ≠ .i2cSetfreq 0 := by nofun) :
    Listed i p st :=
  ⟨.inr h, fun e => absurd e hp, iff_of_false hs hi⟩

theorem Listed.pollTimeout {i : Instr} {p : Params} (hl : pollLimitOf i.unit p ≠ none)
    (h : .pollTimeout ∈ failuresOf i := by simp [failuresOf, ConvUser.instr, guardedInstr])
    (hi : i ≠ .i2cSetfreq 0 := by nofun) : Listed i p .pollTimeout :=
  ⟨.inr h, fun _ => hl, iff_of_false nofun hi⟩

theorem endsAsListed_respond {i : Instr} {p : Params} {st : Status} {data : BitVec 64} {u : State} (h : Listed i p st) :
    endsAsListed i p (respond st data u) := fun _ => h

theorem endsAsListed_of_busy {i : Instr} {p : Params} {t : State} (h : t.busy = true) : endsAsListed i p t :=
  fun hb => absurd (h.symm.trans hb) nofun

theorem endsAsListed_ite {i : Instr} {p : Params} {c : Prop} [Decidable c] {t u : State} (ht : endsAsListed i p t)
    (hu : endsAsListed i p u) : endsAsListed i p (if c then t else u) := by
  split
  · exact ht
  · exact hu

/-! ### Unit OW -/

theorem afterConvert_endsAsListed (u : ConvUser) {p : Params} {st : Status} (h : Listed u.instr p st) (s : State) :
    endsAsListed u.instr p (afterConvert u st s) := by
  have rawtemp {i : Instr} (hok : Listed i p .ok) (hn : Listed i p .noPresence) (h : Listed i p st) :
      endsAsListed i p (owRawtempEnd st s) :=
    endsAsListed_ite (endsAsListed_respond h) (endsAsListed_ite (endsAsListed_respond hn) (endsAsListed_respond hok))
  cases u with
  | convert =>
    cases st with
    | noPresence => exact endsAsListed_respond h
    | pollTimeout => exact endsAsListed_respond h
    | ok | noAck | waitTimeout | checksum | illegal => exact endsAsListed_respond .ok
  | rawtemp => exact rawtemp .ok .failure h
  | gettemp => exact rawtemp .ok .failure h

/-- The conversion poll ends at its limit only where `OW_CONV_POLL_LIMIT` is finite, and a wait is no end (R17, R193). -/
theorem owConvertPoll_endsAsListed (u : ConvUser) {s : State} (hb : s.busy = true) :
    endsAsListed u.instr s.par (owConvertPoll u s) := by
  have hbusy : (poll owRbit s.par.owConvPollLimit s).2.busy = s.busy :=
    (congrArg State.busy (kept_poll kept_owRbit s.par.owConvPollLimit s) :)
  have hlimit := (poll_result owRbit s.par.owConvPollLimit s).2
  unfold owConvertPoll
  dsimp only
  split
  · refine afterConvert_endsAsListed u ?_ _
    cases u <;> exact .ok
  · obtain ⟨n, hn⟩ := hlimit ‹_›
    have finite : s.par.owConvPollLimit ≠ none := by simp [hn]
    refine afterConvert_endsAsListed u ?_ _
    cases u <;> exact .pollTimeout finite
  · exact endsAsListed_of_busy (hbusy.trans hb)

theorem owConvert_endsAsListed (u : ConvUser) {s : State} (hb : s.busy = true) :
    endsAsListed u.instr s.par (owConvert u s) := by
  have reset := kept_owReset s
  have sent : kept (owWbyte Config.owConvert (owWbyte Config.owSkipRom (owReset s).2)) = kept s :=
    (kept_owWbyte _ _).trans ((kept_owWbyte _ _).trans reset)
  have hpar := (congrArg State.par sent :)
  refine endsAsListed_ite (afterConvert_endsAsListed u ?_ _) (hpar ▸ owConvertPoll_endsAsListed u ?_)
  · cases u <;> exact .failure
  · exact (congrArg State.busy sent :).trans hb

/-! ### Unit RS -/

/-- A measurement read reports success, a refused command byte, or an expired wait (R273). -/
theorem rsReadMeasurement_status (cmd : Byte) (store : BitVec 16 → State → State) (s : State) :
    (rsReadMeasurement cmd store s).1 ∈ [Status.ok, .noAck, .waitTimeout] := by
  unfold rsReadMeasurement
  dsimp only
  split
  · split <;> simp
  · simp

theorem rsReadStatus_status (s : State) : (rsReadStatus s).1 ∈ [Status.ok, .noAck] := by
  unfold rsReadStatus
  dsimp only
  split <;> simp

theorem rsWritereg_status (s : State) : (rsWritereg s).1 ∈ [Status.ok, .noAck] := by
  unfold rsWritereg
  dsimp only
  split
  · split <;> simp
  · simp

theorem rsUpdateBody_endsAsListed (p : Params) (s : State) : endsAsListed .rsUpdate p (rsUpdateBody s) := by
  refine endsAsListed_respond ?_
  have status : (if (rsReadTemp s).1 = .ok then rsReadHum (rsReadTemp s).2 else rsReadTemp s).1 ∈
      [Status.ok, .noAck, .waitTimeout] := by
    split
    · exact rsReadMeasurement_status _ _ _
    · exact rsReadMeasurement_status _ _ _
  simp only [List.mem_cons, List.not_mem_nil, or_false] at status
  obtain h | h | h := status <;> rw [h]
  · exact .ok
  · exact .failure
  · exact .failure

/-- The body of a guarded command reports success or what its transaction reports (R278 to R283, R287). -/
theorem guardedBody_endsAsListed (g : Guarded) (p : Params) (s : State) :
    endsAsListed (guardedInstr g) p (guardedBody g s) := by
  have listed {i : Instr} {st : Status} (h : st ∈ [Status.ok, .noAck]) (hok : Listed i p .ok) (hn : Listed i p .noAck) :
      Listed i p st := by
    simp only [List.mem_cons, List.not_mem_nil, or_false] at h
    obtain rfl | rfl := h
    · exact hok
    · exact hn
  cases g with
  | update => exact rsUpdateBody_endsAsListed p s
  | reset => exact endsAsListed_ite (endsAsListed_respond .ok) (endsAsListed_respond .failure)
  | chkbat => exact endsAsListed_respond (listed (rsReadStatus_status _) .ok .failure)
  | setheater b => exact endsAsListed_respond (listed (rsWritereg_status _) .ok .failure)
  | setres b => exact endsAsListed_respond (listed (rsWritereg_status _) .ok .failure)
  | setotp b => exact endsAsListed_respond (listed (rsWritereg_status _) .ok .failure)
  | connreset => exact endsAsListed_respond .ok

/-- The spin ends at its limit only where `RS_SPIN_LIMIT` is finite (R272). -/
theorem rsGuarded_endsAsListed (g : Guarded) {s : State} (hb : s.busy = true) :
    endsAsListed (guardedInstr g) s.par (rsGuarded g s) := by
  have hlimit := (poll_result (fun t => (t.rsReady, t)) s.par.rsSpinLimit s).2
  unfold rsGuarded
  dsimp only
  rw [rsAcquire_state]
  split
  · exact guardedBody_endsAsListed g s.par _
  · obtain ⟨n, hn⟩ := hlimit ‹_›
    have finite : s.par.rsSpinLimit ≠ none := by simp [hn]
    refine endsAsListed_respond ?_
    cases g <;> exact .pollTimeout finite
  · exact endsAsListed_of_busy hb

/-! ### Unit PW -/

theorem PwLeaves.par_eq {s : State} {q : Poll × State} (h : PwLeaves s q) : q.2.par = s.par := by
  obtain ⟨-, -, pos, -, k⟩ | ⟨-, k⟩ := h
  · exact (congrArg State.par k :)
  · exact (congrArg State.par k :)

/-- A bit that waits belongs to a command that is still busy. -/
theorem PwLeaves.busy_eq {s : State} {q : Poll × State} (h : PwLeaves s q) : q.2.busy = s.busy := by
  obtain ⟨-, -, pos, -, k⟩ | ⟨-, k⟩ := h
  · exact (congrArg State.busy k :)
  · exact (congrArg State.busy k :)

theorem pwPoll_finite {v : Bool} {s : State} (h : (poll (pwWaitTurn v) s.par.pwPollLimit s).1 = .limit) :
    s.par.pwPollLimit ≠ none := by
  obtain ⟨n, hn⟩ := (poll_result _ _ _).2 h
  simp [hn]

theorem pwHighPhase_finite {s : State} (h : (pwHighPhase s).1 = .limit) : s.par.pwPollLimit ≠ none := by
  unfold pwHighPhase at h
  dsimp only at h
  split at h
  · cases h
  · exact pwPoll_finite ‹_›
  · cases h

theorem pwBit_finite {s : State} (h : (pwBit s).1 = .limit) : s.par.pwPollLimit ≠ none := by
  have hpar : (poll (pwWaitTurn true) s.par.pwPollLimit s).2.par = s.par :=
    (congrArg State.par (kept_poll (kept_pwWaitTurn true) s.par.pwPollLimit s) :)
  unfold pwBit at h
  dsimp only at h
  split at h
  · exact hpar ▸ pwHighPhase_finite h
  · exact pwPoll_finite ‹_›
  · cases h

theorem pwBits_finite (n : Nat) {s : State} (h : (pwBits n s).1 = .limit) : s.par.pwPollLimit ≠ none := by
  induction n generalizing s with
  | zero => cases h
  | succ n ih =>
    rw [pwBits] at h
    split at h
    · exact (pwBit_leaves s).par_eq ▸ ih h
    · exact pwBit_finite h
    · exact pwBit_finite h

/-- The bits after the one a waiting command was in meet the limit only where that bit or one of them does. -/
theorem pwRest_finite {s : State} {q : Poll × State} (hpar : q.2.par = s.par)
    (hq : q.1 = .limit → s.par.pwPollLimit ≠ none) (h : (pwRest q).1 = .limit) : s.par.pwPollLimit ≠ none := by
  unfold pwRest at h
  split at h
  · exact hpar ▸ pwBits_finite _ h
  · exact hq h
  · exact hq h

/-- The end of `PW.SAMPLE` (R323), where its bits meet a limit only if `PW_POLL_LIMIT` is finite. -/
theorem pwFinish_endsAsListed {p : Params} {q : Poll × State} (hb : q.2.busy = true)
    (hq : q.1 = .limit → p.pwPollLimit ≠ none) : endsAsListed .pwSample p (pwFinish q) := by
  unfold pwFinish
  split
  · exact endsAsListed_ite (endsAsListed_respond .ok) (endsAsListed_respond .failure)
  · exact endsAsListed_respond (.pollTimeout (hq ‹_›))
  · exact endsAsListed_of_busy hb

theorem pwSample_endsAsListed {s : State} (hb : s.busy = true) : endsAsListed .pwSample s.par (pwSample s) := by
  unfold pwSample
  generalize hu : ({ performAll (pwStartOps s.par) s with pwFrame := 0, pwBitcnt := 0 } : State) = u
  have hbusy : u.busy = s.busy := by simp [← hu]
  have hpar : u.par = s.par := by simp [← hu]
  exact pwFinish_endsAsListed ((pwBits_leaves _ u).busy_eq.trans (hbusy.trans hb)) (hpar ▸ pwBits_finite _)

/-! ### Every command -/

theorem i2cSetfreq_endsAsListed (hz : BitVec 24) (p : Params) (s : State) :
    ∃ t, exec (.i2cSetfreq hz) s = .next t ∧ endsAsListed (.i2cSetfreq hz) p t := by
  by_cases h : hz = 0
  · subst h
    exact ⟨_, exec_i2cSetfreq_zero s, endsAsListed_respond ⟨.inr (by simp [failuresOf]), nofun, iff_of_true rfl rfl⟩⟩
  · exact ⟨_, exec_i2cSetfreq_of_ne_zero h s, endsAsListed_respond (.ok fun e => h (Instr.i2cSetfreq.inj e))⟩

theorem exec_endsAsListed (i : Instr) (s : State) (h : i.isCommand = true) :
    ∃ t, exec i s = .next t ∧ endsAsListed i s.par t := by
  have hb : (accept s).busy = true := rfl
  cases i with
  | owReset => exact ⟨_, rfl, endsAsListed_ite (endsAsListed_respond .failure) (endsAsListed_respond .ok)⟩
  | owSetres res => exact ⟨_, rfl, endsAsListed_ite (endsAsListed_respond .failure) (endsAsListed_respond .ok)⟩
  | owReadrom => exact ⟨_, rfl, endsAsListed_ite (endsAsListed_respond .failure) (endsAsListed_respond .ok)⟩
  | i2cWrite v => exact ⟨_, rfl, endsAsListed_ite (endsAsListed_respond .ok) (endsAsListed_respond .failure)⟩
  | i2cWait => exact ⟨_, rfl, endsAsListed_ite (endsAsListed_respond .ok) (endsAsListed_respond .failure)⟩
  | i2cSetfreq hz => exact i2cSetfreq_endsAsListed hz s.par s
  | owConvert => exact ⟨_, rfl, owConvert_endsAsListed .convert hb⟩
  | owRawtemp => exact ⟨_, rfl, owConvert_endsAsListed .rawtemp hb⟩
  | owGettemp => exact ⟨_, rfl, owConvert_endsAsListed .gettemp hb⟩
  | rsChkbat => exact ⟨_, rfl, rsGuarded_endsAsListed .chkbat hb⟩
  | rsSetheater b => exact ⟨_, rfl, rsGuarded_endsAsListed (.setheater b) hb⟩
  | rsSetres b => exact ⟨_, rfl, rsGuarded_endsAsListed (.setres b) hb⟩
  | rsSetotp b => exact ⟨_, rfl, rsGuarded_endsAsListed (.setotp b) hb⟩
  | rsUpdate => exact ⟨_, rfl, rsGuarded_endsAsListed .update hb⟩
  | rsReset => exact ⟨_, rfl, rsGuarded_endsAsListed .reset hb⟩
  | rsConnreset => exact ⟨_, rfl, rsGuarded_endsAsListed .connreset hb⟩
  | pwSample => exact ⟨_, rfl, pwSample_endsAsListed hb⟩
  | owWbit | owRbit | owWbyte | owRbyte | i2cStart | i2cStop | i2cRead | i2cReset
  | rsGettemp | rsGethum | rsSetscale | pwGet => exact ⟨_, rfl, endsAsListed_respond .ok⟩
  | _ => cases h

theorem resume_endsAsListed {pos : Seq} {i : Instr} {s : State} (hb : s.busy = true) (h : pos.command = some i) :
    ∃ t, resume pos s = .next t ∧ endsAsListed i s.par t := by
  cases pos with
  | idle => cases h
  | convPoll u =>
    obtain rfl : u.instr = i := Option.some.inj ((command_convPoll u).symm.trans h)
    exact ⟨_, rfl, owConvertPoll_endsAsListed u hb⟩
  | pwLow =>
    cases h
    have bit := pwBit_leaves s
    exact ⟨_, rfl, pwFinish_endsAsListed ((pwRest_leaves bit).busy_eq.trans hb) (pwRest_finite bit.par_eq pwBit_finite)⟩
  | pwHigh =>
    cases h
    have bit := pwHighPhase_leaves s
    exact ⟨_, rfl, pwFinish_endsAsListed ((pwRest_leaves bit).busy_eq.trans hb)
      (pwRest_finite bit.par_eq pwHighPhase_finite)⟩
  | rsSpin g =>
    cases h
    exact ⟨_, rfl, rsGuarded_endsAsListed g hb⟩

/-- Settles O12: the codes are the definition's own; a command that starts by `exec_endsAsListed`, one that goes on by
`resume_endsAsListed`. -/
theorem statusTable : Obligations.StatusTable := by
  refine ⟨rfl, rfl, rfl, rfl, rfl, rfl, rfl, fun i s hc => exec_endsAsListed i s hc, fun i s hr hb hi => ?_⟩
  obtain ⟨t, he, h⟩ := resume_endsAsListed hb hi
  exact ⟨t, (step_of_busy hr hb).trans he, h⟩

end Sys2Proof.Machine
end

section
/-! PROOF. `OW.READROM` spelled out (spec 30_encoding.md R113): what it and the commands it is spelled with do to the lines,
the time and the oracle, and what the host sees of commands issued one after the other. -/

namespace Sys2Proof.Machine

/-! ### Commands one after the other -/

/-- From `s` to `t` the block has performed `ops` and taken `n` answers; other fields than these may differ. -/
structure Performed (ops : List MicroOp) (n : Nat) (s t : State) : Prop where
  pins : t.pins = pinsAfter ops s.pins
  time : t.time = s.time + usOf ops
  script : t.script = (takeAnswers n s).script
  freeCount : t.freeCount = (takeAnswers n s).freeCount
  par : t.par = s.par

namespace Performed

variable {xs ys : List MicroOp} {m n : Nat} {s t u : State}

theorem refl (s : State) : Performed [] 0 s s := ⟨rfl, rfl, rfl, rfl, rfl⟩

theorem trans (h : Performed xs m s t) (k : Performed ys n t u) : Performed (xs ++ ys) (m + n) s u := by
  obtain ⟨script, freeCount⟩ := takeAnswers_oracle n h.script h.freeCount
  refine ⟨?_, ?_, ?_, ?_, k.par.trans h.par⟩
  · rw [k.pins, h.pins, pinsAfter_append]
  · rw [k.time, h.time, usOf_append, Nat.add_assoc]
  · rw [k.script, script, takeAnswers_add]
  · rw [k.freeCount, freeCount, takeAnswers_add]

theorem answers_eq (h : Performed xs m s t) (n : Nat) : answers n t = answers n (takeAnswers m s) :=
  answers_oracle n h.script h.freeCount

/-- The answers a later command gets, some having been taken in between. -/
theorem later_answers_eq (h : Performed xs m s t) (k n : Nat) :
    answers n (takeAnswers k t) = answers n (takeAnswers (m + k) s) := by
  obtain ⟨script, freeCount⟩ := takeAnswers_oracle k h.script h.freeCount
  rw [takeAnswers_add]
  exact answers_oracle n script freeCount

/-- The law of a command gives what it has performed. -/
theorem of_command {st : Status} {data : BitVec 64} (h : settled t = settled (answered st data (ran xs n s))) :
    Performed xs n s t := by
  refine ⟨(congrArg State.pins h :).trans ?_, (congrArg State.time h :).trans ?_, (congrArg State.script h :),
    (congrArg State.freeCount h :), (congrArg State.par h :).trans ?_⟩ <;> simp [ran, answered]

end Performed

theorem trace_of_command {s t : State} {st : Status} {data : BitVec 64} {ops : List MicroOp} {n : Nat}
    (h : settled t = settled (answered st data (ran ops n s))) : t.trace = ops :=
  (congrArg State.trace h :)

/-- The commands `is`, issued in `s`, perform `ops` and take `n` answers, and `ops` are their traces joined. -/
def Issued (is : List Instr) (s : State) (ops : List MicroOp) (n : Nat) : Prop :=
  (runTrace is s).1 = ops ∧ Performed ops n s (runTrace is s).2

theorem runTrace_cons {i : Instr} {s u : State} (he : exec i s = .next u) (is : List Instr) :
    runTrace (i :: is) s = (u.trace ++ (runTrace is u).1, (runTrace is u).2) := by
  rw [runTrace, he]

theorem Issued.cons {i : Instr} {is : List Instr} {s u : State} {st : Status} {data : BitVec 64} {xs ys : List MicroOp}
    {m n : Nat} (he : exec i s = .next u) (hu : settled u = settled (answered st data (ran xs m s)))
    (h : Issued is u ys n) : Issued (i :: is) s (xs ++ ys) (m + n) := by
  obtain ⟨htrace, hrun⟩ := h
  rw [Issued, runTrace_cons he, trace_of_command hu, htrace]
  exact ⟨rfl, (Performed.of_command hu).trans hrun⟩

/-! ### The laws of the commands -/

theorem exec_owReset_of_present {s : State} (h : nextAnswer s = false) :
    ∃ t, exec .owReset s = .next t ∧ settled t = settled (answered .ok 0 (ran (waveOwReset s.par false) 1 s)) := by
  have run : exec .owReset s = .next (respond .ok 0 (after (waveOwReset s.par false) (takeAnswer (accept s)))) := by
    simp [exec, execOwReset, owReset_eq, h, ret_eq, bit64]
  refine ⟨_, run, respond_of_body _ _ ?_⟩
  rw [settled_after, settled_takeAnswer]
  rfl

theorem exec_owWbyte (v : Byte) (s : State) :
    ∃ t, exec (.owWbyte v) s = .next t ∧ settled t = settled (answered .ok 0 (ran (waveOwWriteByte s.par v) 0 s)) :=
  ⟨_, rfl, respond_of_body _ _ (owWbyte_settled v (accept s))⟩

theorem exec_owRbyte (s : State) :
    ∃ t, exec .owRbyte s = .next t ∧ settled t = settled (answered .ok (zext64 (BitVec.ofNat 8 (lsbValue (answers 8 s))))
      (ran (waveOwReadBits s.par (answers 8 s)) 8 s)) := by
  refine ⟨_, rfl, ?_⟩
  rw [← answers_accept, ← owRbyte_value]
  exact respond_of_body _ _ (owRbyte_settled (accept s))

theorem waveOwReadBits_append (p : Params) (xs ys : List Bool) :
    waveOwReadBits p (xs ++ ys) = waveOwReadBits p xs ++ waveOwReadBits p ys := List.flatMap_append

/-- Bytes read one after the other: each gets the answers after those of the one before. -/
theorem issued_owRbytes (n : Nat) (s : State) :
    Issued (List.replicate n .owRbyte) s (waveOwReadBits s.par (answers (8 * n) s)) (8 * n) := by
  induction n generalizing s with
  | zero => exact ⟨rfl, .refl s⟩
  | succ n ih =>
    obtain ⟨u, he, hu⟩ := exec_owRbyte s
    have first := Performed.of_command hu
    have rest := ih u
    rw [first.par, first.answers_eq] at rest
    rw [show 8 * (n + 1) = 8 + 8 * n by omega, answers_add, waveOwReadBits_append]
    exact Issued.cons he hu rest

theorem rspData_owRbytes (n : Nat) (s : State) :
    (runTrace (List.replicate (n + 1) .owRbyte) s).2.rspData =
      zext64 (BitVec.ofNat 8 (lsbValue (answers 8 (takeAnswers (8 * n) s)))) := by
  induction n generalizing s with
  | zero =>
    obtain ⟨u, he, hu⟩ := exec_owRbyte s
    have last : (runTrace (List.replicate 1 .owRbyte) s).2 = u := congrArg Prod.snd (runTrace_cons he [])
    rw [last]
    exact (congrArg State.rspData hu :)
  | succ n ih =>
    obtain ⟨u, he, hu⟩ := exec_owRbyte s
    rw [List.replicate_succ, runTrace_cons he, ih, (Performed.of_command hu).later_answers_eq,
      show 8 + 8 * n = 8 * (n + 1) by omega]

/-! ### The ROM bytes (R202) -/

@[simp] theorem owRbyte_par (s : State) : (owRbyte s).2.par = s.par := by
  simpa using congrArg State.par (owRbyte_settled s)

theorem owRbyte_answers (n : Nat) (s : State) : answers n (owRbyte s).2 = answers n (takeAnswers 8 s) := by
  rw [← answers_settled, owRbyte_settled, answers_after, ← settled_takeAnswers, answers_settled]

/-- The ROM bytes on the line: eight read slots each, and nothing else persistent. -/
theorem owReadRomBytes_settled (ks : List Nat) (d : BitVec 64) (s : State) :
    settled (owReadRomBytes ks d s).2 =
      after (waveOwReadBits s.par (answers (8 * ks.length) s)) (takeAnswers (8 * ks.length) (settled s)) := by
  induction ks generalizing d s with
  | nil => exact (after_nil (settled s)).symm
  | cons k ks ih =>
    rw [owReadRomBytes, ih, owRbyte_par, owRbyte_answers, owRbyte_settled, takeAnswers_after, after_after,
      ← takeAnswers_add, ← waveOwReadBits_append, ← answers_add, List.length_cons,
      show 8 + 8 * ks.length = 8 * (ks.length + 1) by omega]

theorem owReadRomBytes_concat (ks : List Nat) (k : Nat) (d : BitVec 64) (s : State) :
    owReadRomBytes (ks ++ [k]) d s =
      (packByte (owReadRomBytes ks d s).1 k (owRbyte (owReadRomBytes ks d s).2).1,
        (owRbyte (owReadRomBytes ks d s).2).2) := by
  induction ks generalizing d s with
  | nil => rfl
  | cons j ks ih => exact ih _ _

/-- A byte below the top one does not reach the top eight bits (R79). -/
theorem packByte_top_of_lt (d : BitVec 64) {k : Nat} (v : Byte) (h : k < 7) : packByte d k v >>> 56 = d >>> 56 := by
  apply BitVec.eq_of_getLsbD_eq
  intro i hi
  have out : v.getLsbD (56 + i - 8 * k) = false := BitVec.getLsbD_of_ge v _ (by omega)
  simp [packByte, zext64, out]

theorem packByte_top (d : BitVec 64) (v : Byte) (h : d >>> 56 = 0) : packByte d 7 v >>> 56 = zext64 v := by
  rw [packByte, BitVec.ushiftRight_or_distrib, h]
  apply BitVec.eq_of_getLsbD_eq
  intro i hi
  by_cases hv : i < 8
  · simp [zext64, hv]; omega
  · simp [zext64, BitVec.getLsbD_of_ge v i (by omega)]

theorem owReadRomBytes_top (ks : List Nat) (h : ∀ k ∈ ks, k < 7) (d : BitVec 64) (s : State) :
    (owReadRomBytes ks d s).1 >>> 56 = d >>> 56 := by
  induction ks generalizing d s with
  | nil => rfl
  | cons k ks ih =>
    obtain ⟨hk, hks⟩ := List.forall_mem_cons.mp h
    exact (ih hks _ _).trans (packByte_top_of_lt d _ hk)

/-- The top byte of the eight is the one read last. -/
theorem owReadRom_topByte (s : State) :
    (owReadRomBytes [0, 1, 2, 3, 4, 5, 6, 7] 0 s).1 >>> 56 =
      zext64 (BitVec.ofNat 8 (lsbValue (answers 8 (takeAnswers 56 s)))) := by
  rw [show [0, 1, 2, 3, 4, 5, 6, 7] = [0, 1, 2, 3, 4, 5, 6] ++ [7] from rfl, owReadRomBytes_concat,
    packByte_top _ _ (owReadRomBytes_top _ (by decide) 0 s), owRbyte_value, ← answers_settled, owReadRomBytes_settled,
    answers_after, ← settled_takeAnswers, answers_settled]
  rfl

/-- `OW.READROM` with a device present: reset, command byte, sixty-four read slots (R202). -/
theorem exec_owReadrom_of_present {s : State} (h : nextAnswer s = false) :
    ∃ t, exec .owReadrom s = .next t ∧
      t.rspData >>> 56 = zext64 (BitVec.ofNat 8 (lsbValue (answers 8 (takeAnswers 57 s)))) ∧
      ∃ data, settled t = settled (answered .ok data (ran (waveOwReset s.par false ++ (waveOwWriteByte s.par 0x33 ++
        waveOwReadBits s.par (answers 64 (takeAnswers 1 s)))) 65 s)) := by
  generalize hu : owWbyte Config.owReadRom (after (waveOwReset s.par false) (takeAnswer (accept s))) = u
  have run : exec .owReadrom s = .next (respond .ok (owReadRomBytes [0, 1, 2, 3, 4, 5, 6, 7] 0 u).1
      (owReadRomBytes [0, 1, 2, 3, 4, 5, 6, 7] 0 u).2) := by
    simp [exec, execOwReadrom, owReset_eq, h, ret_eq, hu]
  have hpar : u.par = s.par := by simp [← hu]
  have script : u.script = (takeAnswer s).script := by simp [← hu, takeAnswer_accept]
  have freeCount : u.freeCount = (takeAnswer s).freeCount := by simp [← hu, takeAnswer_accept]
  have sent : settled u =
      after (waveOwReset s.par false ++ waveOwWriteByte s.par 0x33) (takeAnswer (accept (settled s))) := by
    rw [← hu, owWbyte_settled, settled_after, settled_takeAnswer, after_after]
    simp [settled_accept, Config.owReadRom]
  refine ⟨_, run, ?_, _, respond_of_body _ _ ?_⟩
  · obtain ⟨later_script, later_freeCount⟩ := takeAnswers_oracle 56 script freeCount
    rw [respond_rspData, owReadRom_topByte, answers_oracle 8 later_script later_freeCount]
    rfl
  · rw [owReadRomBytes_settled, sent, takeAnswers_after, after_after, hpar, answers_oracle _ script freeCount,
      List.append_assoc]
    rfl

/-- Settles O28: both ways perform the same micro-operations on the same answers, and the last byte read is the top one. -/
theorem readromSpelledOut : Obligations.ReadromSpelledOut := by
  intro s h
  obtain ⟨t, he, hdata, data, ht⟩ := exec_owReadrom_of_present h
  obtain ⟨u, hu, hreset⟩ := exec_owReset_of_present h
  obtain ⟨v, hv, hwbyte⟩ := exec_owWbyte 0x33 u
  have sent := (Performed.of_command hreset).trans (Performed.of_command hwbyte)
  have spelled := Issued.cons hu hreset (Issued.cons hv hwbyte (issued_owRbytes 8 v))
  rw [sent.par, sent.answers_eq, (Performed.of_command hreset).par] at spelled
  simp only [Nat.reduceAdd, Nat.reduceMul] at spelled
  obtain ⟨htrace, run⟩ := spelled
  have whole := Performed.of_command ht
  refine ⟨t, he, (trace_of_command ht).trans htrace.symm, whole.pins.trans run.pins.symm, whole.time.trans run.time.symm,
    whole.script.trans run.script.symm, whole.freeCount.trans run.freeCount.symm, ?_⟩
  have last : (runTrace (.owReset :: .owWbyte 0x33 :: List.replicate (7 + 1) .owRbyte) s).2.rspData =
      zext64 (BitVec.ofNat 8 (lsbValue (answers 8 (takeAnswers (1 + 0 + 8 * 7) s)))) := by
    rw [runTrace_cons hu, runTrace_cons hv, rspData_owRbytes, sent.later_answers_eq]
  simp only [Nat.reduceAdd, Nat.reduceMul] at last
  exact last.trans hdata.symm

end Sys2Proof.Machine
end

section
/-! PROOF. `OW.RESET` (spec 40_ow_reset.md R142, R143): one pulse, one sample, and a response that says what the sample
answered. -/

namespace Sys2Proof.Machine

/-- R143: "`RSP_DATA[0]` is the sampled level in both cases", and the status says which. -/
theorem exec_owReset (s : State) :
    exec .owReset s = .next (respond (if nextAnswer s then .noPresence else .ok) (if nextAnswer s then 1 else 0)
      (after (waveOwReset s.par (nextAnswer s)) (takeAnswer (accept s)))) := by
  rw [exec, execOwReset, owReset_eq, nextAnswer_accept, accept_par]
  cases nextAnswer s with
  | false => rfl
  | true => rfl

theorem owReset_body (s : State) (r : Bool) :
    settled (after (waveOwReset s.par r) (takeAnswer (accept s))) =
      after (waveOwReset s.par r) (takeAnswers 1 (accept (settled s))) := by
  rw [settled_after, settled_takeAnswer, settled_accept]; rfl

theorem usOf_waveOwReset (p : Params) (r : Bool) : usOf (waveOwReset p r) = p.owTH + p.owTI := by
  simp [waveOwReset, usOf, MicroOp.us]

/-- The line is left released with its latch at 0, whatever the sample answers (R147). -/
theorem pinsAfter_waveOwReset (p : Params) (r : Bool) (pins : Pins) :
    (pinsAfter (waveOwReset p r) pins).owdq = releasedLow := rfl

/-- Settles O16: the response by `exec_owReset`, line and time by what the five micro-operations do to them. -/
theorem owResetResult : Obligations.OwResetResult := by
  refine ⟨decodeOfEncode .owReset, fun s => ?_⟩
  have law := respond_of_body (if nextAnswer s then .noPresence else .ok) (if nextAnswer s then 1 else 0)
    (owReset_body s (nextAnswer s))
  have run := Performed.of_command law
  refine ⟨_, exec_owReset s, law, ?line, ?time⟩
  case line => rw [run.pins, pinsAfter_waveOwReset]; rfl
  case time => rw [run.time, usOf_waveOwReset, Nat.add_assoc]

end Sys2Proof.Machine
end

section
/-! SUPPORT. The operand of a command word as R103 writes it, `match | operand` (spec 30_encoding.md R100, R103), and the
number of a bit sequence, least significant bit first (20_memory.md R72). -/

namespace Sys2Proof

/-- The operand of a command word is or-ed into its low bits (R103). -/
theorem commandWord_eq_or (u o : BitVec 4) (a : BitVec 24) : commandWord u o a = commandWord u o 0 ||| a.setWidth 32 := by
  apply BitVec.eq_of_getLsbD_eq
  intro i hi
  show (u ++ o ++ a : BitVec (4 + 4 + 24)).getLsbD i =
    ((u ++ o ++ (0 : BitVec 24) : BitVec (4 + 4 + 24)) ||| a.setWidth (4 + 4 + 24)).getLsbD i
  simp only [BitVec.getLsbD_or, BitVec.getLsbD_append, BitVec.getLsbD_setWidth]
  by_cases low : i < 24
  · simp [low, hi]
  · simp [low, BitVec.getLsbD_of_ge a i (by omega)]

/-- The same with a byte as operand. -/
theorem commandWord_byte (u o : BitVec 4) (v : Byte) :
    commandWord u o (v.setWidth 24) = commandWord u o 0 ||| v.setWidth 32 := by
  rw [commandWord_eq_or, BitVec.setWidth_setWidth (by decide)]

end Sys2Proof

namespace Sys2Proof.Machine

theorem lsbValue_lt (bits : List Bool) : lsbValue bits < 2 ^ bits.length := by
  induction bits with
  | nil => decide
  | cons b bits ih =>
    have bit : b.toNat ≤ 1 := Bool.toNat_le b
    rw [lsbValue, List.length_cons, Nat.pow_succ]
    omega

/-- Widening a byte read bit by bit loses nothing: eight bits fit it. -/
theorem zext64_lsbValue {bits : List Bool} (h : bits.length = 8) :
    zext64 (BitVec.ofNat 8 (lsbValue bits)) = BitVec.ofNat 64 (lsbValue bits) := by
  have fits := lsbValue_lt bits
  rw [h] at fits
  apply BitVec.eq_of_toNat_eq
  simp only [zext64, BitVec.toNat_setWidth, BitVec.toNat_ofNat]
  omega

theorem lsbValue_testBit (n x : Nat) : lsbValue ((List.range n).map x.testBit) = x % 2 ^ n := by
  induction n generalizing x with
  | zero => rw [Nat.pow_zero, Nat.mod_one]; rfl
  | succ n ih =>
    have tail : (List.range n).map (x.testBit ∘ Nat.succ) = (List.range n).map (x / 2).testBit :=
      List.map_congr_left fun i _ => Nat.testBit_succ x i
    rw [List.range_succ_eq_map, List.map_cons, List.map_map, lsbValue, tail, ih, Nat.toNat_testBit, Nat.pow_zero,
      Nat.div_one, Nat.pow_succ', Nat.mod_mul]

/-- The bits of a byte in the order the 1-Wire line carries them, bit 0 first (R165). -/
def lsbBits (v : Byte) : List Bool := (List.range 8).map v.getLsbD

theorem length_lsbBits (v : Byte) : (lsbBits v).length = 8 := rfl

theorem lsbValue_lsbBits (v : Byte) : lsbValue (lsbBits v) = v.toNat :=
  (lsbValue_testBit 8 v.toNat).trans (Nat.mod_eq_of_lt v.isLt)

theorem zext64_lsbBits (v : Byte) : zext64 (BitVec.ofNat 8 (lsbValue (lsbBits v))) = v.setWidth 64 := by
  rw [lsbValue_lsbBits, BitVec.ofNat_toNat, BitVec.setWidth_eq]; rfl

/-- The number of 1 bits of a byte, as R173 counts it. -/
theorem count_true_lsbBits (v : Byte) :
    (lsbBits v).count true = ((List.range 8).filter fun n => v.getLsbD n).length := by
  rw [lsbBits, List.count_eq_countP, List.countP_map, List.countP_eq_length_filter]
  simp [Function.comp_def]

theorem bit64_eq (b : Bool) : bit64 b = if b then 1 else 0 := by cases b <;> rfl

end Sys2Proof.Machine
end

section
/-! SUPPORT. The slots of the 1-Wire line as traces (spec 41_ow_bit_byte.md R161, R162, R165, R166): how many
micro-operations they are, how long they take (R173), how they leave the line (R172), and that the slots written tell the
bits (R169). -/

namespace Sys2Proof.Machine

theorem waveOwWriteByte_eq (p : Params) (v : Byte) : waveOwWriteByte p v = (lsbBits v).flatMap (waveOwWrite p) := by
  rw [lsbBits, List.flatMap_map]; rfl

/-! ### Number of micro-operations -/

/-- Slots of one length, one after the other. -/
theorem length_slots {slot : Bool → List MicroOp} {n : Nat} (h : ∀ b, (slot b).length = n) (bits : List Bool) :
    (bits.flatMap slot).length = n * bits.length := by
  simp [List.length_flatMap, h, Nat.mul_comm]

theorem length_waveOwWrite (p : Params) (b : Bool) : (waveOwWrite p b).length = 4 := rfl

theorem length_waveOwRead (p : Params) (b : Bool) : (waveOwRead p b).length = 6 := rfl

theorem length_waveOwWriteByte (p : Params) (v : Byte) : (waveOwWriteByte p v).length = 32 := by
  rw [waveOwWriteByte_eq, length_slots (length_waveOwWrite p), length_lsbBits]

theorem length_waveOwReadBits (p : Params) (bits : List Bool) : (waveOwReadBits p bits).length = 6 * bits.length :=
  length_slots (length_waveOwRead p) bits

/-! ### Time (R173) -/

theorem usOf_waveOwWrite (p : Params) (b : Bool) :
    usOf (waveOwWrite p b) = if b then p.owTA + p.owTB else p.owTC + p.owTD := by
  cases b <;> simp [waveOwWrite, usOf, MicroOp.us]

theorem usOf_waveOwRead (p : Params) (b : Bool) : usOf (waveOwRead p b) = p.owTA + p.owTE + p.owTF := by
  simp [waveOwRead, usOf, MicroOp.us, Nat.add_assoc]

/-- Slots one after the other take, for each bit value, as many slots of it as there are such bits. -/
theorem usOf_slots (slot : Bool → List MicroOp) (bits : List Bool) :
    usOf (bits.flatMap slot) = bits.count true * usOf (slot true) + bits.count false * usOf (slot false) := by
  induction bits with
  | nil => simp [usOf]
  | cons b bits ih =>
    rw [List.flatMap_cons, usOf_append, ih]
    cases b <;> simp only [List.count_cons_self, List.count_cons_of_ne, ne_eq, reduceCtorEq, not_false_eq_true] <;> ring

theorem usOf_waveOwWriteByte (p : Params) (v : Byte) :
    usOf (waveOwWriteByte p v) = (lsbBits v).count true * (p.owTA + p.owTB) +
      (8 - (lsbBits v).count true) * (p.owTC + p.owTD) := by
  have zeros : (lsbBits v).count false = 8 - (lsbBits v).count true := by
    rw [← length_lsbBits v, ← List.count_false_add_count_true, Nat.add_sub_cancel]
  rw [waveOwWriteByte_eq, usOf_slots, zeros, usOf_waveOwWrite, usOf_waveOwWrite]
  rfl

theorem usOf_waveOwReadBits (p : Params) (bits : List Bool) :
    usOf (waveOwReadBits p bits) = bits.length * (p.owTA + p.owTE + p.owTF) := by
  rw [waveOwReadBits, usOf_slots, usOf_waveOwRead, usOf_waveOwRead, ← Nat.add_mul, List.count_true_add_count_false]

/-! ### The line afterwards (R172) -/

theorem pinsAfter_waveOwWrite (p : Params) (b : Bool) (pins : Pins) :
    (pinsAfter (waveOwWrite p b) pins).owdq = releasedLow := rfl

theorem pinsAfter_waveOwRead (p : Params) (b : Bool) (pins : Pins) :
    (pinsAfter (waveOwRead p b) pins).owdq = releasedLow := rfl

/-! ### The slots tell the bits (R8, R169) -/

/-- With legal timing the low time of a slot, A or C, tells the bit written. -/
theorem waveOwWrite_injective {p : Params} (h : p.legal = true) : Function.Injective (waveOwWrite p) := by
  have short : p.owTA < p.owTC := by
    simp only [Params.legal, Bool.and_eq_true, decide_eq_true_eq] at h
    exact h.2
  rw [Bool.injective_iff]
  intro same
  have low : p.owTC = p.owTA := by
    simp only [waveOwWrite, List.cons.injEq, MicroOp.delayUs.injEq] at same
    obtain ⟨-, low, -⟩ := same
    exact low
  omega

/-- Slots of one length that tell their bits, one after the other, tell all the bits: the boundaries between them are
known. -/
theorem eq_of_slots_eq {slot : Bool → List MicroOp} {n : Nat} (length : ∀ b, (slot b).length = n)
    (inj : Function.Injective slot) {xs ys : List Bool} (hlen : xs.length = ys.length)
    (h : xs.flatMap slot = ys.flatMap slot) : xs = ys := by
  apply List.map_injective_iff.mpr inj
  rw [List.flatMap_def, List.flatMap_def] at h
  refine List.eq_iff_flatten_eq.mpr ⟨h, ?_⟩
  simp [Function.comp_def, length, hlen]

end Sys2Proof.Machine
end

section
/-! PROOF. The bit and byte commands of unit OW (spec 41_ow_bit_byte.md R162 to R169) and their durations (R173, R205):
each from the law of the command, `settled t = settled (answered …)`, and the facts about the slots it runs. -/

namespace Sys2Proof.Machine

theorem exec_owWbit (b : Bool) (s : State) :
    ∃ t, exec (.owWbit b) s = .next t ∧ settled t = settled (answered .ok 0 (ran (waveOwWrite s.par b) 0 s)) := by
  refine ⟨_, rfl, respond_of_body _ _ ?_⟩
  rw [owWbit_eq]
  rfl

theorem exec_owRbit (s : State) :
    ∃ t, exec .owRbit s = .next t ∧
      settled t = settled (answered .ok (bit64 (nextAnswer s)) (ran (waveOwRead s.par (nextAnswer s)) 1 s)) := by
  have run : exec .owRbit s = .next (respond .ok (bit64 (nextAnswer s))
      (after (waveOwRead s.par (nextAnswer s)) (takeAnswer (accept s)))) := by
    rw [exec, execOwRbit, owRbit_eq]
    rfl
  refine ⟨_, run, respond_of_body _ _ ?_⟩
  rw [settled_after, settled_takeAnswer, settled_accept]
  rfl

/-- Settles O17: the four micro-operations of the slot, whose release leaves the line low and released. -/
theorem owWbitResult : Obligations.OwWbitResult := by
  intro b
  have word : encode (.owWbit b) = .cmd32 (if b then 0x01000001 else 0x01000000) := by cases b <;> rfl
  refine ⟨by rw [← word, decodeOfEncode], fun s => ?_⟩
  obtain ⟨t, he, law⟩ := exec_owWbit b s
  refine ⟨t, he, law, ?line⟩
  case line => rw [(Performed.of_command law).pins, pinsAfter_waveOwWrite]; rfl

/-- Settles O18: the six micro-operations of the slot; the response is the sampled level. -/
theorem owRbitResult : Obligations.OwRbitResult := by
  refine ⟨decodeOfEncode .owRbit, fun s => ?_⟩
  obtain ⟨t, he, law⟩ := exec_owRbit s
  refine ⟨t, he, bit64_eq (nextAnswer s) ▸ law, ?line⟩
  case line => rw [(Performed.of_command law).pins, pinsAfter_waveOwRead]; rfl

/-- Settles O19: `exec_owWbyte`, and eight slots of four micro-operations. -/
theorem owWbyteResult : Obligations.OwWbyteResult := by
  intro v
  constructor
  · have word : encode (.owWbyte v) = .cmd32 (0x03000000 ||| v.setWidth 32) := congrArg Code.cmd32 (commandWord_byte 0 3 v)
    rw [← word, decodeOfEncode]
  · intro s
    obtain ⟨t, he, law⟩ := exec_owWbyte v s
    exact ⟨t, he, law, by rw [trace_of_command law, length_waveOwWriteByte]⟩

/-- Settles O20: `exec_owRbyte`, and eight slots of six micro-operations. -/
theorem owRbyteResult : Obligations.OwRbyteResult := by
  refine ⟨decodeOfEncode .owRbyte, fun s => ?_⟩
  obtain ⟨t, he, law⟩ := exec_owRbyte s
  rw [zext64_lsbValue (answers_length 8 s)] at law
  exact ⟨t, he, law, by rw [trace_of_command law, length_waveOwReadBits, answers_length]⟩

/-- Settles O21: the trace of the byte written is the slots of its own bits, so the bits read back are these. -/
theorem loopbackRoundTrip : Obligations.LoopbackRoundTrip := by
  intro v s t bits legal he hlen htrace hgives
  obtain ⟨t', he', written⟩ := exec_owWbyte v s
  obtain rfl : t' = t := Host.Outcome.next.inj (he'.symm.trans he)
  have slots : (lsbBits v).flatMap (waveOwWrite s.par) = bits.flatMap (waveOwWrite s.par) := by
    rw [← waveOwWriteByte_eq, ← trace_of_command written, htrace]
  have count : (lsbBits v).length = bits.length := hlen.symm
  obtain rfl := eq_of_slots_eq (length_waveOwWrite s.par) (waveOwWrite_injective legal) count slots
  obtain ⟨u, hu, read⟩ := exec_owRbyte t'
  rw [show answers 8 t' = lsbBits v from hgives, zext64_lsbBits] at read
  exact ⟨u, hu, (congrArg State.rspStatus read :), (congrArg State.rspData read :)⟩

/-- Settles O60: the laws of the three commands, and the time of the slots each runs. -/
theorem owDurations : Obligations.OwDurations := by
  intro s
  refine ⟨fun v => ?wbyte, ?rbyte, fun present => ?readrom⟩
  case wbyte =>
    obtain ⟨t, he, law⟩ := exec_owWbyte v s
    refine ⟨t, he, ?_⟩
    rw [(Performed.of_command law).time, usOf_waveOwWriteByte, count_true_lsbBits]
  case rbyte =>
    obtain ⟨t, he, law⟩ := exec_owRbyte s
    refine ⟨t, he, ?_⟩
    rw [(Performed.of_command law).time, usOf_waveOwReadBits, answers_length]
  case readrom =>
    obtain ⟨t, he, -, data, law⟩ := exec_owReadrom_of_present present
    have ones : (lsbBits 0x33).count true = 4 := rfl
    refine ⟨t, he, ?_⟩
    rw [(Performed.of_command law).time, usOf_append, usOf_append, usOf_waveOwReset, usOf_waveOwWriteByte, ones,
      usOf_waveOwReadBits, answers_length]
    omega

end Sys2Proof.Machine
end

section
/-! SUPPORT. Procedures of unit OW one after the other (spec 20_memory.md R86): what each runs on the line, joined; and the
numbers of bit sequences joined (R72, R76, R79). -/

namespace Sys2Proof.Machine

/-! ### Bit sequences joined -/

theorem lsbValue_append (xs ys : List Bool) : lsbValue (xs ++ ys) = lsbValue xs + 2 ^ xs.length * lsbValue ys := by
  induction xs with
  | nil => simp [lsbValue]
  | cons x xs ih => rw [List.cons_append, lsbValue, lsbValue, ih, List.length_cons, Nat.pow_succ']; ring

/-- A byte read bit by bit is the number of its bits. -/
theorem toNat_lsbByte {bits : List Bool} (h : bits.length = 8) :
    (BitVec.ofNat 8 (lsbValue bits)).toNat = lsbValue bits := by
  rw [BitVec.toNat_ofNat]
  exact Nat.mod_eq_of_lt (h ▸ lsbValue_lt bits)

/-- Of two bytes read one after the other the first is the low one (R76). -/
theorem zext64_word16_lsbValue {xs ys : List Bool} (hx : xs.length = 8) (hy : ys.length = 8) :
    zext64 (word16 (BitVec.ofNat 8 (lsbValue ys)) (BitVec.ofNat 8 (lsbValue xs))) =
      BitVec.ofNat 64 (lsbValue (xs ++ ys)) := by
  have low : lsbValue xs < 2 ^ 8 := hx ▸ lsbValue_lt xs
  have high : lsbValue ys < 2 ^ 8 := hy ▸ lsbValue_lt ys
  apply BitVec.eq_of_toNat_eq
  rw [zext64, word16, BitVec.toNat_setWidth, BitVec.toNat_append, toNat_lsbByte hx, toNat_lsbByte hy,
    ← Nat.shiftLeft_add_eq_or_of_lt low, Nat.shiftLeft_eq, BitVec.toNat_ofNat, lsbValue_append, hx]
  omega

/-- A byte read after `k` others is placed above them (R79). -/
theorem packByte_lsbValue {k : Nat} {xs ys : List Bool} (hk : k < 8) (hx : xs.length = 8 * k) (hy : ys.length = 8) :
    packByte (BitVec.ofNat 64 (lsbValue xs)) k (BitVec.ofNat 8 (lsbValue ys)) =
      BitVec.ofNat 64 (lsbValue (xs ++ ys)) := by
  have low : lsbValue xs < 2 ^ (8 * k) := hx ▸ lsbValue_lt xs
  have all : lsbValue (xs ++ ys) < 2 ^ 64 :=
    (lsbValue_lt _).trans_le (Nat.pow_le_pow_right (by decide) (by rw [List.length_append]; omega))
  have sum := lsbValue_append xs ys
  rw [hx] at sum
  rw [packByte, zext64_lsbValue hy]
  apply BitVec.eq_of_toNat_eq
  have fits : lsbValue xs < 2 ^ 64 := by omega
  have fits' : lsbValue ys < 2 ^ 64 := (lsbValue_lt ys).trans (by rw [hy]; decide)
  rw [BitVec.toNat_or, BitVec.toNat_shiftLeft, BitVec.toNat_ofNat, BitVec.toNat_ofNat, BitVec.toNat_ofNat,
    Nat.mod_eq_of_lt fits, Nat.mod_eq_of_lt fits', Nat.mod_eq_of_lt all, Nat.shiftLeft_eq, sum, Nat.mul_comm,
    Nat.mod_eq_of_lt (by omega), Nat.or_comm, ← Nat.two_pow_add_eq_or_of_lt low, Nat.add_comm]

/-! ### Procedures one after the other -/

/-- From `s` to `t` the block has run `ops` and taken `n` answers, and nothing else persistent has changed. -/
def Runs (ops : List MicroOp) (n : Nat) (s t : State) : Prop := settled t = after ops (takeAnswers n (settled s))

namespace Runs

variable {xs ys : List MicroOp} {m n : Nat} {s t u : State}

theorem refl (s : State) : Runs [] 0 s s := (after_nil _).symm

theorem of_after (ops : List MicroOp) (n : Nat) (s : State) : Runs ops n s (after ops (takeAnswers n s)) := by
  rw [Runs, settled_after, settled_takeAnswers]

theorem trans (h : Runs xs m s t) (k : Runs ys n t u) : Runs (xs ++ ys) (m + n) s u := by
  rw [Runs, k, h, takeAnswers_after, after_after, ← takeAnswers_add]

theorem par_eq (h : Runs xs n s t) : t.par = s.par := by simpa using congrArg State.par h

theorem script_eq (h : Runs xs n s t) : t.script = (takeAnswers n s).script := by
  rw [Runs, ← settled_takeAnswers] at h
  exact (congrArg State.script h :)

theorem answers_eq (h : Runs xs m s t) (n : Nat) : answers n t = answers n (takeAnswers m s) := by
  rw [← answers_settled, h, answers_after, ← settled_takeAnswers, answers_settled]

/-- A command whose body runs `xs` from its acceptance and then responds. -/
theorem respond (h : Runs xs n (accept s) t) (st : Status) (data : BitVec 64) :
    settled (respond st data t) = settled (answered st data (ran xs n s)) :=
  respond_of_body st data h

end Runs

theorem owReset_runs {s : State} {r : Bool} (h : nextAnswer s = r) : Runs (waveOwReset s.par r) 1 s (owReset s).2 := by
  rw [owReset_eq, h]
  exact .of_after _ 1 s

theorem owWbytes_runs (vs : List Byte) (s : State) :
    Runs (waveOwWriteBytes s.par vs) 0 s (vs.foldl (fun t v => owWbyte v t) s) := by
  induction vs generalizing s with
  | nil => exact .refl s
  | cons v vs ih =>
    have first : Runs (waveOwWriteByte s.par v) 0 s (owWbyte v s) := owWbyte_settled v s
    have rest := ih (owWbyte v s)
    rw [owWbyte_par] at rest
    exact first.trans rest

theorem owRbyte_runs (s : State) : Runs (waveOwReadBits s.par (answers 8 s)) 8 s (owRbyte s).2 := owRbyte_settled s

/-- A reset that finds a device, and bytes written after it. -/
theorem owReset_owWbytes_runs {s : State} (h : nextAnswer s = false) (vs : List Byte) :
    Runs (waveOwReset s.par false ++ waveOwWriteBytes s.par vs) 1 s
      (vs.foldl (fun t v => owWbyte v t) (owReset s).2) := by
  have reset := owReset_runs h
  have sent := owWbytes_runs vs (owReset s).2
  rw [reset.par_eq] at sent
  exact reset.trans sent

end Sys2Proof.Machine
end

section
/-! PROOF. The transactions of unit OW (spec 42_ow_transactions.md): each is a reset and, when a device answers it, bytes
written, slots read, and for the temperature a second reset; the response says how far it came. -/

namespace Sys2Proof

/-- An operand of any width that fits `ARG` is or-ed into the low bits of the command word (R103). -/
theorem commandWord_operand {n : Nat} (hn : n ≤ 24) (u o : BitVec 4) (v : BitVec n) :
    commandWord u o (v.setWidth 24) = commandWord u o 0 ||| v.setWidth 32 := by
  rw [commandWord_eq_or, BitVec.setWidth_setWidth (by omega)]

end Sys2Proof

namespace Sys2Proof.Machine

/-! ### `OW.SETRES` (R191) -/

theorem exec_owSetres_of_absent (res : BitVec 2) {s : State} (h : nextAnswer s = true) :
    exec (.owSetres res) s = .next (respond .noPresence 1 (owReset (accept s)).2) := by
  simp [exec, execOwSetres, owReset_eq, h, raise_eq]

/-- The five bytes of R191. -/
def setresBytes (p : Params) (res : BitVec 2) : List Byte := [0xCC, 0x4E, p.owAlarm0, p.owAlarm1, owConfigByte res]

theorem exec_owSetres_of_present (res : BitVec 2) {s : State} (h : nextAnswer s = false) :
    exec (.owSetres res) s = .next (respond .ok 0
      { (setresBytes s.par res).foldl (fun t v => owWbyte v t) (owReset (accept s)).2 with owRes := some res }) := by
  simp [exec, execOwSetres, owReset_eq, h, ret_eq, setresBytes, Config.owSkipRom, Config.owWriteScratchpad]

/-- Settles O22: the response and `OW_RES` by the two ends of the command, the line by what its procedures run. -/
theorem owSetresResult : Obligations.OwSetresResult := by
  intro res
  have word : encode (.owSetres res) = .cmd32 (0x05000000 ||| res.setWidth 32) :=
    congrArg Code.cmd32 (commandWord_operand (by decide) 0 5 res)
  refine ⟨by rw [← word, decodeOfEncode], fun s => ?_⟩
  cases h : nextAnswer s with
  | true => exact ⟨_, exec_owSetres_of_absent res h, (owReset_runs (s := accept s) h).respond .noPresence 1⟩
  | false =>
    have body := (owReset_owWbytes_runs (s := accept s) h (setresBytes s.par res)).respond .ok 0
    exact ⟨_, exec_owSetres_of_present res h, congrArg (fun t : State => { t with owRes := some res }) body⟩

/-! ### `ow_convert` (R193) -/

/-- What a conversion with these poll answers puts on the line, from its reset on. -/
def waveConversion (p : Params) (polls : List Bool) : List MicroOp :=
  waveOwReset p false ++ waveOwWriteBytes p [0xCC, 0x44] ++ waveOwReadBits p polls

/-- The polls of a conversion, on the state where they begin. -/
theorem convertPolled_runs {s : State} (h : nextAnswer s = false) (polls : List Bool) (n : Nat) :
    Runs (waveConversion s.par polls) (n + 1) s
      (after (waveOwReadBits s.par polls) (takeAnswers n (convertSent s))) := by
  have sent : Runs _ 1 s (convertSent s) := convertSent_settled h
  rw [Nat.add_comm]
  exact sent.trans (.of_after _ n (convertSent s))

/-- A command that contains `ow_convert` begins with it. -/
theorem exec_convUser (u : ConvUser) (s : State) : exec u.instr s = .next (owConvert u (accept s)) := by
  cases u with
  | convert => rfl
  | rawtemp => rfl
  | gettemp => rfl

theorem owConvert_of_absent (u : ConvUser) {s : State} (h : nextAnswer s = true) :
    owConvert u s = afterConvert u .noPresence (owReset s).2 := by
  simp [owConvert, owReset_eq, h]

/-- A poll answered 1 after `k` polls answered 0 ends the conversion, whatever the limit allows beyond it. -/
theorem owConvertPoll_of_hit (u : ConvUser) {s : State} {k : Nat} {rest : List Bool}
    (hk : withinLimit s.par.owConvPollLimit k = true) (h : s.script = List.replicate k false ++ true :: rest) :
    owConvertPoll u s = afterConvert u .ok
      (after (waveOwReadBits s.par (List.replicate k false ++ [true])) (takeAnswers (k + 1) s)) := by
  have given : answers (k + 1) s = List.replicate k false ++ [true] := by
    simpa using answers_script (List.replicate k false ++ [true]) rest s (by simp [h])
  have turns : k < s.par.owConvPollLimit.getD (max 1 s.script.length) := by
    cases hl : s.par.owConvPollLimit with
    | none => simp [h]
    | some n => simpa [hl, withinLimit] using hk
  simp [owConvertPoll, poll_eq, pollTimes_owRbit_hit k _ s turns given]

theorem owConvert_of_hit (u : ConvUser) {s : State} {k : Nat} {rest : List Bool}
    (hk : withinLimit s.par.owConvPollLimit k = true)
    (h : s.script = false :: (List.replicate k false ++ true :: rest)) :
    ∃ t, owConvert u s = afterConvert u .ok t ∧
      Runs (waveConversion s.par (List.replicate k false ++ [true])) (k + 2) s t ∧ t.script = rest := by
  have present := nextAnswer_cons h
  have polled := convertPolled_runs present (List.replicate k false ++ [true]) (k + 1)
  have taken := takeAnswers_script (false :: (List.replicate k false ++ [true])) rest s (by simp [h])
  simp only [List.length_cons, List.length_append, List.length_replicate, List.length_nil] at taken
  refine ⟨_, ?_, polled, polled.script_eq.trans (congrArg State.script taken)⟩
  rw [owConvert_of_present u present, owConvertPoll_of_hit u (by simpa using hk) (by rw [convertSent_script, h]; rfl),
    convertSent_par]

theorem owConvert_of_limit (u : ConvUser) {s : State} {n : Nat} (hl : s.par.owConvPollLimit = some n)
    (h : gives s (false :: List.replicate n false)) :
    ∃ t, owConvert u s = afterConvert u .pollTimeout t ∧
      Runs (waveConversion s.par (List.replicate n false)) (n + 1) s t := by
  obtain ⟨present, zeros⟩ := (gives_cons s _ _).mp h
  have sent := convertSent_settled present
  rw [← settled_takeAnswer] at sent
  refine ⟨_, ?_, convertPolled_runs present _ n⟩
  rw [owConvert_of_present u present,
    owConvertPoll_of_limit u (by simpa using hl) ((gives_congr sent _).mpr zeros), convertSent_par]

theorem owConvert_of_zeros (u : ConvUser) {s : State} {m : Nat} (hl : s.par.owConvPollLimit = none)
    (h : s.script = false :: List.replicate (m + 1) false) :
    ∃ t, owConvert u s = { t with seq := .convPoll u } ∧
      Runs (waveConversion s.par (List.replicate (m + 1) false)) (m + 2) s t := by
  have present := nextAnswer_cons h
  refine ⟨_, ?_, convertPolled_runs present _ (m + 1)⟩
  rw [owConvert_of_present u present, owConvertPoll_of_zeros u (m := m) (by simpa using hl) (by simp [h]),
    convertSent_par]

/-! ### `OW.CONVERT` (R194) -/

/-- Settles O23: `ow_convert` reports `NO_PRESENCE`, `OK` or `POLL_TIMEOUT`, and the command responds with it. -/
theorem owConvertResult : Obligations.OwConvertResult := by
  refine ⟨decodeOfEncode .owConvert, fun s h => ?absent, fun s k rest hk hs => ?hit, fun s n _ hl hg => ?limit⟩
  case absent =>
    have he := owConvert_of_absent .convert (s := accept s) h
    have reset := owReset_runs (s := accept s) h
    exact ⟨_, (exec_convUser .convert s).trans (congrArg _ he), reset.respond .noPresence 1⟩
  case hit =>
    obtain ⟨t, he, run, -⟩ := owConvert_of_hit .convert (s := accept s) hk hs
    exact ⟨_, (exec_convUser .convert s).trans (congrArg _ he), run.respond .ok 0⟩
  case limit =>
    obtain ⟨t, he, run⟩ := owConvert_of_limit .convert (s := accept s) hl ((gives_accept s _).mpr hg)
    exact ⟨_, (exec_convUser .convert s).trans (congrArg _ he), run.respond .pollTimeout 0⟩

/-! ### `OW.RAWTEMP` and `OW.GETTEMP` (R197, R200) -/

/-- The two commands that read a temperature go on after their conversion in the same way (R200). -/
theorem afterConvert_of_readsTemperature {i : Instr} {u : ConvUser}
    (h : (i = .owRawtemp ∧ u = .rawtemp) ∨ (i = .owGettemp ∧ u = .gettemp)) :
    i = u.instr ∧ ∀ st s, afterConvert u st s = owRawtempEnd st s := by
  rcases h with ⟨rfl, rfl⟩ | ⟨rfl, rfl⟩
  · exact ⟨rfl, fun _ _ => rfl⟩
  · exact ⟨rfl, fun _ _ => rfl⟩

theorem owRawtempEnd_of_failure {st : Status} (h : st ≠ .ok) (s : State) :
    owRawtempEnd st s = respond st (s.par.owInvalidTemperature.setWidth 64) s := by
  rw [owRawtempEnd, if_pos h]
  rfl

theorem owRawtempEnd_of_absent {s : State} (h : nextAnswer s = true) :
    owRawtempEnd .ok s = respond .noPresence (s.par.owInvalidTemperature.setWidth 64) (owReset s).2 := by
  simp [owRawtempEnd, owReset_eq, h, raise_eq, zext64]

/-- With a device at the second reset: sixteen answers, the low byte first and each byte's bit 0 first (R197). -/
theorem owRawtempEnd_of_present {s : State} (h : nextAnswer s = false) :
    ∃ t, owRawtempEnd .ok s = respond .ok (BitVec.ofNat 64 (lsbValue (answers 16 (takeAnswer s)))) t ∧
      Runs (waveOwReset s.par false ++ waveOwWriteBytes s.par [0xCC, 0xBE] ++
        waveOwReadBits s.par (answers 16 (takeAnswer s))) 17 s t := by
  generalize hv : owWbyte Config.owReadScratchpad (owWbyte Config.owSkipRom (owReset s).2) = v
  have sent : Runs (waveOwReset s.par false ++ waveOwWriteBytes s.par [0xCC, 0xBE]) 1 s v := by
    rw [← hv]
    exact owReset_owWbytes_runs h [0xCC, 0xBE]
  have split : answers 16 (takeAnswer s) = answers 8 v ++ answers 8 (owRbyte v).2 := by
    rw [owRbyte_answers, ← answers_add]
    exact (sent.answers_eq 16).symm
  have low := sent.trans (owRbyte_runs v)
  have both := low.trans (owRbyte_runs (owRbyte v).2)
  refine ⟨(owRbyte (owRbyte v).2).2, ?_, ?_⟩
  · have absent : (owReset s).1 = false := by rw [owReset_eq]; exact h
    rw [split, ← zext64_word16_lsbValue (answers_length 8 _) (answers_length 8 _), ← owRbyte_value, ← owRbyte_value,
      ← hv]
    simp [owRawtempEnd, absent, ret_eq]
  · rw [split, waveOwReadBits_append, ← List.append_assoc]
    rw [low.par_eq, sent.par_eq] at both
    exact both

/-- The number of sixteen bits as two's complement over 16 (R198). -/
theorem owDegrees_ofNat {x : Nat} (h : x < 65536) :
    owDegrees ((BitVec.ofNat 64 x).extractLsb' 0 16) = (if x < 32768 then (x : Rat) else (x : Rat) - 65536) / 16 := by
  have raw : ((BitVec.ofNat 64 x).extractLsb' 0 16).toNat = x := by
    rw [BitVec.extractLsb'_toNat, BitVec.toNat_ofNat, Nat.shiftRight_zero]
    omega
  rw [owDegrees, BitVec.toInt_eq_toNat_cond, raw]
  by_cases positive : x < 32768
  · rw [if_pos (by omega), if_pos positive]; simp
  · rw [if_neg (by omega), if_neg positive]; norm_num

/-- Settles O25: a conversion that ends, a second reset with a device, and sixteen answers; their number fits 16 bits. -/
theorem owTemperatureResult : Obligations.OwTemperatureResult := by
  refine ⟨decodeOfEncode .owRawtemp, decodeOfEncode .owGettemp, fun i s k bits rest hi hk hlen hs => ?_⟩
  obtain ⟨u, rfl, reads⟩ : ∃ u : ConvUser, i = u.instr ∧ ∀ st s, afterConvert u st s = owRawtempEnd st s := by
    rcases hi with rfl | rfl
    · exact ⟨.rawtemp, afterConvert_of_readsTemperature (.inl ⟨rfl, rfl⟩)⟩
    · exact ⟨.gettemp, afterConvert_of_readsTemperature (.inr ⟨rfl, rfl⟩)⟩
  obtain ⟨v, converted, conversion, script⟩ := owConvert_of_hit u (s := accept s) hk hs
  have given : answers 16 (takeAnswer v) = bits := by
    rw [takeAnswer_cons script, ← hlen]
    exact answers_script bits rest _ rfl
  obtain ⟨t, ended, reading⟩ := owRawtempEnd_of_present (nextAnswer_cons script)
  rw [given] at ended
  rw [given, conversion.par_eq] at reading
  have law := (conversion.trans reading).respond .ok (BitVec.ofNat 64 (lsbValue bits))
  simp only [waveConversion, ← List.append_assoc] at law
  have fits := lsbValue_lt bits
  rw [hlen] at fits
  refine ⟨_, ?_, law, owDegrees_ofNat fits⟩
  rw [exec_convUser, converted, reads, ended]

/-- Settles O26: `ow_convert` fails or waits, or the second reset finds no device. -/
theorem owTemperatureFails : Obligations.OwTemperatureFails := by
  intro i u hi
  obtain ⟨rfl, reads⟩ := afterConvert_of_readsTemperature hi
  refine ⟨fun s h => ?absent, fun s n hl hg => ?limit, fun s k rest hk hs => ?lost, fun s m hl hs => ?waits⟩
  case absent =>
    have reset := owReset_runs (s := accept s) h
    refine ⟨_, ?_, reset.respond .noPresence _⟩
    rw [exec_convUser, owConvert_of_absent u (s := accept s) h, reads,
      owRawtempEnd_of_failure (by decide), reset.par_eq]
    rfl
  case limit =>
    obtain ⟨t, he, run⟩ := owConvert_of_limit u (s := accept s) hl ((gives_accept s _).mpr hg)
    refine ⟨_, ?_, run.respond .pollTimeout _⟩
    rw [exec_convUser, he, reads, owRawtempEnd_of_failure (by decide), run.par_eq]
    rfl
  case lost =>
    obtain ⟨v, he, conversion, script⟩ := owConvert_of_hit u (s := accept s) hk hs
    have second := owReset_runs (nextAnswer_cons script)
    rw [conversion.par_eq] at second
    refine ⟨_, ?_, (conversion.trans second).respond .noPresence _⟩
    rw [exec_convUser, he, reads, owRawtempEnd_of_absent (nextAnswer_cons script), conversion.par_eq]
    rfl
  case waits =>
    obtain ⟨t, he, run⟩ := owConvert_of_zeros u (s := accept s) hl hs
    exact ⟨_, (exec_convUser u s).trans (congrArg _ he), wait_of_body _ run⟩

/-! ### `OW.READROM` (R202) -/

/-- Bytes read after those whose bits are `before`: their bits follow, so the number is that of all the bits. -/
theorem owReadRomBytes_value (n k : Nat) (hk : k + n ≤ 8) (before : List Bool) (hb : before.length = 8 * k)
    (s : State) :
    (owReadRomBytes (List.range' k n) (BitVec.ofNat 64 (lsbValue before)) s).1 =
      BitVec.ofNat 64 (lsbValue (before ++ answers (8 * n) s)) := by
  induction n generalizing k before s with
  | zero => simp [owReadRomBytes, answers]
  | succ n ih =>
    rw [List.range'_succ, owReadRomBytes, owRbyte_value, packByte_lsbValue (by omega) hb (answers_length 8 s),
      ih (k + 1) (by omega) _ (by rw [List.length_append, hb, answers_length]; omega), owRbyte_answers,
      List.append_assoc, ← answers_add, show 8 + 8 * n = 8 * (n + 1) by omega]

theorem exec_owReadrom_of_absent {s : State} (h : nextAnswer s = true) :
    exec .owReadrom s = .next (respond .noPresence 0 (owReset (accept s)).2) := by
  simp [exec, execOwReadrom, owReset_eq, h, raise_eq]

/-- R202: the data is the number of the sixty-four answers after the reset's. -/
theorem exec_owReadrom_data {s t : State} (h : nextAnswer s = false) (he : exec .owReadrom s = .next t) :
    t.rspData = BitVec.ofNat 64 (lsbValue (answers 64 (takeAnswer s))) := by
  generalize hu : owWbyte Config.owReadRom (owReset (accept s)).2 = u
  have run : exec .owReadrom s = .next (respond .ok (owReadRomBytes (List.range' 0 8) 0 u).1
      (owReadRomBytes (List.range' 0 8) 0 u).2) := by
    simp [exec, execOwReadrom, owReset_eq, h, ret_eq, ← hu, List.range']
  have later : answers 64 u = answers 64 (takeAnswer s) := by
    rw [← hu, owWbyte_answers, owReset_eq, answers_after, takeAnswer_accept, answers_accept]
  obtain rfl := Host.Outcome.next.inj (run.symm.trans he)
  rw [← later]
  exact owReadRomBytes_value 8 0 (by decide) [] rfl u

/-- Settles O27: without a device by the reset alone; with one, what it runs by `exec_owReadrom_of_present`. -/
theorem owReadromResult : Obligations.OwReadromResult := by
  refine ⟨decodeOfEncode .owReadrom, fun s => ?_⟩
  cases h : nextAnswer s with
  | true => exact ⟨_, exec_owReadrom_of_absent h, (owReset_runs (s := accept s) h).respond .noPresence 0⟩
  | false =>
    obtain ⟨t, he, -, data, law⟩ := exec_owReadrom_of_present h
    obtain rfl : t.rspData = data := (congrArg State.rspData law :)
    rw [exec_owReadrom_data h he, ← List.append_assoc] at law
    exact ⟨t, he, law⟩

end Sys2Proof.Machine
end

section
/-! SUPPORT. The numbers of bit sequences most significant bit first (spec 20_memory.md R73), and the waveforms of unit I2C
as traces (43_i2c_seq.md R232 to R237): how many micro-operations they are, how long they take, how they leave `SDA` and
`SCL`. -/

namespace Sys2Proof.Machine

/-! ### Bits most significant first -/

/-- The two bit orders are each other's reversal (R72, R73). -/
theorem msbValue_eq_lsbValue_reverse (bits : List Bool) : msbValue bits = lsbValue bits.reverse := by
  induction bits with
  | nil => rfl
  | cons b bits ih =>
    have last : lsbValue [b] = b.toNat := rfl
    rw [msbValue, ih, List.reverse_cons, lsbValue_append, last, List.length_reverse, Nat.mul_comm, Nat.add_comm]

/-- Widening a byte read bit by bit loses nothing: eight bits fit it. -/
theorem zext64_msbValue {bits : List Bool} (h : bits.length = 8) :
    zext64 (BitVec.ofNat 8 (msbValue bits)) = BitVec.ofNat 64 (msbValue bits) := by
  rw [msbValue_eq_lsbValue_reverse]
  exact zext64_lsbValue (List.length_reverse.trans h)

/-- The bits of a byte in the order the Soft-I2C lines carry them, bit 7 first (R73, R234). -/
def msbBits (v : Byte) : List Bool := msbFirst.map v.getLsbD

theorem length_msbBits (v : Byte) : (msbBits v).length = 8 := rfl

theorem waveWrite_eq (t : Nat) (v : Byte) (a : Bool) :
    waveWrite t v a = (msbBits v).flatMap (waveWriteBit t) ++
      [.release .sda, .delayUs t, .drive .scl true, .delayUs t, .sample .sda a, .drive .scl false] := by
  rw [msbBits, List.flatMap_map]; rfl

/-! ### Number of micro-operations -/

/-- Eight data bits of five micro-operations, and six for the ninth clock (R234). -/
theorem length_waveWrite (t : Nat) (v : Byte) (a : Bool) : (waveWrite t v a).length = 46 := by
  rw [waveWrite_eq, List.length_append, length_slots (n := 5) (fun _ => rfl), length_msbBits]
  rfl

/-- The release, eight data bits of five micro-operations, and six for the ninth clock (R235). -/
theorem length_waveRead (t : Nat) (a : Bool) {bits : List Bool} (h : bits.length = 8) :
    (waveRead t a bits).length = 47 := by
  rw [waveRead, List.length_append, List.length_append, length_slots (n := 5) (fun _ => rfl), h]
  rfl

/-! ### Time -/

theorem usOf_waveStart (t : Nat) : usOf (waveStart t) = 4 * t := by
  simp only [waveStart, usOf, MicroOp.us]; omega

theorem usOf_waveStop (t : Nat) : usOf (waveStop t) = 3 * t := by
  simp only [waveStop, usOf, MicroOp.us]; omega

theorem usOf_wavePulses (t n : Nat) : usOf (wavePulses t n) = n * (2 * t) := by
  induction n with
  | zero => simp [wavePulses, usOf]
  | succ n ih => rw [wavePulses, usOf_append, ih]; simp only [usOf, MicroOp.us]; ring

theorem usOf_waveBusReset (t : Nat) : usOf (waveBusReset t) = 23 * t := by
  rw [waveBusReset, usOf_append, usOf_append, usOf_wavePulses, usOf_waveStart]
  simp only [usOf, MicroOp.us]
  omega

/-- Slots that take the same time for either bit. -/
theorem usOf_slots_of_eq {slot : Bool → List MicroOp} {d : Nat} (h : ∀ b, usOf (slot b) = d) (bits : List Bool) :
    usOf (bits.flatMap slot) = bits.length * d := by
  rw [usOf_slots, h, h, ← Nat.add_mul, List.count_true_add_count_false]

theorem usOf_waveWriteBit (t : Nat) (b : Bool) : usOf (waveWriteBit t b) = 2 * t := by
  simp only [waveWriteBit, usOf, MicroOp.us]; omega

theorem usOf_waveReadBit (t : Nat) (b : Bool) : usOf (waveReadBit t b) = 2 * t := by
  simp only [waveReadBit, usOf, MicroOp.us]; omega

theorem usOf_waveWrite (t : Nat) (v : Byte) (a : Bool) : usOf (waveWrite t v a) = 18 * t := by
  rw [waveWrite_eq, usOf_append, usOf_slots_of_eq (usOf_waveWriteBit t), length_msbBits]
  simp only [usOf, MicroOp.us]
  omega

theorem usOf_waveRead (t : Nat) (a : Bool) {bits : List Bool} (h : bits.length = 8) :
    usOf (waveRead t a bits) = 18 * t := by
  rw [waveRead, usOf_append, usOf_append, usOf_slots_of_eq (usOf_waveReadBit t), h]
  simp only [usOf, MicroOp.us]
  omega

theorem usOf_waveWaitFails (n : Nat) : usOf (waveWaitFails n) = 1000 * n := by
  induction n with
  | zero => rfl
  | succ n ih => rw [waveWaitFails, usOf_append, ih]; simp only [usOf, MicroOp.us]; omega

/-- Only the failed polls take time: one millisecond each (R236). -/
theorem usOf_waveWait (n : Nat) (acked : Bool) : usOf (waveWait n acked) = 1000 * n := by
  have last : usOf (if acked then [.sample .sda false] else []) = 0 := by cases acked <;> rfl
  rw [waveWait, usOf_append, usOf_append, usOf_waveWaitFails, last, Nat.add_zero]
  exact Nat.zero_add _

/-! ### The lines afterwards -/

theorem pinsAfter_waveStart (t : Nat) (p : Pins) :
    (pinsAfter (waveStart t) p).sda = ⟨true, false⟩ ∧ (pinsAfter (waveStart t) p).scl = ⟨true, false⟩ := ⟨rfl, rfl⟩

theorem pinsAfter_waveStop (t : Nat) (p : Pins) :
    (pinsAfter (waveStop t) p).sda = ⟨true, true⟩ ∧ (pinsAfter (waveStop t) p).scl = ⟨true, true⟩ := ⟨rfl, rfl⟩

/-- A bus reset leaves the lines as its fresh start condition does (R237). -/
theorem pinsAfter_waveBusReset (t : Nat) (p : Pins) :
    (pinsAfter (waveBusReset t) p).sda = ⟨true, false⟩ ∧ (pinsAfter (waveBusReset t) p).scl = ⟨true, false⟩ := by
  rw [waveBusReset, pinsAfter_append]
  exact pinsAfter_waveStart t _

theorem pinsAfter_waveWrite (t : Nat) (v : Byte) (a : Bool) (p : Pins) :
    (pinsAfter (waveWrite t v a) p).scl = ⟨true, false⟩ ∧ (pinsAfter (waveWrite t v a) p).sda.oe = false := by
  rw [waveWrite_eq, pinsAfter_append]
  exact ⟨rfl, rfl⟩

theorem pinsAfter_waveRead (t : Nat) (a : Bool) (bits : List Bool) (p : Pins) :
    (pinsAfter (waveRead t a bits) p).scl = ⟨true, false⟩ ∧ (pinsAfter (waveRead t a bits) p).sda.oe = false := by
  rw [waveRead, pinsAfter_append]
  exact ⟨rfl, rfl⟩

theorem pinsAfter_waveWaitFails (n : Nat) (p : Pins) : pinsAfter (waveWaitFails n) p = p := by
  induction n with
  | zero => rfl
  | succ n ih => exact ih

/-- However many polls it takes, a wait only releases `SDA` (R236). -/
theorem pinsAfter_waveWait (n : Nat) (acked : Bool) (p : Pins) :
    pinsAfter (waveWait n acked) p = (MicroOp.release .sda).onPins p := by
  have last (q : Pins) : pinsAfter (if acked then [.sample .sda false] else []) q = q := by cases acked <;> rfl
  rw [waveWait, pinsAfter_append, pinsAfter_append, last, pinsAfter_waveWaitFails]
  rfl

end Sys2Proof.Machine
end

section
/-! PROOF. The seven commands of unit I2C (spec 43_i2c_seq.md R240 to R246): each is one procedure and a response that says
what the procedure answered; lines and durations come from the waveform it runs. -/

namespace Sys2Proof.Machine

/-! ### The procedures -/

theorem i2cStart_runs (s : State) : Runs (waveStart s.i2cHalfUs.toNat) 0 s (i2cStart s) := by
  rw [i2cStart_eq]; exact .of_after _ 0 s

theorem i2cStop_runs (s : State) : Runs (waveStop s.i2cHalfUs.toNat) 0 s (i2cStop s) := by
  rw [i2cStop_eq]; exact .of_after _ 0 s

theorem i2cReset_runs (s : State) : Runs (waveBusReset s.i2cHalfUs.toNat) 0 s (i2cReset s) := by
  rw [i2cReset_eq]; exact .of_after _ 0 s

theorem i2cWrite_runs (v : Byte) (s : State) :
    Runs (waveWrite s.i2cHalfUs.toNat v (nextAnswer s)) 1 s (i2cWrite v s).2 := (i2cWrite_spec v s).2

theorem i2cRead_runs (a : Bool) (s : State) :
    Runs (waveRead s.i2cHalfUs.toNat a (answers 8 s)) 8 s (i2cRead a s).2 := (i2cRead_spec a s).2

theorem i2cWait_of_hit {s : State} {k : Nat} (hk : k < 500) (h : gives s (List.replicate k true ++ [false])) :
    (i2cWait s).1 = true ∧ Runs (waveWait k true) (k + 1) s (i2cWait s).2 :=
  i2cWait_hit k s hk (by simpa [gives] using h)

theorem i2cWait_of_miss {s : State} (h : gives s (List.replicate 500 true)) :
    (i2cWait s).1 = false ∧ Runs (waveWait 500 false) 500 s (i2cWait s).2 :=
  i2cWait_miss s (by rwa [gives, List.length_replicate] at h)

/-! ### `I2C.START`, `I2C.STOP`, `I2C.RESET` (R241, R242, R246) -/

/-- What a command that only runs one waveform leaves: the waveform's lines and its time. -/
theorem waveform_leaves {s t : State} {ops : List MicroOp} {sda scl : Latch} {d : Nat} (h : Runs ops 0 (accept s) t)
    (lines : ∀ p, (pinsAfter ops p).sda = sda ∧ (pinsAfter ops p).scl = scl) (time : usOf ops = d) :
    settled (respond .ok 0 t) = settled (answered .ok 0 (ran ops 0 s)) ∧
      (respond .ok 0 t).pins.sda = sda ∧ (respond .ok 0 t).pins.scl = scl ∧ (respond .ok 0 t).time = s.time + d := by
  have law := h.respond .ok 0
  have run := Performed.of_command law
  obtain ⟨hsda, hscl⟩ := lines s.pins
  exact ⟨law, run.pins ▸ hsda, run.pins ▸ hscl, time ▸ run.time⟩

/-- Settles O29: each command responds after its one fixed waveform. -/
theorem i2cFixedSequences : Obligations.I2cFixedSequences := by
  refine ⟨decodeOfEncode .i2cStart, decodeOfEncode .i2cStop, decodeOfEncode .i2cReset, fun s => ⟨?start, ?stop, ?reset⟩⟩
  case start => exact ⟨_, rfl, waveform_leaves (i2cStart_runs (accept s)) (pinsAfter_waveStart _) (usOf_waveStart _)⟩
  case stop => exact ⟨_, rfl, waveform_leaves (i2cStop_runs (accept s)) (pinsAfter_waveStop _) (usOf_waveStop _)⟩
  case reset =>
    exact ⟨_, rfl, waveform_leaves (i2cReset_runs (accept s)) (pinsAfter_waveBusReset _) (usOf_waveBusReset _)⟩

/-! ### `I2C.WRITE` (R243) -/

/-- The response says whether the one sample acknowledged the byte. -/
theorem exec_i2cWrite (v : Byte) (s : State) :
    exec (.i2cWrite v) s = .next (respond (if nextAnswer s then .noAck else .ok) (if nextAnswer s then 0 else 1)
      (i2cWrite v (accept s)).2) := by
  have acked : (i2cWrite v (accept s)).1 = !nextAnswer s := (i2cWrite_spec v (accept s)).1
  cases h : nextAnswer s with
  | true => simp [exec, execI2cWrite, acked, h, raise_eq]
  | false => simp [exec, execI2cWrite, acked, h, ret_eq]

/-- Settles O30: `exec_i2cWrite`, and the waveform of `i2c_write`. -/
theorem i2cWriteResult : Obligations.I2cWriteResult := by
  intro v
  have word : encode (.i2cWrite v) = .cmd32 (0x12000000 ||| v.setWidth 32) := congrArg Code.cmd32 (commandWord_byte 1 2 v)
  refine ⟨by rw [← word, decodeOfEncode], fun s => ?_⟩
  have law := (i2cWrite_runs v (accept s)).respond (if nextAnswer s then .noAck else .ok)
    (if nextAnswer s then 0 else 1)
  have run := Performed.of_command law
  obtain ⟨scl, sda⟩ := pinsAfter_waveWrite s.i2cHalfUs.toNat v (nextAnswer s) s.pins
  exact ⟨_, exec_i2cWrite v s, law, (congrArg List.length (trace_of_command law)).trans (length_waveWrite _ v _),
    run.pins ▸ scl, run.pins ▸ sda, usOf_waveWrite s.i2cHalfUs.toNat v (nextAnswer s) ▸ run.time⟩

/-! ### `I2C.READ` (R244) -/

/-- The response is the number of the eight answers, most significant first. -/
theorem exec_i2cRead (a : Bool) (s : State) :
    exec (.i2cRead a) s =
      .next (respond .ok (BitVec.ofNat 64 (msbValue (answers 8 s))) (i2cRead a (accept s)).2) := by
  have value : (i2cRead a (accept s)).1 = BitVec.ofNat 8 (msbValue (answers 8 s)) :=
    answers_accept 8 s ▸ (i2cRead_spec a (accept s)).1
  rw [← zext64_msbValue (answers_length 8 s), ← value]
  rfl

/-- Settles O31: `exec_i2cRead`, and the waveform of `i2c_read` with its eight answers. -/
theorem i2cReadResult : Obligations.I2cReadResult := by
  intro a
  have word : encode (.i2cRead a) = .cmd32 (if a then 0x13000001 else 0x13000000) := by cases a <;> rfl
  refine ⟨by rw [← word, decodeOfEncode], fun s => ?_⟩
  have eight := answers_length 8 s
  have reading := i2cRead_runs a (accept s)
  rw [answers_accept, accept_i2cHalfUs] at reading
  have law := reading.respond .ok (BitVec.ofNat 64 (msbValue (answers 8 s)))
  have run := Performed.of_command law
  obtain ⟨scl, sda⟩ := pinsAfter_waveRead s.i2cHalfUs.toNat a (answers 8 s) s.pins
  exact ⟨_, exec_i2cRead a s, law, (congrArg List.length (trace_of_command law)).trans (length_waveRead _ a eight),
    run.pins ▸ scl, run.pins ▸ sda, usOf_waveRead s.i2cHalfUs.toNat a eight ▸ run.time⟩

/-! ### `I2C.WAIT` (R245) -/

theorem exec_i2cWait_of_acked {s : State} (h : (i2cWait (accept s)).1 = true) :
    exec .i2cWait s = .next (respond .ok 1 (i2cWait (accept s)).2) := by
  simp [exec, execI2cWait, h, ret_eq]

theorem exec_i2cWait_of_expired {s : State} (h : (i2cWait (accept s)).1 = false) :
    exec .i2cWait s = .next (respond .waitTimeout 0 (i2cWait (accept s)).2) := by
  simp [exec, execI2cWait, h, raise_eq]

/-- What every `I2C.WAIT` of `n` failed polls leaves: a millisecond spent on each, `SDA` released, `SCL` untouched. -/
theorem wait_leaves {s t : State} {n m : Nat} {acked : Bool} (h : Performed (waveWait n acked) m s t) :
    t.time = s.time + 1000 * n ∧ t.pins.sda.oe = false ∧ t.pins.scl = s.pins.scl := by
  rw [h.time, h.pins, usOf_waveWait, pinsAfter_waveWait]
  exact ⟨rfl, rfl, rfl⟩

/-- Settles O32: the poll that answers 0 ends the wait with `OK`, 500 polls that answer 1 with `WAIT_TIMEOUT`. -/
theorem i2cWaitResult : Obligations.I2cWaitResult := by
  refine ⟨decodeOfEncode .i2cWait, fun s k hk hg => ?hit, fun s hg => ?miss⟩
  case hit =>
    obtain ⟨acked, waiting⟩ := i2cWait_of_hit hk ((gives_accept s _).mpr hg)
    have law := waiting.respond .ok 1
    exact ⟨_, exec_i2cWait_of_acked acked, law, wait_leaves (.of_command law)⟩
  case miss =>
    obtain ⟨expired, waiting⟩ := i2cWait_of_miss ((gives_accept s _).mpr hg)
    have law := waiting.respond .waitTimeout 0
    exact ⟨_, exec_i2cWait_of_expired expired, law, wait_leaves (.of_command law)⟩

/-! ### `I2C.SETFREQ` (R240) -/

/-- The floor is at most 500000, which 20 bits hold. -/
theorem toNat_halfCycle (hz : BitVec 24) : (halfCycle hz).toNat = 500000 / hz.toNat := by
  have floor : 500000 / hz.toNat ≤ 500000 := Nat.div_le_self _ _
  rw [halfCycle, BitVec.toNat_ofNat, Nat.mod_eq_of_lt (by omega)]

/-- Settles O33: 0 is refused by value; any other operand sets the half-cycle delay, without bus activity. -/
theorem i2cSetfreqResult : Obligations.I2cSetfreqResult := by
  intro hz
  have word : encode (.i2cSetfreq hz) = .cmd32 (0x16000000 ||| hz.setWidth 32) :=
    congrArg Code.cmd32 (commandWord_eq_or 1 6 hz)
  refine ⟨by rw [← word, decodeOfEncode], fun s => ?_⟩
  by_cases zero : hz = 0
  · subst zero
    exact ⟨_, exec_i2cSetfreq_zero s, fun _ => (Runs.refl (accept s)).respond .illegal 0, fun nonzero => absurd rfl nonzero⟩
  · have nothing := (Runs.refl (accept s)).respond .ok 0
    exact ⟨_, exec_i2cSetfreq_of_ne_zero zero s, fun h => absurd h zero,
      fun _ => ⟨congrArg (fun t : State => { t with i2cHalfUs := halfCycle hz }) nothing, toNat_halfCycle hz⟩⟩

end Sys2Proof.Machine
end

section
/-! SUPPORT. The numbers the responses of unit RS are made of (spec 20_memory.md R73, R77, R78, R79): fields placed one above
the other, bytes read one after the other, one bit replaced. -/

namespace Sys2Proof.Machine

/-! ### Fields one above the other -/

theorem zext64_eq_ofNat {n : Nat} (v : BitVec n) : zext64 v = BitVec.ofNat 64 v.toNat := (BitVec.ofNat_toNat 64 v).symm

theorem bit64_eq_ofNat (b : Bool) : bit64 b = BitVec.ofNat 64 b.toNat := by cases b <;> rfl

theorem ofNat_shiftLeft (a n : Nat) : BitVec.ofNat 64 (a <<< n) = BitVec.ofNat 64 a <<< n := by
  apply BitVec.eq_of_toNat_eq
  simp [Nat.shiftLeft_eq]

/-- A field shifted above the one it is or-ed to is a digit above it. -/
theorem ofNat_shiftLeft_or {a b n : Nat} (hb : b < 2 ^ n) :
    BitVec.ofNat 64 a <<< n ||| BitVec.ofNat 64 b = BitVec.ofNat 64 (a * 2 ^ n + b) := by
  rw [← Nat.shiftLeft_eq, Nat.shiftLeft_add_eq_or_of_lt hb, BitVec.ofNat_or, ofNat_shiftLeft]

theorem toNat_append_eq_add {m n : Nat} (hi : BitVec m) (lo : BitVec n) :
    (hi ++ lo).toNat = hi.toNat * 2 ^ n + lo.toNat := by
  rw [BitVec.toNat_append, ← Nat.shiftLeft_add_eq_or_of_lt lo.isLt, Nat.shiftLeft_eq]

theorem zext64_word32 (hi lo : BitVec 16) :
    zext64 (word32 hi lo) = BitVec.ofNat 64 (65536 * hi.toNat + lo.toNat) := by
  rw [zext64_eq_ofNat, word32, toNat_append_eq_add, Nat.mul_comm]
  rfl

/-! ### Bits read most significant first -/

theorem msbValue_append (xs ys : List Bool) : msbValue (xs ++ ys) = 2 ^ ys.length * msbValue xs + msbValue ys := by
  simp only [msbValue_eq_lsbValue_reverse, List.reverse_append, lsbValue_append, List.length_reverse, Nat.add_comm]

theorem msbValue_lt {bits : List Bool} {n : Nat} (h : bits.length = n) : msbValue bits < 2 ^ n := by
  rw [msbValue_eq_lsbValue_reverse, ← h, ← List.length_reverse]
  exact lsbValue_lt _

theorem toNat_ofNat_msbValue {bits : List Bool} {n : Nat} (h : bits.length = n) :
    (BitVec.ofNat n (msbValue bits)).toNat = msbValue bits := by
  rw [BitVec.toNat_ofNat, Nat.mod_eq_of_lt (msbValue_lt h)]

/-- Of two bytes read one after the other by unit I2C the first is the high one (R77). -/
theorem word16_msbValue {xs ys : List Bool} (hx : xs.length = 8) (hy : ys.length = 8) :
    word16 (BitVec.ofNat 8 (msbValue xs)) (BitVec.ofNat 8 (msbValue ys)) = BitVec.ofNat 16 (msbValue (xs ++ ys)) := by
  apply BitVec.eq_of_toNat_eq
  rw [word16, toNat_append_eq_add, toNat_ofNat_msbValue hx, toNat_ofNat_msbValue hy,
    toNat_ofNat_msbValue (by rw [List.length_append, hx, hy]), msbValue_append, hy, Nat.mul_comm]

/-! ### One bit replaced -/

theorem getLsbD_putBit {m : Nat} (v : BitVec m) {i : Nat} (hi : i < m) (b : Bool) (n : Nat) :
    (putBit v i b).getLsbD n = if n = i then b else v.getLsbD n := by
  have mask : (1#m <<< i).getLsbD n = decide (n = i) := by
    by_cases at_i : n = i
    · subst at_i; simp [hi]
    · simp [at_i]; omega
  by_cases inside : n < m
  · cases b with
    | false =>
      rw [putBit, if_neg (by decide), BitVec.getLsbD_and, BitVec.getLsbD_not, mask]
      by_cases at_i : n = i <;> simp [at_i, inside]
    | true =>
      rw [putBit, if_pos rfl, BitVec.getLsbD_or, mask]
      by_cases at_i : n = i <;> simp [at_i]
  · have off : n ≠ i := by omega
    rw [BitVec.getLsbD_of_ge _ _ (by omega), BitVec.getLsbD_of_ge _ _ (by omega), if_neg off]

end Sys2Proof.Machine
end

section
/-! SUPPORT. What a guarded command of unit RS is made of (spec 44_regsensor.md R272, R273, R276): the busy guard, the
registers its body writes, and its transactions as what they report, run and write. -/

namespace Sys2Proof.Machine

/-! ### The busy guard (R272) -/

theorem pollTimes_of_break {body : State → Bool × State} {s t : State} (h : body s = (true, t)) {n : Nat} (hn : 0 < n) :
    pollTimes body n s = (true, t) := by
  obtain ⟨m, rfl⟩ : ∃ m, n = m + 1 := ⟨n - 1, by omega⟩
  simp [pollTimes, h]

/-- A turn that neither breaks nor changes anything is the same at every turn. -/
theorem pollTimes_of_stuck {body : State → Bool × State} {s : State} (h : body s = (false, s)) (n : Nat) :
    pollTimes body n s = (false, s) := by
  induction n with
  | zero => rfl
  | succ n ih => rw [pollTimes, h]; exact ih

theorem rsAcquire_of_free {s : State} (free : s.rsReady = true) (lim : withinLimit s.par.rsSpinLimit 0 = true) :
    rsAcquire s = (.done, s) := by
  have turns : 0 < s.par.rsSpinLimit.getD (max 1 s.script.length) := by
    cases hl : s.par.rsSpinLimit with
    | none => simp
    | some n => simpa [hl, withinLimit] using lim
  rw [rsAcquire, poll_eq, pollTimes_of_break (t := s) (by rw [free]) turns]
  rfl

/-- The flag never free, or no turn to find it free in (log 3). -/
theorem rsAcquire_of_limit {s : State} {n : Nat} (hl : s.par.rsSpinLimit = some n) (h : s.rsReady = false ∨ n = 0) :
    rsAcquire s = (.limit, s) := by
  have turns : pollTimes (fun t => (t.rsReady, t)) n s = (false, s) := by
    rcases h with h | rfl
    · exact pollTimes_of_stuck (by rw [h]) n
    · rfl
  rw [rsAcquire, hl, poll_eq, Option.getD_some, turns]
  rfl

theorem rsAcquire_of_unbounded {s : State} (hl : s.par.rsSpinLimit = none) (h : s.rsReady = false) :
    rsAcquire s = (.waiting, s) := by
  rw [rsAcquire, hl, poll_eq, pollTimes_of_stuck (by rw [h])]
  rfl

/-- The state in which the body of a guarded command begins: accepted, and the flag taken (R272). -/
def acquired (s : State) : State := { accept s with rsReady := false }

theorem exec_guarded (g : Guarded) (s : State) : exec (guardedInstr g) s = .next (rsGuarded g (accept s)) := by
  cases g <;> rfl

theorem exec_guarded_of_free (g : Guarded) {s : State} (free : s.rsReady = true)
    (lim : withinLimit s.par.rsSpinLimit 0 = true) : exec (guardedInstr g) s = .next (guardedBody g (acquired s)) := by
  rw [exec_guarded, rsGuarded, rsAcquire_of_free (s := accept s) free lim]
  rfl

theorem gives_oracle {s t : State} (h : s.script = t.script) (k : s.freeCount = t.freeCount) (as : List Bool) :
    gives s as ↔ gives t as := by
  rw [gives, answers_oracle _ h k, gives]

theorem gives_acquired (s : State) (as : List Bool) : gives (acquired s) as ↔ gives s as :=
  gives_oracle (s := acquired s) (t := s) rfl rfl as

/-! ### The registers a body writes (10_state.md R35, R36) -/

/-- The cached status register and the two cached readings. -/
structure RsCache where
  status : Byte
  rawTemp : BitVec 16
  rawHum : BitVec 16

/-- The cache of a state. -/
def State.rsCache (s : State) : RsCache := ⟨s.rsStatus, s.rsRawTemp, s.rsRawHum⟩

/-- `s` with its cache rewritten by `w`. -/
def storeCache (w : RsCache → RsCache) (s : State) : State :=
  { s with
    rsStatus := (w s.rsCache).status, rsRawTemp := (w s.rsCache).rawTemp, rsRawHum := (w s.rsCache).rawHum }

theorem storeCache_id (s : State) : storeCache id s = s := rfl

theorem setStatus_eq_storeCache (b : Byte) (s : State) :
    { s with rsStatus := b } = storeCache (fun c => { c with status := b }) s := rfl

theorem after_storeCache (ops : List MicroOp) (w : RsCache → RsCache) (s : State) :
    after ops (storeCache w s) = storeCache w (after ops s) := rfl

theorem rsCache_takeAnswers (n : Nat) (s : State) : (takeAnswers n s).rsCache = s.rsCache := by simp [State.rsCache]

theorem takeAnswer_storeCache (w : RsCache → RsCache) (s : State) :
    takeAnswer (storeCache w s) = storeCache w (takeAnswer s) := by
  unfold takeAnswer
  rw [show (storeCache w s).script = s.script from rfl]
  split <;> rfl

theorem takeAnswers_storeCache (w : RsCache → RsCache) (n : Nat) (s : State) :
    takeAnswers n (storeCache w s) = storeCache w (takeAnswers n s) := by
  induction n generalizing s with
  | zero => rfl
  | succ n ih => rw [takeAnswers, takeAnswer_storeCache, ih, takeAnswers]

theorem takeAnswer_rsReady_eq (b : Bool) (s : State) :
    takeAnswer { s with rsReady := b } = { takeAnswer s with rsReady := b } := by
  unfold takeAnswer
  dsimp only
  split <;> rfl

theorem takeAnswers_rsReady_eq (b : Bool) (n : Nat) (s : State) :
    takeAnswers n { s with rsReady := b } = { takeAnswers n s with rsReady := b } := by
  induction n generalizing s with
  | zero => rfl
  | succ n ih => rw [takeAnswers, takeAnswer_rsReady_eq, ih, takeAnswers]

/-! ### What runs on the lines and writes the cache -/

/-- From `s` to `t` the block has run `ops`, taken `n` answers and rewritten the cache by `w`; nothing else persistent has
changed. -/
def RunsStoring (ops : List MicroOp) (n : Nat) (w : RsCache → RsCache) (s t : State) : Prop :=
  settled t = storeCache w (after ops (takeAnswers n (settled s)))

section

variable {xs ys : List MicroOp} {m n : Nat} {v w : RsCache → RsCache} {s t u : State}

theorem Runs.store (h : Runs xs n s t) (w : RsCache → RsCache) : RunsStoring xs n w s (storeCache w t) :=
  congrArg (storeCache w) h

namespace RunsStoring

theorem of_runs (h : Runs xs n s t) : RunsStoring xs n id s t := h

theorem of_store (h : RunsStoring xs n w (storeCache v s) t) : RunsStoring xs n (w ∘ v) s t := by
  have start : settled (storeCache v s) = storeCache v (settled s) := rfl
  rw [RunsStoring, start, takeAnswers_storeCache] at h
  exact h

theorem trans (h : RunsStoring xs m v s t) (k : RunsStoring ys n w t u) :
    RunsStoring (xs ++ ys) (m + n) (w ∘ v) s u := by
  rw [RunsStoring, h, takeAnswers_storeCache, takeAnswers_after] at k
  rw [RunsStoring, k, takeAnswers_add, ← after_after]
  rfl

theorem settled_eq (h : RunsStoring xs n w s t) : settled t = settled (storeCache w (after xs (takeAnswers n s))) := by
  rw [h, ← settled_takeAnswers]; rfl

theorem rsCache_eq (h : RunsStoring xs n w s t) : t.rsCache = w s.rsCache := by
  have stored : t.rsCache = w (takeAnswers n s).rsCache := congrArg State.rsCache h.settled_eq
  rw [stored, rsCache_takeAnswers]

theorem i2cHalfUs_eq (h : RunsStoring xs n w s t) : t.i2cHalfUs = s.i2cHalfUs :=
  (congrArg State.i2cHalfUs h.settled_eq :).trans (takeAnswers_i2cHalfUs n s)

theorem gives_iff (h : RunsStoring xs n w s t) (as : List Bool) : gives t as ↔ gives (takeAnswers n s) as :=
  gives_oracle (s := t) (t := takeAnswers n s) (congrArg State.script h.settled_eq :)
    (congrArg State.freeCount h.settled_eq :) as

/-- A body between the guard and `rs_release` (R272): the flag is 1 again, so nothing but the cache is rewritten. -/
theorem respond_released (free : s.rsReady = true) (h : RunsStoring xs n w (acquired s) t) (st : Status)
    (data : BitVec 64) :
    settled (respond st data (rsRelease t)) = settled (answered st data (storeCache w (ran xs n s))) := by
  generalize hv : takeAnswers n (settled (accept s)) = v
  have ready : { v with rsReady := true } = v := by
    rw [show true = v.rsReady by rw [← hv, takeAnswers_rsReady]; exact free.symm]
  have start : takeAnswers n (settled (acquired s)) = { v with rsReady := false } := by
    rw [← hv, ← takeAnswers_rsReady_eq]; rfl
  have body : settled (rsRelease t) = storeCache w (after xs v) := by
    rw [RunsStoring, start] at h
    calc settled (rsRelease t) = { settled t with rsReady := true } := rfl
      _ = storeCache w (after xs { v with rsReady := true }) := by rw [h]; rfl
      _ = storeCache w (after xs v) := by rw [ready]
  rw [settled_respond, body, ← hv, settled_accept, takeAnswers_accept, ← settled_takeAnswers]
  rfl

end RunsStoring

end

/-! ### Transactions -/

/-- The transaction `r`, begun in `s`, reports `st`, having run `ops` on `n` answers and rewritten the cache by `w`. -/
structure Transacts (st : Status) (ops : List MicroOp) (n : Nat) (w : RsCache → RsCache) (s : State)
    (r : Status × State) : Prop where
  status : r.1 = st
  runs : RunsStoring ops n w s r.2

/-- The end of a command that is one transaction, or one after the other: `rs_release`, then the response, whose data is
made of the cache as it then is (R278, R280, R281). -/
def endTransaction (data : RsCache → BitVec 64) (r : Status × State) : State :=
  respond r.1 (data r.2.rsCache) (rsRelease r.2)

section

variable {g : Guarded} {st : Status} {xs ys : List MicroOp} {m n : Nat} {v w : RsCache → RsCache} {s : State}
  {q r : Status × State}

theorem Transacts.trans (h : Transacts .ok xs m v s q) (k : Transacts st ys n w q.2 r) :
    Transacts st (xs ++ ys) (m + n) (w ∘ v) s r :=
  ⟨k.status, h.runs.trans k.runs⟩

/-- The law of a guarded command whose body ends in this way. -/
theorem exec_guarded_transaction {data : RsCache → BitVec 64}
    (body : guardedBody g (acquired s) = endTransaction data r) (free : s.rsReady = true)
    (lim : withinLimit s.par.rsSpinLimit 0 = true) (h : Transacts st xs n w (acquired s) r) :
    ∃ t, exec (guardedInstr g) s = .next t ∧
      settled t = settled (answered st (data (w s.rsCache)) (storeCache w (ran xs n s))) := by
  refine ⟨_, exec_guarded_of_free g free lim, ?_⟩
  rw [body, endTransaction, h.status, h.runs.rsCache_eq]
  exact h.runs.respond_released free st _

end

/-- The answers a measurement read takes that succeeds after `j` failed polls: the acknowledge, the polls, two bytes. -/
def measureAnswers (j : Nat) (hi lo : List Bool) : List Bool :=
  false :: (List.replicate j true ++ [false] ++ hi ++ lo)

theorem length_measureAnswers {hi lo : List Bool} (hh : hi.length = 8) (hl : lo.length = 8) (j : Nat) :
    (measureAnswers j hi lo).length = j + 18 := by
  simp [measureAnswers, hh, hl]

section

variable (cmd : Byte) (w : BitVec 16 → RsCache → RsCache) {s : State}

theorem rsReadMeasurement_refused (h : nextAnswer s = true) :
    Transacts .noAck (waveRefused s.i2cHalfUs.toNat cmd) 1 id s
      (rsReadMeasurement cmd (fun x => storeCache (w x)) s) := by
  obtain ⟨status, runs⟩ := rsReadMeasurement_noAck cmd (fun x => storeCache (w x)) s h
  exact ⟨status, .of_runs runs⟩

theorem rsReadMeasurement_timedOut (h : gives s (false :: List.replicate 500 true)) :
    Transacts .waitTimeout (waveMeasureExpired s.i2cHalfUs.toNat cmd) 501 id s
      (rsReadMeasurement cmd (fun x => storeCache (w x)) s) := by
  obtain ⟨status, runs⟩ := rsReadMeasurement_expired cmd (fun x => storeCache (w x)) s h
  exact ⟨status, .of_runs runs⟩

/-- The reading stored is the number of its sixteen bits, the high byte's first (R273, R77). -/
theorem rsReadMeasurement_stores {j : Nat} {hi lo : List Bool} (hj : j < 500) (hh : hi.length = 8) (hl : lo.length = 8)
    (h : gives s (measureAnswers j hi lo)) :
    Transacts .ok (waveMeasure s.i2cHalfUs.toNat cmd j hi lo) (j + 18) (w (BitVec.ofNat 16 (msbValue (hi ++ lo)))) s
      (rsReadMeasurement cmd (fun x => storeCache (w x)) s) := by
  obtain ⟨status, u, reading, stop⟩ :=
    rsReadMeasurement_ok cmd (fun x => storeCache (w x)) s j hi lo hj hh hl h fun _ _ => ⟨rfl, rfl⟩
  refine ⟨status, ?_⟩
  rw [reading, word16_msbValue hh hl] at stop
  rw [RunsStoring, stop, after_storeCache, after_after, waveMeasure]

end

theorem rsReadStatus_refused {s : State} (h : nextAnswer s = true) :
    Transacts .noAck (waveRefused s.i2cHalfUs.toNat 0x07) 1 id s (rsReadStatus s) := by
  obtain ⟨status, runs⟩ := rsReadStatus_noAck s h
  exact ⟨status, .of_runs runs⟩

theorem rsReadStatus_stores {s : State} {bits : List Bool} (hb : bits.length = 8) (h : gives s (false :: bits)) :
    Transacts .ok (waveStatusRead s.i2cHalfUs.toNat bits) 9
      (fun c => { c with status := BitVec.ofNat 8 (msbValue bits) }) s (rsReadStatus s) := by
  obtain ⟨status, runs⟩ := rsReadStatus_ok s bits hb h
  exact ⟨status, runs.trans (setStatus_eq_storeCache _ _)⟩

theorem rsWritereg_refused {s : State} (h : nextAnswer s = true) :
    Transacts .noAck (waveRefused s.i2cHalfUs.toNat 0x06) 1 id s (rsWritereg s) := by
  obtain ⟨status, runs⟩ := rsWritereg_noAck s h
  exact ⟨status, .of_runs runs⟩

theorem rsWritereg_sends {s : State} {a : Bool} (h : gives s [false, a]) :
    Transacts (if a then .noAck else .ok) (waveRegisterWrite s.i2cHalfUs.toNat (s.rsStatus &&& 0x07) a) 2 id s
      (rsWritereg s) := by
  obtain ⟨status, runs⟩ := rsWritereg_sent s a h
  exact ⟨status, .of_runs runs⟩

/-! ### The body of `RS.RESET` (R279) -/

theorem rsCommand_runs (cmd : Byte) (s : State) :
    Runs (waveStart s.i2cHalfUs.toNat ++ waveWrite s.i2cHalfUs.toNat cmd (nextAnswer s)) 1 s (rsCommand cmd s).2 :=
  (rsCommand_spec cmd s).2

/-- The body of `RS.RESET` before its release: the command byte, stop, the cache cleared, the delay. -/
def rsResetRun (s : State) : State :=
  after [.delayMs s.par.rsTPowerupMs] (storeCache (fun _ => ⟨0, 0, 0⟩) (i2cStop (rsCommand Config.rsResetDevice s).2))

theorem rsResetBody_eq (s : State) :
    rsResetBody s = respond (if nextAnswer s then .noAck else .ok) 0 (rsRelease (rsResetRun s)) := by
  have acked : (rsCommand Config.rsResetDevice s).1 = !nextAnswer s := (rsCommand_spec _ s).1
  have par : (i2cStop (rsCommand Config.rsResetDevice s).2).par = s.par := by rw [i2cStop_eq]; simp
  rw [rsResetRun, ← par, ← perform_eq_after]
  unfold rsResetBody
  dsimp only
  rw [acked]
  cases nextAnswer s <;> rfl

theorem rsResetRun_runs (s : State) :
    RunsStoring (waveStart s.i2cHalfUs.toNat ++ waveWrite s.i2cHalfUs.toNat 0x1E (nextAnswer s) ++
      waveStop s.i2cHalfUs.toNat ++ [.delayMs s.par.rsTPowerupMs]) 1 (fun _ => ⟨0, 0, 0⟩) s (rsResetRun s) := by
  have stop := i2cStop_runs (rsCommand Config.rsResetDevice s).2
  rw [rsCommand_halfUs] at stop
  have sent := ((rsCommand_runs Config.rsResetDevice s).trans stop).store fun _ => ⟨0, 0, 0⟩
  exact sent.trans (.of_runs (.of_after [.delayMs s.par.rsTPowerupMs] 0 _))

/-! ### Every transaction ends in a stop condition (R291) -/

/-- Both lines of unit I2C are driven high, as a stop condition leaves them. -/
def BusStopped (s : State) : Prop := s.pins.sda = ⟨true, true⟩ ∧ s.pins.scl = ⟨true, true⟩

theorem i2cStop_stopped (s : State) : BusStopped (i2cStop s) := by
  rw [i2cStop_eq]
  exact pinsAfter_waveStop _ _

theorem rsReadMeasurement_stopped (cmd : Byte) (store : BitVec 16 → State → State) (s : State) :
    BusStopped (rsReadMeasurement cmd store s).2 := by
  unfold rsReadMeasurement
  dsimp only
  split
  · split <;> exact i2cStop_stopped _
  · exact i2cStop_stopped _

theorem rsReadStatus_stopped (s : State) : BusStopped (rsReadStatus s).2 := by
  unfold rsReadStatus
  dsimp only
  split <;> exact i2cStop_stopped _

theorem rsWritereg_stopped (s : State) : BusStopped (rsWritereg s).2 := by
  unfold rsWritereg
  dsimp only
  split <;> exact i2cStop_stopped _

end Sys2Proof.Machine
end

section
/-! PROOF. The three commands of unit RS that touch no line (spec 44_regsensor.md R284 to R289): a response made of cached
fields, and what the host makes of them. -/

namespace Sys2Proof.Machine

/-! ### The data of the two getters (R285, R286) -/

theorem rsSelectors_eq_ofNat (s : State) :
    rsSelectors s = BitVec.ofNat 64 ((2 * s.rsScale.toNat + (s.rsStatus.getLsbD 0).toNat) * 2 ^ 16) := by
  rw [rsSelectors, flagRes]
  cases s.rsScale <;> cases s.rsStatus.getLsbD 0 <;> rfl

/-- `RS_RAW_TEMP` below the selectors (R285). -/
theorem gettempData_eq (s : State) :
    rsSelectors s ||| zext64 s.rsRawTemp = BitVec.ofNat 64
      (s.rsRawTemp.toNat + 65536 * (s.rsStatus.getLsbD 0).toNat + 131072 * s.rsScale.toNat) := by
  rw [rsSelectors_eq_ofNat, ← Nat.shiftLeft_eq, ofNat_shiftLeft, zext64_eq_ofNat, ofNat_shiftLeft_or s.rsRawTemp.isLt]
  congr 1
  omega

/-- `RS_RAW_TEMP` above, `RS_RAW_HUM` below the selectors (R286). -/
theorem gethumData_eq (s : State) :
    (zext64 s.rsRawTemp <<< 32) ||| rsSelectors s ||| zext64 s.rsRawHum = BitVec.ofNat 64
      (s.rsRawHum.toNat + 65536 * (s.rsStatus.getLsbD 0).toNat + 131072 * s.rsScale.toNat +
        4294967296 * s.rsRawTemp.toNat) := by
  have hum := s.rsRawHum.isLt
  have scale := Bool.toNat_le s.rsScale
  have res := Bool.toNat_le (s.rsStatus.getLsbD 0)
  rw [rsSelectors_eq_ofNat, ← Nat.shiftLeft_eq, ofNat_shiftLeft, BitVec.or_assoc, zext64_eq_ofNat s.rsRawHum,
    ofNat_shiftLeft_or hum, zext64_eq_ofNat, ofNat_shiftLeft_or (by omega)]
  congr 1
  omega

/-! ### The fields read back -/

theorem getLsbD_of_digit {x i : Nat} {b : Bool} (hi : i < 64) (h : x / 2 ^ i % 2 = b.toNat) :
    (BitVec.ofNat 64 x).getLsbD i = b := by
  rw [BitVec.getLsbD_ofNat, decide_eq_true hi, Bool.true_and, Nat.testBit_eq_decide_div_mod_eq, h]
  cases b <;> rfl

theorem extractLsb'_of_digits {x i : Nat} {v : BitVec 16} (hx : x < 2 ^ 64) (h : x / 2 ^ i % 2 ^ 16 = v.toNat) :
    (BitVec.ofNat 64 x).extractLsb' i 16 = v := by
  apply BitVec.eq_of_toNat_eq
  rw [BitVec.extractLsb'_toNat, BitVec.toNat_ofNat, Nat.mod_eq_of_lt hx, Nat.shiftRight_eq_div_pow, h]

section

variable {K : Type} [Ring K] (c : Calibration K) (raw other : BitVec 16) (res scale : Bool)

theorem rsTemperatureOf_fields :
    rsTemperatureOf c (BitVec.ofNat 64 (raw.toNat + 65536 * res.toNat + 131072 * scale.toNat)) =
      rsTemperature c raw scale res := by
  have hraw := raw.isLt
  have hres := Bool.toNat_le res
  have hscale := Bool.toNat_le scale
  rw [rsTemperatureOf, extractLsb'_of_digits (v := raw) (by omega) (by omega),
    getLsbD_of_digit (b := scale) (by decide) (by omega), getLsbD_of_digit (b := res) (by decide) (by omega)]

theorem rsHumidityOf_fields :
    rsHumidityOf c (BitVec.ofNat 64
        (raw.toNat + 65536 * res.toNat + 131072 * scale.toNat + 4294967296 * other.toNat)) =
      rsHumidity c raw other res := by
  have hraw := raw.isLt
  have hother := other.isLt
  have hres := Bool.toNat_le res
  have hscale := Bool.toNat_le scale
  rw [rsHumidityOf, extractLsb'_of_digits (v := raw) (by omega) (by omega),
    extractLsb'_of_digits (v := other) (by omega) (by omega), getLsbD_of_digit (b := res) (by decide) (by omega)]

end

/-! ### The commands -/

theorem exec_rsGettemp (s : State) : exec .rsGettemp s = .next (respond .ok (BitVec.ofNat 64
    (s.rsRawTemp.toNat + 65536 * (s.rsStatus.getLsbD 0).toNat + 131072 * s.rsScale.toNat)) (accept s)) := by
  rw [← gettempData_eq]; rfl

/-- Settles O34: the data by `exec_rsGettemp`, its fields read back, and the idempotence of O59. -/
theorem rsGettempResult : Obligations.RsGettempResult := by
  refine ⟨decodeOfEncode .rsGettemp, fun s => ?_⟩
  obtain ⟨t, he, -, again⟩ := rsGettemp_settlesAtOnce s
  obtain rfl := Host.Outcome.next.inj ((exec_rsGettemp s).symm.trans he)
  exact ⟨_, he, (Runs.refl (accept s)).respond .ok _, fun K _ c => rsTemperatureOf_fields c _ _ _, again⟩

theorem exec_rsGethum (s : State) : exec .rsGethum s = .next (respond .ok (BitVec.ofNat 64
    (s.rsRawHum.toNat + 65536 * (s.rsStatus.getLsbD 0).toNat + 131072 * s.rsScale.toNat +
      4294967296 * s.rsRawTemp.toNat)) (accept s)) := by
  rw [← gethumData_eq]; rfl

/-- Settles O35: the data by `exec_rsGethum`, its fields read back. -/
theorem rsGethumResult : Obligations.RsGethumResult :=
  ⟨decodeOfEncode .rsGethum, fun s => ⟨_, exec_rsGethum s, (Runs.refl (accept s)).respond .ok _,
    fun _ _ c => rsHumidityOf_fields c _ _ _ _⟩⟩

/-- Settles O36: an answer, and the one register written. -/
theorem rsSetscaleResult : Obligations.RsSetscaleResult := by
  intro b
  have word : encode (.rsSetscale b) = .cmd32 (if b then 0x26000001 else 0x26000000) := by cases b <;> rfl
  refine ⟨by rw [← word, decodeOfEncode], fun s => ?_⟩
  have answer := (Runs.refl (accept s)).respond .ok (bit64 b)
  rw [← bit64_eq]
  exact ⟨_, rfl, congrArg (fun t : State => { t with rsScale := b }) answer⟩

end Sys2Proof.Machine
end

section
/-! PROOF. The guard of the guarded commands when it is not free (spec 44_regsensor.md R272, R402; log 3, log 22), and how
every one of them leaves the bus when it is (R291). -/

namespace Sys2Proof.Machine

/-- Settles O43: the spin of the guard performs nothing, so the command ends or waits as it was accepted. -/
theorem rsGuardNotFree : Obligations.RsGuardNotFree := by
  refine fun g s => ⟨fun n hl h => ?limit, fun hl h => ?spins⟩
  case limit =>
    have ended : rsGuarded g (accept s) = respond .pollTimeout 0 (accept s) := by
      rw [rsGuarded, rsAcquire_of_limit (s := accept s) hl h]; rfl
    exact ⟨_, (exec_guarded g s).trans (congrArg _ ended), (Runs.refl (accept s)).respond .pollTimeout 0⟩
  case spins =>
    have waits : rsGuarded g (accept s) = { accept s with seq := .rsSpin g } := by
      rw [rsGuarded, rsAcquire_of_unbounded (s := accept s) hl h]
    exact ⟨_, (exec_guarded g s).trans (congrArg _ waits), wait_of_body _ (Runs.refl (accept s))⟩

/-! ### The bus afterwards (R291) -/

/-- A body responds after `rs_release` (R272). -/
theorem guardedBody_ends (g : Guarded) (s : State) :
    (guardedBody g s).busy = false ∧ (guardedBody g s).rsReady = true := by
  cases g with
  | reset => rw [guardedBody, rsResetBody_eq]; exact ⟨rfl, rfl⟩
  | update | chkbat | setheater | setres | setotp | connreset => exact ⟨rfl, rfl⟩

/-- What follows a transaction moves no line. -/
theorem endTransaction_stopped {r : Status × State} (data : RsCache → BitVec 64) (h : BusStopped r.2) :
    BusStopped (endTransaction data r) := h

theorem rsUpdateBody_stopped (s : State) : BusStopped (rsUpdateBody s) := by
  refine endTransaction_stopped (fun c => zext64 (word32 c.rawHum c.rawTemp)) ?_
  split
  · exact rsReadMeasurement_stopped _ _ _
  · exact rsReadMeasurement_stopped _ _ _

theorem rsResetBody_stopped (s : State) : BusStopped (rsResetBody s) := by
  rw [rsResetBody_eq]
  exact i2cStop_stopped (rsCommand Config.rsResetDevice s).2

theorem guardedBody_stopped {g : Guarded} (h : g ≠ .connreset) (s : State) : BusStopped (guardedBody g s) := by
  have setFlag (k : Nat) (b : Bool) : BusStopped (rsSetFlagBody k b s) := rsWritereg_stopped _
  cases g with
  | update => exact rsUpdateBody_stopped s
  | reset => exact rsResetBody_stopped s
  | chkbat => exact rsReadStatus_stopped s
  | setheater b => exact setFlag flagHeater b
  | setres b => exact setFlag flagRes b
  | setotp b => exact setFlag flagOtp b
  | connreset => exact absurd rfl h

theorem rsConnresetBody_pins (s : State) :
    (rsConnresetBody s).pins = pinsAfter (waveBusReset s.i2cHalfUs.toNat) s.pins := by
  rw [rsConnresetBody, i2cReset_eq]; rfl

/-- Settles O44: every body responds after `rs_release`, and its last act on the lines is a stop condition, or for
`RS.CONNRESET` the start condition of the bus recovery. -/
theorem rsGuardedLeavesBus : Obligations.RsGuardedLeavesBus := by
  intro g s free lim
  obtain ⟨ended, released⟩ := guardedBody_ends g (acquired s)
  refine ⟨_, exec_guarded_of_free g free lim, ended, released, fun h => guardedBody_stopped h _, ?_⟩
  rintro rfl
  rw [guardedBody, rsConnresetBody_pins]
  exact pinsAfter_waveBusReset _ _

end Sys2Proof.Machine
end

section
/-! PROOF. The guarded commands of one transaction or none, with a free guard (spec 44_regsensor.md R279 to R283, R287). -/

namespace Sys2Proof.Machine

/-- Settles O42: the bus recovery between the guard and its release. -/
theorem rsConnresetResult : Obligations.RsConnresetResult := by
  refine ⟨decodeOfEncode .rsConnreset, fun s free lim => ?_⟩
  have law := (RunsStoring.of_runs (i2cReset_runs (acquired s))).respond_released free .ok 0
  rw [storeCache_id] at law
  exact ⟨_, exec_guarded_of_free .connreset free lim, law⟩

/-! ### `RS.RESET` (R279) -/

/-- Settles O39: the same body for both answers of the one sample, which the status alone tells. -/
theorem rsResetResult : Obligations.RsResetResult := by
  refine ⟨decodeOfEncode .rsReset, fun s free lim => ⟨_, exec_guarded_of_free .reset free lim, ?_⟩⟩
  rw [guardedBody, rsResetBody_eq]
  exact (rsResetRun_runs (acquired s)).respond_released free _ 0

/-! ### `RS.CHKBAT` (R280) -/

/-- The data of `RS.CHKBAT`: the status byte, and below it its battery flag. -/
def chkbatData (c : RsCache) : BitVec 64 := (zext64 c.status <<< 8) ||| bit64 (c.status.getLsbD flagBattery)

theorem chkbatData_eq (c : RsCache) :
    chkbatData c = BitVec.ofNat 64 (256 * c.status.toNat + (c.status.getLsbD 6).toNat) := by
  have flag := Bool.toNat_le (c.status.getLsbD 6)
  rw [chkbatData, zext64_eq_ofNat, bit64_eq_ofNat, flagBattery, ofNat_shiftLeft_or (by omega), Nat.mul_comm]
  rfl

/-- Settles O40: the status read, refused or not, and the cache as it leaves it. -/
theorem rsChkbatResult : Obligations.RsChkbatResult := by
  refine ⟨decodeOfEncode .rsChkbat, fun s free lim => ⟨fun h => ?refused, fun bits hb hg => ?loaded⟩⟩
  case refused =>
    have law := exec_guarded_transaction (g := .chkbat) (data := chkbatData) rfl free lim
      (rsReadStatus_refused (s := acquired s) h)
    rw [chkbatData_eq, storeCache_id] at law
    exact law
  case loaded =>
    have law := exec_guarded_transaction (g := .chkbat) (data := chkbatData) rfl free lim
      (rsReadStatus_stores hb ((gives_acquired s _).mpr hg))
    rw [chkbatData_eq, BitVec.getLsbD, Nat.toNat_testBit, ← setStatus_eq_storeCache,
      toNat_ofNat_msbValue hb] at law
    exact law

/-! ### The set commands (R277, R281 to R283) -/

/-- The state in which the register write of a set command begins. -/
def flagWritten (k : Nat) (b : Bool) (s : State) : State :=
  storeCache (fun c => { c with status := putBit s.rsStatus k b }) (acquired s)

theorem flagWritten_i2cHalfUs (k : Nat) (b : Bool) (s : State) : (flagWritten k b s).i2cHalfUs = s.i2cHalfUs := rfl

theorem flagWritten_rsStatus (k : Nat) (b : Bool) (s : State) :
    (flagWritten k b s).rsStatus = putBit s.rsStatus k b := rfl

theorem nextAnswer_flagWritten (k : Nat) (b : Bool) (s : State) : nextAnswer (flagWritten k b s) = nextAnswer s := rfl

theorem gives_flagWritten (k : Nat) (b : Bool) (s : State) (as : List Bool) :
    gives (flagWritten k b s) as ↔ gives s as :=
  gives_oracle (s := flagWritten k b s) (t := s) rfl rfl as

/-- The cached flag is written before the transaction, so it stands whatever that reports. -/
theorem exec_setFlag {g : Guarded} {k : Nat} {b : Bool} {s : State} {st : Status} {ops : List MicroOp} {n : Nat}
    (body : ∀ u, guardedBody g u = rsSetFlagBody k b u) (free : s.rsReady = true)
    (lim : withinLimit s.par.rsSpinLimit 0 = true)
    (h : Transacts st ops n id (flagWritten k b s) (rsWritereg (flagWritten k b s))) :
    ∃ t, exec (guardedInstr g) s = .next t ∧
      settled t = settled (answered st ((putBit s.rsStatus k b).setWidth 64)
        { ran ops n s with rsStatus := putBit s.rsStatus k b }) := by
  obtain ⟨status, runs⟩ := h
  have law := exec_guarded_transaction (data := fun c => c.status.setWidth 64) (body (acquired s)) free lim
    ⟨status, runs.of_store⟩
  rw [Function.id_comp, ← setStatus_eq_storeCache] at law
  exact law

/-- Settles O41: one bit of the cache by `getLsbD_putBit`, then the register write of that cache. -/
theorem rsSetFlagResult : Obligations.RsSetFlagResult := by
  intro i k b s hi free lim
  obtain ⟨g, rfl, hk, body⟩ : ∃ g, i = guardedInstr g ∧ k < 8 ∧ ∀ u, guardedBody g u = rsSetFlagBody k b u := by
    rcases hi with ⟨rfl, rfl⟩ | ⟨rfl, rfl⟩ | ⟨rfl, rfl⟩
    · exact ⟨.setheater b, rfl, by decide, fun _ => rfl⟩
    · exact ⟨.setres b, rfl, by decide, fun _ => rfl⟩
    · exact ⟨.setotp b, rfl, by decide, fun _ => rfl⟩
  refine ⟨putBit s.rsStatus k b, getLsbD_putBit _ hk b, fun h => ?refused, fun a hg => ?sent⟩
  case refused =>
    have write := rsWritereg_refused ((nextAnswer_flagWritten k b s).trans h)
    rw [flagWritten_i2cHalfUs] at write
    exact exec_setFlag body free lim write
  case sent =>
    have write := rsWritereg_sends ((gives_flagWritten k b s _).mpr hg)
    rw [flagWritten_i2cHalfUs, flagWritten_rsStatus] at write
    exact exec_setFlag body free lim write

end Sys2Proof.Machine
end

section
/-! PROOF. `RS.UPDATE` (spec 44_regsensor.md R278, R273): a temperature read and, if that succeeds, a humidity read; the
response is made of the readings as they then are. -/

namespace Sys2Proof.Machine

/-! ### The readings -/

/-- The cache with a new temperature (R273). -/
def storeTemp (v : BitVec 16) (c : RsCache) : RsCache := { c with rawTemp := v }

/-- The cache with a new humidity (R273). -/
def storeHum (v : BitVec 16) (c : RsCache) : RsCache := { c with rawHum := v }

theorem setTemp_eq_storeCache (v : BitVec 16) (s : State) : { s with rsRawTemp := v } = storeCache (storeTemp v) s := rfl

theorem setReadings_eq_storeCache (v h : BitVec 16) (s : State) :
    { s with rsRawTemp := v, rsRawHum := h } = storeCache (storeHum h ∘ storeTemp v) s := rfl

/-- The data of `RS.UPDATE`: humidity above temperature (R278). -/
def readingsData (c : RsCache) : BitVec 64 := zext64 (word32 c.rawHum c.rawTemp)

theorem readingsData_eq (c : RsCache) :
    readingsData c = BitVec.ofNat 64 (65536 * c.rawHum.toNat + c.rawTemp.toNat) := zext64_word32 _ _

theorem readingsData_storeTemp (v : BitVec 16) (c : RsCache) :
    readingsData (storeTemp v c) = BitVec.ofNat 64 (65536 * c.rawHum.toNat + v.toNat) := readingsData_eq _

/-- Two readings of sixteen bits each are the number of all the bits, the humidity's first. -/
theorem readingsData_storeBoth {temp hum : List Bool} (ht : temp.length = 16) (hh : hum.length = 16) (c : RsCache) :
    readingsData ((storeHum (BitVec.ofNat 16 (msbValue hum)) ∘ storeTemp (BitVec.ofNat 16 (msbValue temp))) c) =
      BitVec.ofNat 64 (msbValue (hum ++ temp)) := by
  rw [readingsData_eq, msbValue_append, ht]
  simp only [storeHum, storeTemp, Function.comp, toNat_ofNat_msbValue ht, toNat_ofNat_msbValue hh, Nat.reducePow]

/-! ### The two reads -/

section

variable {s : State} {st : Status} {xs ys : List MicroOp} {m n : Nat} {v w : RsCache → RsCache}

/-- The temperature read failed: no humidity read is started (R278). -/
theorem exec_rsUpdate_of_failed (free : s.rsReady = true) (lim : withinLimit s.par.rsSpinLimit 0 = true)
    (h : Transacts st xs n id (acquired s) (rsReadTemp (acquired s))) (failed : st ≠ .ok) :
    ∃ t, exec .rsUpdate s = .next t ∧ settled t = settled
      (answered st (BitVec.ofNat 64 (65536 * s.rsRawHum.toNat + s.rsRawTemp.toNat)) (ran xs n s)) := by
  have body : guardedBody .update (acquired s) = endTransaction readingsData (rsReadTemp (acquired s)) := by
    rw [guardedBody, rsUpdateBody, if_neg (h.status ▸ failed)]; rfl
  have law := exec_guarded_transaction (g := .update) body free lim h
  rw [readingsData_eq, storeCache_id] at law
  exact law

/-- The temperature read succeeded: the command reports what the humidity read does. -/
theorem exec_rsUpdate_of_read (free : s.rsReady = true) (lim : withinLimit s.par.rsSpinLimit 0 = true)
    (h : Transacts .ok xs m v (acquired s) (rsReadTemp (acquired s)))
    (k : Transacts st ys n w (rsReadTemp (acquired s)).2 (rsReadHum (rsReadTemp (acquired s)).2)) :
    ∃ t, exec .rsUpdate s = .next t ∧ settled t = settled
      (answered st (readingsData ((w ∘ v) s.rsCache)) (storeCache (w ∘ v) (ran (xs ++ ys) (m + n) s))) := by
  have body : guardedBody .update (acquired s) =
      endTransaction readingsData (rsReadHum (rsReadTemp (acquired s)).2) := by
    rw [guardedBody, rsUpdateBody, if_pos h.status]; rfl
  exact exec_guarded_transaction (g := .update) body free lim (h.trans k)

/-- The humidity read begins with the half cycle of the temperature read and with the answers after it. -/
theorem exec_rsUpdate_of_measured {j : Nat} {hi lo as : List Bool} {x : BitVec 16} (free : s.rsReady = true)
    (lim : withinLimit s.par.rsSpinLimit 0 = true) (hj : j < 500) (hh : hi.length = 8) (hl : lo.length = 8)
    (hx : x = BitVec.ofNat 16 (msbValue (hi ++ lo))) (hg : gives s (measureAnswers j hi lo ++ as))
    (hum : ∀ u, u.i2cHalfUs = s.i2cHalfUs → gives u as → Transacts st ys n w u (rsReadHum u)) :
    ∃ t, exec .rsUpdate s = .next t ∧ settled t = settled (answered st (readingsData ((w ∘ storeTemp x) s.rsCache))
      (storeCache (w ∘ storeTemp x) (ran (waveMeasure s.i2cHalfUs.toNat 0x03 j hi lo ++ ys) (j + 18 + n) s))) := by
  subst hx
  obtain ⟨now, later⟩ := (gives_append (acquired s) _ _).mp ((gives_acquired s _).mpr hg)
  rw [length_measureAnswers hh hl] at later
  have read : Transacts .ok _ _ _ _ (rsReadTemp (acquired s)) := rsReadMeasurement_stores 0x03 storeTemp hj hh hl now
  exact exec_rsUpdate_of_read free lim read (hum _ read.runs.i2cHalfUs_eq ((read.runs.gives_iff as).mpr later))

/-- The temperature is new, the humidity old. -/
theorem exec_rsUpdate_of_humidity_failed {j : Nat} {hi lo as : List Bool} (free : s.rsReady = true)
    (lim : withinLimit s.par.rsSpinLimit 0 = true) (hj : j < 500) (hh : hi.length = 8) (hl : lo.length = 8)
    (hg : gives s (measureAnswers j hi lo ++ as))
    (hum : ∀ u, u.i2cHalfUs = s.i2cHalfUs → gives u as → Transacts st ys n id u (rsReadHum u)) :
    ∃ t, exec .rsUpdate s = .next t ∧ settled t = settled
      (answered st (BitVec.ofNat 64 (65536 * s.rsRawHum.toNat + msbValue (hi ++ lo)))
        { ran (waveMeasure s.i2cHalfUs.toNat 0x03 j hi lo ++ ys) (j + 18 + n) s with
          rsRawTemp := BitVec.ofNat 16 (msbValue (hi ++ lo)) }) := by
  have temp : (hi ++ lo).length = 16 := by simp [hh, hl]
  have law := exec_rsUpdate_of_measured free lim hj hh hl rfl hg hum
  rw [Function.id_comp, readingsData_storeTemp, toNat_ofNat_msbValue temp, ← setTemp_eq_storeCache] at law
  exact law

end

/-- Settles O37: two measurement reads one after the other. -/
theorem rsUpdateSucceeds : Obligations.RsUpdateSucceeds := by
  refine ⟨decodeOfEncode .rsUpdate, fun s j k thi tlo hhi hlo free lim hj hk hthi htlo hhhi hhlo hg => ?_⟩
  have law := exec_rsUpdate_of_measured (as := measureAnswers k hhi hlo) free lim hj hthi htlo rfl hg
    fun u half given => half ▸ rsReadMeasurement_stores 0x05 storeHum hk hhhi hhlo given
  have temp : (thi ++ tlo).length = 16 := by simp [hthi, htlo]
  have hum : (hhi ++ hlo).length = 16 := by simp [hhhi, hhlo]
  rw [readingsData_storeBoth temp hum, ← setReadings_eq_storeCache, ← List.append_assoc,
    show j + 18 + (k + 18) = j + k + 36 by omega] at law
  exact law

/-- Settles O38: a first read that fails stores nothing and ends the command; of a second one the same. -/
theorem rsUpdateFails : Obligations.RsUpdateFails := by
  refine fun s free lim => ⟨fun h => ?refused, fun hg => ?timedOut, fun j thi tlo hj hthi htlo => ?second⟩
  case refused =>
    exact exec_rsUpdate_of_failed free lim (rsReadMeasurement_refused 0x03 storeTemp (s := acquired s) h) nofun
  case timedOut =>
    exact exec_rsUpdate_of_failed free lim
      (rsReadMeasurement_timedOut 0x03 storeTemp ((gives_acquired s _).mpr hg)) nofun
  case second =>
    constructor
    · intro hg
      have law := exec_rsUpdate_of_humidity_failed free lim hj hthi htlo hg fun u half given =>
        half ▸ rsReadMeasurement_refused 0x05 storeHum ((gives_cons u _ _).mp given).1
      exact law
    · intro hg
      have law := exec_rsUpdate_of_humidity_failed free lim hj hthi htlo hg fun _ half given =>
        half ▸ rsReadMeasurement_timedOut 0x05 storeHum given
      exact law

end Sys2Proof.Machine
end

section
/-! PROOF. The two commands of unit PW on a line that answers in time (spec 45_pulsewidth.md R322, R323, R325, R327): forty
pulses fill the frame, the five bytes of the frame are those the pulses send, and the response is made of them or of the
cached readings. -/

namespace Sys2Proof.Machine

/-! ### The frame filled bit by bit (R323) -/

/-- A bit shifted in is the next bit, most significant first: what leaves the forty bits at the top is dropped. -/
theorem shiftIn_msbValue (bits : List Bool) (b : Bool) :
    shiftIn (BitVec.ofNat 40 (msbValue bits)) b = BitVec.ofNat 40 (msbValue (bits ++ [b])) := by
  have bit : msbValue [b] < 2 ^ 1 := msbValue_lt rfl
  have last : (BitVec.ofBool b).setWidth 40 = BitVec.ofNat 40 (msbValue [b]) := by cases b <;> rfl
  have shift : BitVec.ofNat 40 (msbValue bits) <<< 1 = BitVec.ofNat 40 (msbValue bits <<< 1) := by
    apply BitVec.eq_of_toNat_eq
    simp [Nat.shiftLeft_eq]
  rw [shiftIn, last, shift, ← BitVec.ofNat_or, ← Nat.shiftLeft_add_eq_or_of_lt bit, Nat.shiftLeft_eq, msbValue_append,
    List.length_singleton, Nat.mul_comm]

theorem foldl_shiftIn (sent bits : List Bool) :
    bits.foldl shiftIn (BitVec.ofNat 40 (msbValue sent)) = BitVec.ofNat 40 (msbValue (sent ++ bits)) := by
  induction bits generalizing sent with
  | nil => rw [List.foldl_nil, List.append_nil]
  | cons b bits ih => rw [List.foldl_cons, shiftIn_msbValue, ih, List.append_assoc, List.singleton_append]

/-! ### The bytes of the frame (spec 30_encoding.md R124) -/

/-- Byte `k` of a bit sequence sent most significant bit first. -/
def sentByte (bits : List Bool) (k : Nat) : Nat := msbValue ((bits.drop (8 * k)).take 8)

theorem toNat_word16 (hi lo : Byte) : (word16 hi lo).toNat = hi.toNat * 256 + lo.toNat := toNat_append_eq_add hi lo

section

variable {bits : List Bool}

/-- The bits are those before byte `k`, the eight of byte `k`, and those after it. -/
theorem toNat_frameByte (h : bits.length = 40) {k : Nat} (hk : k < 5) :
    (frameByte (BitVec.ofNat 40 (msbValue bits)) k).toNat = sentByte bits k := by
  have byte : ((bits.drop (8 * k)).take 8).length = 8 := by rw [List.length_take, List.length_drop]; omega
  have rest : (bits.drop (8 * k + 8)).length = 32 - 8 * k := by rw [List.length_drop]; omega
  have parts : bits = (bits.take (8 * k) ++ (bits.drop (8 * k)).take 8) ++ bits.drop (8 * k + 8) := by
    rw [← List.take_add, List.take_append_drop]
  have value : msbValue bits = 2 ^ (32 - 8 * k) * (2 ^ 8 * msbValue (bits.take (8 * k)) + sentByte bits k) +
      msbValue (bits.drop (8 * k + 8)) := by
    conv_lhs => rw [parts]
    rw [msbValue_append, msbValue_append, rest, byte, sentByte]
  rw [frameByte, BitVec.extractLsb'_toNat, toNat_ofNat_msbValue h, Nat.shiftRight_eq_div_pow, value,
    Nat.mul_add_div (by positivity), Nat.div_eq_of_lt (msbValue_lt rest), Nat.add_zero, Nat.mul_add_mod,
    Nat.mod_eq_of_lt (show sentByte bits k < 2 ^ 8 from msbValue_lt byte)]

theorem word16_frameBytes (h : bits.length = 40) {j k : Nat} (hj : j < 5) (hk : k < 5) :
    word16 (frameByte (BitVec.ofNat 40 (msbValue bits)) j) (frameByte (BitVec.ofNat 40 (msbValue bits)) k) =
      BitVec.ofNat 16 (sentByte bits j * 256 + sentByte bits k) := by
  rw [← toNat_frameByte h hj, ← toNat_frameByte h hk, ← toNat_word16, BitVec.ofNat_toNat, BitVec.setWidth_eq]

theorem toNat_ofNat_sentBytes (h : bits.length = 40) {j k : Nat} (hj : j < 5) (hk : k < 5) :
    (BitVec.ofNat 16 (sentByte bits j * 256 + sentByte bits k)).toNat = sentByte bits j * 256 + sentByte bits k := by
  rw [← word16_frameBytes h hj hk, toNat_word16, toNat_frameByte h hj, toNat_frameByte h hk]

theorem checksumOk_iff (h : bits.length = 40) :
    checksumOk (BitVec.ofNat 40 (msbValue bits)) = true ↔
      (sentByte bits 0 + sentByte bits 1 + sentByte bits 2 + sentByte bits 3) % 256 = sentByte bits 4 := by
  simp only [checksumOk, beq_iff_eq, toNat_frameByte h, Nat.reduceLT]

end

/-! ### The forty bits of `PW.SAMPLE` (R322, R323) -/

/-- The state in which a frame sent by these pulses is tested: the trace run, the answers taken, the frame complete. -/
def pwFramed (us : List PwPulse) (rest : List Bool) (s : State) : State :=
  (after (wavePwStart s.par ++ us.flatMap (wavePwBit s.par)) (s.scripted rest)).shifted
    (BitVec.ofNat 40 (msbValue (us.map PwPulse.bit))) 40

section

variable {us : List PwPulse} {rest : List Bool} {s : State}

theorem pwSample_of_pulses (hn : us.length = 40)
    (hu : ∀ u ∈ us, withinLimit s.par.pwPollLimit u.lows = true ∧ withinLimit s.par.pwPollLimit u.highs = true)
    (h : s.script = us.flatMap PwPulse.answers ++ rest) : pwSample s = pwCheck (pwFramed us rest s) := by
  have started : pwSample s = pwFinish (pwBits (us.length + 0) (after (wavePwStart s.par) (s.shifted 0 0))) := by
    rw [hn, pwSample, performAll_eq]; rfl
  have frame : us.foldl (fun f u => shiftIn f u.bit) 0 = BitVec.ofNat 40 (msbValue (us.map PwPulse.bit)) := by
    rw [← List.foldl_map]; exact foldl_shiftIn [] _
  rw [started, pwBits_pulses us 0 (after (wavePwStart s.par) (s.shifted 0 0)) rest hu h]
  simp only [after_par, shifted_par, after_pwFrame, shifted_pwFrame, after_pwBitcnt, shifted_pwBitcnt, scripted_after,
    shifted_scripted, after_after, shifted_after, shifted_shifted, frame, hn, pwFramed]
  rfl

theorem pwFramed_runs (h : s.script = us.flatMap PwPulse.answers ++ rest) :
    Runs (wavePwStart s.par ++ us.flatMap (wavePwBit s.par)) (us.flatMap PwPulse.answers).length s
      (pwFramed us rest s) := by
  rw [Runs, ← settled_takeAnswers, takeAnswers_script _ rest s h]
  rfl

end

/-! ### The checksum test (R323, R325) -/

/-- `s` with both readings set. -/
def storePw (hum temp : BitVec 16) (s : State) : State := { s with pwHum := hum, pwTemp := temp }

theorem pwCached_eq (s : State) : pwCached s = BitVec.ofNat 64 (65536 * s.pwTemp.toNat + s.pwHum.toNat) :=
  zext64_word32 _ _

theorem pwCached_storePw (hum temp : BitVec 16) (s : State) :
    pwCached (storePw hum temp s) = BitVec.ofNat 64 (65536 * temp.toNat + hum.toNat) := pwCached_eq _

theorem pwCheck_of_valid {s : State} {hum temp : BitVec 16} (h : checksumOk s.pwFrame = true)
    (hh : word16 (frameByte s.pwFrame 0) (frameByte s.pwFrame 1) = hum)
    (ht : word16 (frameByte s.pwFrame 2) (frameByte s.pwFrame 3) = temp) :
    pwCheck s = respond .ok (pwCached (storePw hum temp s)) (storePw hum temp s) := by
  rw [pwCheck, if_pos h, hh, ht]; rfl

theorem pwCheck_of_invalid {s : State} (h : ¬ checksumOk s.pwFrame = true) :
    pwCheck s = respond .checksum (pwCached s) s := by
  rw [pwCheck, if_neg h]; rfl

section

variable {bits : List Bool} {ops : List MicroOp} {n : Nat} {s t : State}

theorem pwCheck_stores (hb : bits.length = 40) (hf : t.pwFrame = BitVec.ofNat 40 (msbValue bits))
    (valid : (sentByte bits 0 + sentByte bits 1 + sentByte bits 2 + sentByte bits 3) % 256 = sentByte bits 4)
    (run : Runs ops n (accept s) t) :
    settled (pwCheck t) = settled (answered .ok
      (BitVec.ofNat 64 (65536 * (sentByte bits 2 * 256 + sentByte bits 3) + (sentByte bits 0 * 256 + sentByte bits 1)))
      (storePw (BitVec.ofNat 16 (sentByte bits 0 * 256 + sentByte bits 1))
        (BitVec.ofNat 16 (sentByte bits 2 * 256 + sentByte bits 3)) (ran ops n s))) := by
  rw [← checksumOk_iff hb, ← hf] at valid
  rw [pwCheck_of_valid valid (hf ▸ word16_frameBytes hb (by decide) (by decide))
    (hf ▸ word16_frameBytes hb (by decide) (by decide)), pwCached_storePw,
    toNat_ofNat_sentBytes hb (by decide) (by decide), toNat_ofNat_sentBytes hb (by decide) (by decide)]
  exact congrArg (storePw _ _) (run.respond .ok _)

theorem pwCached_of_runs (run : Runs ops n (accept s) t) : pwCached t = pwCached s := by
  have hum : t.pwHum = s.pwHum := by simpa using congrArg State.pwHum run
  have temp : t.pwTemp = s.pwTemp := by simpa using congrArg State.pwTemp run
  rw [pwCached, hum, temp, pwCached]

theorem pwCheck_keeps (hb : bits.length = 40) (hf : t.pwFrame = BitVec.ofNat 40 (msbValue bits))
    (invalid : ¬ (sentByte bits 0 + sentByte bits 1 + sentByte bits 2 + sentByte bits 3) % 256 = sentByte bits 4)
    (run : Runs ops n (accept s) t) :
    settled (pwCheck t) = settled (answered .checksum (BitVec.ofNat 64 (65536 * s.pwTemp.toNat + s.pwHum.toNat))
      (ran ops n s)) := by
  rw [← checksumOk_iff hb, ← hf] at invalid
  rw [pwCheck_of_invalid invalid, run.respond, pwCached_of_runs run, pwCached_eq]

end

/-! ### The two commands -/

/-- Settles O45: the command is the checksum test of the frame the pulses send. -/
theorem pwSampleFrame : Obligations.PwSampleFrame := by
  refine ⟨decodeOfEncode .pwSample, fun s us rest hn hu h => ⟨_, rfl, ?_⟩⟩
  have bits : (us.map PwPulse.bit).length = 40 := by rw [List.length_map, hn]
  have run := pwFramed_runs (s := accept s) h
  rw [pwSample_of_pulses (s := accept s) hn hu h]
  split
  case isTrue valid => exact pwCheck_stores bits rfl valid run
  case isFalse invalid => exact pwCheck_keeps bits rfl invalid run

/-- Settles O48: an answer made of the cached readings. -/
theorem pwGetResult : Obligations.PwGetResult := by
  refine ⟨decodeOfEncode .pwGet, fun s => ⟨_, rfl, ?_⟩⟩
  rw [pwCached_eq]
  exact (Runs.refl (accept s)).respond .ok _

end Sys2Proof.Machine
end

section
/-! PROOF. `PW.SAMPLE` under a finite poll limit (spec 00_scope.md R17; 45_pulsewidth.md R322, R323; 60_exceptions.md
R355): whatever the oracle answers, scripted or free, a wait loop ends by its break or at its limit, and a bit that
reaches the limit ends the command with `POLL_TIMEOUT`. -/

namespace Sys2Proof.Machine

/-- The answers a run has taken are those given first; the others are still to come. -/
theorem Runs.gives_rest {s t : State} {ops : List MicroOp} {xs ys : List Bool} (run : Runs ops xs.length s t)
    (h : gives s (xs ++ ys)) : gives t ys := by
  rw [gives, run.answers_eq]
  exact ((gives_append s xs ys).mp h).2

section

variable {n : Nat} {s : State}

/-! ### One wait loop (R17, R322) -/

theorem poll_pwWait_breaks {v : Bool} {k : Nat} (hl : s.par.pwPollLimit = some n) (hk : k < n)
    (h : gives s (List.replicate k (!v) ++ [v])) :
    ∃ t, poll (pwWaitTurn v) s.par.pwPollLimit s = (.done, t) ∧
      Runs (wavePwFails s.par (!v) k ++ [.sample .pwd v]) (List.replicate k (!v) ++ [v]).length s t := by
  have turns := pollTimes_pwWait_hit v k n s hk (by simpa [gives] using h)
  refine ⟨_, by rw [hl, poll_eq, Option.getD_some, turns]; rfl, ?_⟩
  rw [List.length_append, List.length_replicate]
  exact .of_after _ _ s

theorem poll_pwWait_expires {v : Bool} (hl : s.par.pwPollLimit = some n) (h : gives s (List.replicate n (!v))) :
    ∃ t, poll (pwWaitTurn v) s.par.pwPollLimit s = (.limit, t) ∧
      Runs (wavePwFails s.par (!v) n) n s t := by
  have turns := pollTimes_pwWait_miss v n s (by simpa [gives] using h)
  exact ⟨_, by rw [hl, poll_eq, Option.getD_some, turns]; rfl, .of_after _ _ s⟩

/-! ### One bit (R322) -/

theorem pwDecodeBit_runs {b : Bool} (h : gives s [b]) :
    Runs [.delayUs s.par.pwTDecodeUs, .sample .pwd b] 1 s (pwDecodeBit s) := by
  rw [pwDecodeBit_eq, ((gives_cons s b []).mp h).1]
  exact .of_after _ 1 s

/-- A bit that ends, from its second loop on. -/
theorem pwHighPhase_ends {k : Nat} {b : Bool} (hl : s.par.pwPollLimit = some n) (hk : k < n)
    (h : gives s (List.replicate k true ++ [false] ++ [b])) :
    ∃ t, pwHighPhase s = (.done, t) ∧
      Runs (wavePwFails s.par true k ++ [.sample .pwd false] ++ [.delayUs s.par.pwTDecodeUs, .sample .pwd b])
        (List.replicate k true ++ [false] ++ [b]).length s t := by
  obtain ⟨t, falls, wait⟩ := poll_pwWait_breaks (v := false) hl hk ((gives_append s _ [b]).mp h).1
  have bit := pwDecodeBit_runs (wait.gives_rest h)
  rw [wait.par_eq] at bit
  rw [List.length_append]
  exact ⟨_, pwHighPhase_done falls, wait.trans bit⟩

/-- A bit whose first loop breaks goes on with its second loop. -/
theorem pwBit_rises {l : Nat} {as : List Bool} (hl : s.par.pwPollLimit = some n) (hn : l < n)
    (h : gives s (List.replicate l false ++ [true] ++ as)) :
    ∃ t, pwBit s = pwHighPhase t ∧ t.par = s.par ∧ gives t as ∧
      Runs (wavePwFails s.par false l ++ [.sample .pwd true]) (List.replicate l false ++ [true]).length s t := by
  obtain ⟨t, rises, wait⟩ := poll_pwWait_breaks (v := true) hl hn ((gives_append s _ as).mp h).1
  exact ⟨t, pwBit_done rises, wait.par_eq, wait.gives_rest h, wait⟩

theorem pwBit_ends {u : PwPulse} (hl : s.par.pwPollLimit = some n) (hu : u.lows < n ∧ u.highs < n)
    (h : gives s u.answers) :
    ∃ t, pwBit s = (.done, t) ∧ Runs (wavePwBit s.par u) u.answers.length s t := by
  have split : u.answers = List.replicate u.lows false ++ [true] ++ (List.replicate u.highs true ++ [false] ++ [u.bit]) := by
    simp [PwPulse.answers]
  have wave : wavePwBit s.par u = wavePwFails s.par false u.lows ++ [.sample .pwd true] ++
      (wavePwFails s.par true u.highs ++ [.sample .pwd false] ++ [.delayUs s.par.pwTDecodeUs, .sample .pwd u.bit]) := by
    simp [wavePwBit]
  rw [split] at h
  obtain ⟨t, bit, par, rest, low⟩ := pwBit_rises hl hu.1 h
  obtain ⟨w, ends, high⟩ := pwHighPhase_ends (par ▸ hl) hu.2 rest
  rw [par] at high
  rw [split, wave, List.length_append]
  exact ⟨w, bit.trans ends, low.trans high⟩

/-- A bit stuck in its first loop. -/
theorem pwBit_expires_low (hl : s.par.pwPollLimit = some n) (h : gives s (List.replicate n false)) :
    ∃ t, pwBit s = (.limit, t) ∧ Runs (wavePwFails s.par false n) n s t := by
  obtain ⟨t, expires, wait⟩ := poll_pwWait_expires (v := true) hl h
  exact ⟨t, by rw [pwBit, expires], wait⟩

/-- A bit stuck in its second loop. -/
theorem pwBit_expires_high {l : Nat} (hl : s.par.pwPollLimit = some n) (hn : l < n)
    (h : gives s (List.replicate l false ++ [true] ++ List.replicate n true)) :
    ∃ t, pwBit s = (.limit, t) ∧
      Runs (wavePwFails s.par false l ++ [.sample .pwd true] ++ wavePwFails s.par true n) (l + 1 + n) s t := by
  obtain ⟨t, bit, par, rest, low⟩ := pwBit_rises hl hn h
  obtain ⟨w, expires, high⟩ := poll_pwWait_expires (v := false) (par ▸ hl) rest
  rw [par] at high
  rw [List.length_append, List.length_replicate] at low
  exact ⟨w, by rw [bit, pwHighPhase, expires], low.trans high⟩

/-! ### The bits before it, and the command (R323, R355) -/

theorem pwBits_of_pulses {us : List PwPulse} {as : List Bool} (m : Nat) (hl : s.par.pwPollLimit = some n)
    (hu : ∀ u ∈ us, u.lows < n ∧ u.highs < n) (h : gives s (us.flatMap PwPulse.answers ++ as)) :
    ∃ t, pwBits (us.length + m) s = pwBits m t ∧
      Runs (us.flatMap (wavePwBit s.par)) (us.flatMap PwPulse.answers).length s t := by
  induction us generalizing s with
  | nil => exact ⟨s, by rw [List.length_nil, Nat.zero_add], .refl s⟩
  | cons u us ih =>
    rw [List.flatMap_cons, List.append_assoc] at h
    obtain ⟨t, ends, bit⟩ := pwBit_ends hl (hu u List.mem_cons_self) ((gives_append s _ _).mp h).1
    obtain ⟨w, bits, others⟩ := ih (bit.par_eq ▸ hl) (fun v hv => hu v (List.mem_cons_of_mem u hv)) (bit.gives_rest h)
    rw [bit.par_eq] at others
    rw [List.flatMap_cons, List.flatMap_cons, List.length_append]
    refine ⟨w, ?_, bit.trans others⟩
    rw [List.length_cons, Nat.add_right_comm, pwBits, ends]
    exact bits

/-- `PW.SAMPLE` before its first bit. -/
def pwStarted (s : State) : State := (after (wavePwStart s.par) s).shifted 0 0

theorem pwSample_eq (s : State) : pwSample s = pwFinish (pwBits Config.pwNbits (pwStarted s)) := by
  rw [pwSample, performAll_eq]; rfl

theorem pwStarted_runs (s : State) : Runs (wavePwStart s.par) 0 s (pwStarted s) := rfl

/-- A bit that ends at the limit, when `as` is answered after any number of whole bits below forty, ends the command. -/
theorem pwSample_times_out {us : List PwPulse} {as : List Bool} {k : Nat} {ops : List MicroOp}
    (hl : s.par.pwPollLimit = some n) (hn : us.length < 40) (hu : ∀ u ∈ us, u.lows < n ∧ u.highs < n)
    (stuck : ∀ t, t.par = s.par → gives t as → ∃ w, pwBit t = (.limit, w) ∧ Runs ops k t w)
    (h : gives s (us.flatMap PwPulse.answers ++ as)) :
    settled (pwSample (accept s)) = settled (answered .pollTimeout
      (BitVec.ofNat 64 (65536 * s.pwTemp.toNat + s.pwHum.toNat))
      (ran (wavePwStart s.par ++ us.flatMap (wavePwBit s.par) ++ ops)
        ((us.flatMap PwPulse.answers).length + k) s)) := by
  obtain ⟨m, hm⟩ : ∃ m, Config.pwNbits = us.length + (m + 1) := Nat.exists_eq_add_of_lt hn
  have start := pwStarted_runs (accept s)
  have given : gives (pwStarted (accept s)) (us.flatMap PwPulse.answers ++ as) :=
    start.gives_rest (xs := []) ((gives_accept s _).mpr h)
  obtain ⟨t, bits, whole⟩ := pwBits_of_pulses (m + 1) (start.par_eq ▸ hl) hu given
  obtain ⟨w, expires, last⟩ := stuck t (whole.par_eq.trans start.par_eq) (whole.gives_rest given)
  have run := (start.trans whole).trans last
  rw [Nat.zero_add] at run
  have finish : pwSample (accept s) = respond .pollTimeout (pwCached w) w := by
    rw [pwSample_eq, hm, bits, pwBits, expires]; rfl
  rw [finish, pwCached_of_runs run, pwCached_eq]
  exact run.respond .pollTimeout _

end

/-- Settles O46: the bit after the whole ones is stuck in its first or in its second loop. -/
theorem pwSampleLimit : Obligations.PwSampleLimit := by
  intro s n us hl hn hu
  refine ⟨fun h => ⟨_, rfl, pwSample_times_out hl hn hu (fun t par given => ?low) h⟩,
    fun l hln h => ⟨_, rfl, pwSample_times_out hl hn hu (fun t par given => ?high) h⟩⟩
  case low => exact par ▸ pwBit_expires_low (par ▸ hl) given
  case high => exact par ▸ pwBit_expires_high (par ▸ hl) hln given

end Sys2Proof.Machine
end

section
/-! PROOF. What ends with `ILLEGAL` (spec 60_exceptions.md R356): a word that decodes to nothing, and `I2C.SETFREQ 0`. -/

namespace Sys2Proof.Machine

theorem fetch_of_word {s : State} {w : Word} {rest : List Word} (hp : s.wirePort = none) (hh : s.host = w :: rest) :
    fetch s = some (.cmd32 w, { s with host := rest }) := by
  rw [fetch, hp, hh]

/-- An illegal word has no micro-operation and takes no answer: only the response is written. -/
theorem illegalWord_eq (s : State) : illegalWord s = answered .illegal 0 (ran [] 0 s) := by
  rw [ran, after_nil]; rfl

/-- Settles O9: the word by the step on a code that decodes to nothing, `I2C.SETFREQ 0` by its result (O33). -/
theorem illegalEnds : Obligations.IllegalEnds := by
  refine ⟨rfl, fun s w rest e hr hb hp hh hd => ?_, fun s => ?_⟩
  · rw [step_of_fetch_error hr hb (fetch_of_word hp hh) hd, ← illegalWord_eq]
    rfl
  · obtain ⟨-, runs⟩ := i2cSetfreqResult 0
    obtain ⟨t, he, refused, -⟩ := runs s
    exact ⟨t, he, refused rfl⟩

end Sys2Proof.Machine
end

section
/-! PROOF. The reset state (spec 70_reset_and_hazards.md R390), and that no run from a state of the invariant ends in a fault
or a refusal (R393): every step has a next state, the invariant is kept (O52), and the wire port stays empty. -/

namespace Sys2Proof.Machine

/-! ### The reset values (R390) -/

theorem step_of_rst {s : State} (hr : s.rst = true) : step s = .next (resetBlock s) := by
  rw [step, if_pos hr]

theorem resetWith_pins_get (p : Params) (l : Line) : (State.resetWith p).pins.get l = ⟨false, false⟩ := by
  cases l <;> rfl

theorem resetWith_i2cHalfUs {p : Params} (h : p.i2cHzReset = 100000) : (State.resetWith p).i2cHalfUs = 5 := by
  rw [State.resetWith, h]; rfl

/-- Settles O13: the block after `rst` has the values of `State.resetWith`, for any parameters; so has `State.reset`. -/
theorem rstResets : Obligations.RstResets := by
  refine ⟨fun s hr => ⟨resetBlock s, step_of_rst hr, ?_⟩, ?_⟩
  · exact ⟨rfl, rfl, rfl, rfl, rfl, rfl, rfl, rfl, rfl, resetWith_pins_get s.par, rfl, resetWith_i2cHalfUs, rfl, rfl, rfl,
      rfl, rfl, rfl, rfl⟩
  · exact ⟨rfl, rfl, rfl, rfl, rfl, rfl, rfl, resetWith_pins_get Config.params, rfl, resetWith_i2cHalfUs rfl, rfl, rfl, rfl,
      rfl, rfl, rfl, rfl⟩

/-- Settles O53: an idle block with the flag free and every line released. -/
theorem invAtReset : Obligations.InvAtReset := by
  have half : State.reset.i2cHalfUs.toNat ≤ 500000 := by decide
  exact (inv_iff_of_idle rfl).mpr ⟨rfl, rfl, half, rfl, rfl⟩

/-! ### Every step goes on -/

/-- What an idle block with an empty wire port does with the host's words (R23): it waits, it runs the next word's
instruction, or it ends an illegal one with `ILLEGAL`. -/
theorem step_of_idle {s : State} (hr : s.rst = false) (hb : s.busy = false) (hp : s.wirePort = none) :
    step s = .next s ∨
      ∃ rest, (∃ i, step s = exec i { s with host := rest }) ∨ step s = .next (illegalWord { s with host := rest }) := by
  cases hh : s.host with
  | nil => exact .inl (step_of_fetch_none hr hb (fetch_of_nothing hp hh))
  | cons w rest =>
    have fetched := fetch_of_host hp hh
    cases hd : decode (.cmd32 w) with
    | ok i => exact .inr ⟨rest, .inl ⟨i, step_of_fetch_ok hr hb fetched hd⟩⟩
    | error e => exact .inr ⟨rest, .inr (step_of_fetch_error hr hb fetched hd)⟩

/-- A step from a state of the invariant goes on, with the parameters and the empty wire port as they were (R42): a busy
block has a command to take on, and what an instruction touches (O58) is neither of the two. -/
theorem step_goes_on {s : State} (h : Inv s = true) (hp : s.wirePort = none) :
    ∃ t, step s = .next t ∧ t.par = s.par ∧ t.wirePort = none := by
  obtain ⟨touchedByExec, touchedByResume⟩ := stateTouched
  cases hr : s.rst with
  | true => exact ⟨_, step_of_rst hr, rfl, hp⟩
  | false =>
    cases hb : s.busy with
    | true =>
      obtain ⟨-, hseq, -⟩ := (inv_iff s).mp h
      obtain ⟨i, hi⟩ := exists_command (hseq.mp hb)
      obtain ⟨t, hs, hpar, -, hport, -⟩ := touchedByResume i s hr hb hi
      exact ⟨t, hs, hpar, hport.trans hp⟩
    | false =>
      obtain waits | ⟨rest, ⟨i, runs⟩ | ends⟩ := step_of_idle hr hb hp
      · exact ⟨s, waits, rfl, hp⟩
      · obtain ⟨t, he, hpar, -, hport, -⟩ := touchedByExec i { s with host := rest }
        exact ⟨t, runs.trans he, hpar, hport.trans hp⟩
      · exact ⟨_, ends, rfl, hp⟩

/-- A property under which every step goes on, and which every step keeps, makes every run safe. -/
theorem safeFor_of_kept {P : State → Prop} (go : ∀ s, P s → ∃ t, step s = .next t ∧ P t) (n : Nat) {s : State} (h : P s) :
    safeFor n s = true := by
  induction n generalizing s with
  | zero => rfl
  | succ n ih =>
    obtain ⟨t, hs, ht⟩ := go s h
    rw [safeFor, hs]
    exact ih ht

/-- Settles O54: the invariant with an empty wire port is such a property. -/
theorem runsAreSafe : Obligations.RunsAreSafe := by
  intro n s h hp
  refine ⟨safeFor_of_kept (P := fun u => Inv u = true ∧ u.wirePort = none) ?_ n ⟨h, hp⟩, step_goes_on h hp⟩
  rintro u ⟨hu, hup⟩
  obtain ⟨t, hs, -, htp⟩ := step_goes_on hu hup
  exact ⟨t, hs, invKept u t hu hs, htp⟩

end Sys2Proof.Machine
end

section
/-! PROOF. The four unbounded loops while the awaited answer does not come (spec 70_reset_and_hazards.md R401, R402; log 3):
a turn for every scripted answer, and the command stands where it stood. -/

namespace Sys2Proof.Machine

/-! ### The whole script taken -/

/-- `s` after `ops`, the whole script taken, at this position. -/
def State.stuckAt (s : State) (pos : Seq) (ops : List MicroOp) : State :=
  { after ops (s.scripted []) with seq := pos }

theorem stuckAt_self {s : State} {pos : Seq} (h : s.seq = pos) (ops : List MicroOp) :
    s.stuckAt pos ops = { after ops s with script := [] } := by
  rw [← h]; rfl

/-- What ran before the script was taken to its end joins what ran until then. -/
theorem stuckAt_after (s : State) (pos : Seq) (xs ys : List MicroOp) (rest : List Bool) :
    (after xs (s.scripted rest)).stuckAt pos ys = s.stuckAt pos (xs ++ ys) := by
  rw [State.stuckAt, scripted_after, after_after, scripted_scripted, State.stuckAt]

theorem takeAnswers_whole_script {s : State} {as : List Bool} (h : s.script = as) :
    takeAnswers as.length s = s.scripted [] :=
  takeAnswers_script as [] s (by rw [h, List.append_nil])

theorem answers_whole_script {s : State} {as : List Bool} (h : s.script = as) : answers as.length s = as :=
  answers_script as [] s (by rw [h, List.append_nil])

section

variable {s : State} {m : Nat}

/-! ### The conversion poll (R193) -/

theorem owConvertPoll_waits (u : ConvUser) (hl : s.par.owConvPollLimit = none)
    (h : s.script = List.replicate (m + 1) false) :
    owConvertPoll u s = s.stuckAt (.convPoll u) (waveOwReadBits s.par (List.replicate (m + 1) false)) := by
  have taken := takeAnswers_whole_script h
  rw [List.length_replicate] at taken
  rw [owConvertPoll_of_zeros u hl h, taken]
  rfl

/-! ### The wait loops of `pw_bit` (R322) -/

/-- A wait loop without a limit, whose scripted answers all stay at the waited-out level, takes them all and waits. -/
theorem poll_pwWait_waits {v : Bool} (hl : s.par.pwPollLimit = none) (h : s.script = List.replicate (m + 1) (!v)) :
    poll (pwWaitTurn v) s.par.pwPollLimit s =
      (.waiting, after (wavePwFails s.par (!v) (m + 1)) (s.scripted [])) := by
  have given := answers_whole_script h
  have taken := takeAnswers_whole_script h
  rw [List.length_replicate] at given taken
  have turns : max 1 s.script.length = m + 1 := by rw [h, List.length_replicate]; omega
  rw [hl, poll_eq, Option.getD_none, turns, pollTimes_pwWait_miss v (m + 1) s given, taken]
  rfl

/-- A bit that waits in its first loop. -/
theorem pwBit_waits_low (hl : s.par.pwPollLimit = none) (h : s.script = List.replicate (m + 1) false) :
    pwBit s = (.waiting, s.stuckAt .pwLow (wavePwFails s.par false (m + 1))) := by
  rw [pwBit, poll_pwWait_waits (v := true) hl h]
  rfl

/-- A bit that waits in its second loop, from there on. -/
theorem pwHighPhase_waits (hl : s.par.pwPollLimit = none) (h : s.script = List.replicate (m + 1) true) :
    pwHighPhase s = (.waiting, s.stuckAt .pwHigh (wavePwFails s.par true (m + 1))) := by
  rw [pwHighPhase, poll_pwWait_waits (v := false) hl h]
  rfl

/-- A bit that leaves its first loop after `l` turns and waits in its second. -/
theorem pwBit_waits_high {l : Nat} (hl : s.par.pwPollLimit = none)
    (h : s.script = List.replicate l false ++ [true] ++ List.replicate (m + 1) true) :
    pwBit s = (.waiting,
      s.stuckAt .pwHigh (wavePwFails s.par false l ++ [.sample .pwd true] ++ wavePwFails s.par true (m + 1))) := by
  have rises := poll_pwWait_hit true l s (List.replicate (m + 1) true) (by rw [hl]; rfl)
    (by rw [h, List.append_assoc]; rfl)
  rw [pwBit_done rises, pwHighPhase_waits (m := m) ?limit ?script, stuckAt_after]
  case limit => exact hl
  case script => rfl
  rfl

end

/-- A bit that waits leaves the command waiting, whatever the bits before it. -/
theorem pwFinish_pwRest_waiting (t : State) : pwFinish (pwRest (.waiting, t)) = t := rfl

/-! ### A step of a command that waits -/

/-- Settles O14: each clause is the law of its loop, taken at the position the command has. -/
theorem hangStaysBusy : Obligations.HangStaysBusy := by
  intro s m hr hb
  have goesOn := step_of_busy hr hb
  refine ⟨fun u hseq hl h => goesOn.trans ?conv, fun hseq hl h => goesOn.trans ?low,
    fun hseq hl h => goesOn.trans ?high, fun g hseq hl busy => goesOn.trans ?spin⟩
  case conv => rw [hseq, resume, owConvertPoll_waits u hl h, stuckAt_self hseq]
  case low => rw [hseq, resume, pwResumeLow, pwBit_waits_low hl h, pwFinish_pwRest_waiting, stuckAt_self hseq]
  case high => rw [hseq, resume, pwResumeHigh, pwHighPhase_waits hl h, pwFinish_pwRest_waiting, stuckAt_self hseq]
  case spin => rw [hseq, resume, rsGuarded, rsAcquire_of_unbounded hl busy, ← hseq]

/-! ### `PW.SAMPLE` on a line that stays at one level (R322, R401) -/

/-- `PW.SAMPLE` after the bits these pulses send: the trace run, the answers taken, the bits in the frame and counted. -/
def pwReceived (us : List PwPulse) (rest : List Bool) (s : State) : State :=
  (after (wavePwStart s.par ++ us.flatMap (wavePwBit s.par)) (s.scripted rest)).shifted
    (BitVec.ofNat 40 (msbValue (us.map PwPulse.bit))) (BitVec.ofNat 6 us.length)

section

variable {us : List PwPulse} {rest : List Bool} {s : State}

theorem pwBits_pwStarted (n : Nat) (hl : s.par.pwPollLimit = none) (h : s.script = us.flatMap PwPulse.answers ++ rest) :
    pwBits (us.length + n) (pwStarted s) = pwBits n (pwReceived us rest s) := by
  have frame : us.foldl (fun f u => shiftIn f u.bit) 0 = BitVec.ofNat 40 (msbValue (us.map PwPulse.bit)) := by
    rw [← List.foldl_map]; exact foldl_shiftIn [] _
  have count : (0 : BitVec 6) + BitVec.ofNat 6 us.length = BitVec.ofNat 6 us.length := BitVec.zero_add _
  have unlimited (k : Nat) : withinLimit s.par.pwPollLimit k = true := by rw [hl]; rfl
  rw [pwBits_pulses us n (pwStarted s) rest (fun u _ => ⟨unlimited u.lows, unlimited u.highs⟩) h]
  simp only [pwStarted, pwReceived, after_par, shifted_par, after_pwFrame, shifted_pwFrame, after_pwBitcnt,
    shifted_pwBitcnt, scripted_after, shifted_scripted, after_after, shifted_after, shifted_shifted, frame, count]

/-- When the bit after the whole ones waits, having taken the rest of the script, so does the command. -/
theorem pwSample_waits {pos : Seq} {ops : List MicroOp} {k : Nat} (hl : s.par.pwPollLimit = none) (hn : us.length < 40)
    (hk : rest.length = k)
    (stuck : ∀ t, t.par = s.par → t.script = rest → pwBit t = (.waiting, t.stuckAt pos ops))
    (h : s.script = us.flatMap PwPulse.answers ++ rest) :
    settled (pwSample (accept s)) = settled (waitingAt pos
        (ran (wavePwStart s.par ++ us.flatMap (wavePwBit s.par) ++ ops) ((us.flatMap PwPulse.answers).length + k) s)) ∧
      (pwSample (accept s)).pwBitcnt = BitVec.ofNat 6 us.length ∧
      (pwSample (accept s)).pwFrame = BitVec.ofNat 40 (msbValue (us.map PwPulse.bit)) := by
  obtain ⟨m, hm⟩ : ∃ m, Config.pwNbits = us.length + (m + 1) := Nat.exists_eq_add_of_lt hn
  have finish : pwSample (accept s) = (pwReceived us rest (accept s)).stuckAt pos ops := by
    rw [pwSample_eq, hm, pwBits_pwStarted (s := accept s) (m + 1) hl h, pwBits, stuck (pwReceived us rest (accept s)) rfl rfl]
    rfl
  refine ⟨?_, by rw [finish]; rfl, by rw [finish]; rfl⟩
  rw [finish, ← hk, ← List.length_append, ran, takeAnswers_whole_script h, ← after_after]
  rfl

end

/-- Settles O47: the bit after the whole ones waits in its first or in its second loop. -/
theorem pwSampleWaits : Obligations.PwSampleWaits := by
  intro s m us hl hn
  refine ⟨fun h => ⟨_, rfl, pwSample_waits hl hn List.length_replicate (fun t par script => ?low) h⟩,
    fun l h => ⟨_, rfl, pwSample_waits hl hn ?count (fun t par script => ?high) h⟩⟩
  case low => exact par ▸ pwBit_waits_low (par ▸ hl) script
  case count => simp only [List.length_append, List.length_replicate, List.length_singleton]
  case high => exact par ▸ pwBit_waits_high (par ▸ hl) script

end Sys2Proof.Machine
end
